-- ==== Sys2Proof/Word.lean ====
section
/-! DEFINITION. The word types of the FPZD decode core (00_scope R10, R11): unsigned values of
8, 32 and 64 bits. -/

namespace Sys2Proof

/-- A byte of system memory or of the stream. -/
abbrev Byte := BitVec 8

/-- A 32-bit register of the window (10_state R20). -/
abbrev Word := BitVec 32

/-- A 64-bit register, address or length. -/
abbrev DWord := BitVec 64

end Sys2Proof
end

