-- ==== Sys2Proof/Syntax.lean ====
section
/-! DEFINITION. The instructions: one constructor for each row of spec/opcode_table.json. The block
has two kinds of rows (30_encoding R110, R120): command words written to CTRL, and values of the
sequencer phase PHASE. A row that covers several codes carries the code. -/

namespace Sys2Proof

/-- What selects a row: a CTRL command word or a PHASE value (30 R110, R120). -/
inductive Format where
  | ctrl
  | phase
deriving DecidableEq, Repr

/-- One constructor per row of the opcode table. -/
inductive Instr where
  /-- CTRL 0x0, 40 R151. -/
  | nop
  /-- CTRL 0x1 OPEN, 40 R152 (`open` is a word of Lean). -/
  | openStream
  /-- CTRL 0x2, 40 R154. -/
  | decompress
  /-- CTRL 0x3 DEKOMPRESS, reserved, 40 R157. -/
  | dekompress
  /-- CTRL 0x4 to 0x7, reserved, 40 R157. -/
  | reservedLow (cmd : BitVec 4)
  /-- CTRL 0x8 to 0xF, reserved, 40 R157. -/
  | reservedHigh (cmd : BitVec 4)
  /-- PHASE 0, 10 R40. -/
  | idle
  /-- PHASE 1, 41 R189. -/
  | rcInit
  /-- PHASE 2, 43 R248. -/
  | predict
  /-- PHASE 3, 42 R212. -/
  | zero
  /-- PHASE 4, 42 R214. -/
  | sign
  /-- PHASE 5, 42 R216. -/
  | sig
  /-- PHASE 6, 42 R218. -/
  | ref
  /-- PHASE 7, 42 R220. -/
  | recon
  /-- PHASE 8, 43 R256. -/
  | emit
  /-- PHASE 9, 41 R192. -/
  | final
  /-- PHASE 10 and 11, never entered, 10 R40. -/
  | unusedLow (phase : BitVec 4)
  /-- PHASE 12 to 15, never entered, 10 R40. -/
  | unusedHigh (phase : BitVec 4)
deriving DecidableEq, Repr

/-- Whether a row is a command or a phase ("format" in spec/opcode_table.json). -/
def Instr.format : Instr → Format
  | .nop => .ctrl
  | .openStream => .ctrl
  | .decompress => .ctrl
  | .dekompress => .ctrl
  | .reservedLow _ => .ctrl
  | .reservedHigh _ => .ctrl
  | .idle => .phase
  | .rcInit => .phase
  | .predict => .phase
  | .zero => .phase
  | .sign => .phase
  | .sig => .phase
  | .ref => .phase
  | .recon => .phase
  | .emit => .phase
  | .final => .phase
  | .unusedLow _ => .phase
  | .unusedHigh _ => .phase

end Sys2Proof
end

