-- ==== Sys2Proof/WellFormed.lean ====
section
/-! DEFINITION. Which instruction terms stand for a row of the opcode table: a code carried by a
constructor lies in that row's range (30_encoding R110, 10_state R40). -/

namespace Sys2Proof

/-- The code a constructor carries is one of its row's. -/
def Instr.wf : Instr → Bool
  | .nop => true
  | .openStream => true
  | .decompress => true
  | .dekompress => true
  | .reservedLow c => decide (4 ≤ c.toNat ∧ c.toNat < 8)
  | .reservedHigh c => decide (8 ≤ c.toNat)
  | .idle => true
  | .rcInit => true
  | .predict => true
  | .zero => true
  | .sign => true
  | .sig => true
  | .ref => true
  | .recon => true
  | .emit => true
  | .final => true
  | .unusedLow p => decide (10 ≤ p.toNat ∧ p.toNat < 12)
  | .unusedHigh p => decide (12 ≤ p.toNat)

end Sys2Proof
end

