-- ==== Sys2Proof/Decode.lean ====
section
/-! DEFINITION. Decoding and encoding. A command is a 32-bit CTRL word of which only bits 3:0 count
(30_encoding R110, R111); a phase is the 4-bit PHASE value (30 R120). In bytes a CTRL word is four
bytes, least significant first, and a PHASE value is one byte. -/

namespace Sys2Proof

/-- Why bytes are no instruction. -/
inductive DecodeError where
  /-- Neither the one byte of a PHASE value nor the four bytes of a CTRL word. -/
  | length (n : Nat)
deriving DecidableEq, Repr

/-- The command a CTRL code selects (30 R110); every code is a row. -/
def decodeCmd (c : BitVec 4) : Instr :=
  match c.toNat with
  | 0 => .nop
  | 1 => .openStream
  | 2 => .decompress
  | 3 => .dekompress
  | 4 | 5 | 6 | 7 => .reservedLow c
  | _ => .reservedHigh c

/-- The command of a CTRL word: `CMD = v[3:0]`, bits 31:4 ignored (30 R110). -/
def decodeCtrl (v : Word) : Instr :=
  decodeCmd (v.setWidth 4)

/-- The step a PHASE value selects (10 R40, 30 R120); the dispatch is total. -/
def decodePhase (p : BitVec 4) : Instr :=
  match p.toNat with
  | 0 => .idle
  | 1 => .rcInit
  | 2 => .predict
  | 3 => .zero
  | 4 => .sign
  | 5 => .sig
  | 6 => .ref
  | 7 => .recon
  | 8 => .emit
  | 9 => .final
  | 10 | 11 => .unusedLow p
  | _ => .unusedHigh p

/-- Four bytes as a word, least significant first. -/
def wordOfBytes (b0 b1 b2 b3 : Byte) : Word := b3 ++ b2 ++ b1 ++ b0

/-- The bytes of a word, least significant first. -/
def bytesOfWord (w : Word) : List Byte :=
  [w.extractLsb' 0 8, w.extractLsb' 8 8, w.extractLsb' 16 8, w.extractLsb' 24 8]

/-- The decoder: total on any bytes, refusing by name. -/
def decode : List Byte → Except DecodeError Instr
  | [p] => .ok (decodePhase (p.setWidth 4))
  | [b0, b1, b2, b3] => .ok (decodeCtrl (wordOfBytes b0 b1 b2 b3))
  | bs => .error (.length bs.length)

/-- The code of an instruction in its four-bit field (30 R110, 10 R40). -/
def Instr.code : Instr → BitVec 4
  | .nop => 0x0
  | .openStream => 0x1
  | .decompress => 0x2
  | .dekompress => 0x3
  | .reservedLow c => c
  | .reservedHigh c => c
  | .idle => 0
  | .rcInit => 1
  | .predict => 2
  | .zero => 3
  | .sign => 4
  | .sig => 5
  | .ref => 6
  | .recon => 7
  | .emit => 8
  | .final => 9
  | .unusedLow p => p
  | .unusedHigh p => p

/-- The encoder: a CTRL word with the ignored bits 0, or the byte of a PHASE value. -/
def encode (i : Instr) : List Byte :=
  match i.format with
  | .ctrl => bytesOfWord (i.code.setWidth 32)
  | .phase => [i.code.setWidth 8]

/-- The instruction the decoder reads from bits numbered as spec/opcode_table.json numbers them. A
row of at most 8 bits is a PHASE value, a wider one a CTRL word (notes/assumptions/11.md). -/
def decodeTableWord (nbits w : Nat) : Option Instr :=
  let bytes := if nbits ≤ 8 then [BitVec.ofNat 8 w] else bytesOfWord (BitVec.ofNat 32 w)
  match decode bytes with
  | .ok i => some i
  | .error _ => none

end Sys2Proof
end

