-- ==== Sys2Proof/Config.lean ====
section
/-! DEFINITION. What an implementation or the platform fixes: the format constants (30_encoding
R101, 41_range_decoder R181, R186), the OPEN parameters (00_scope R8) as plain data, and the free
values (93_implementation_defined I3, I4, I5, I11; 20_memory R77). -/

namespace Sys2Proof

/-- `HDR_LEN` (30 R101). -/
abbrev Config.hdrLen : Nat := 23

/-- `NCTX`, the number of contexts (30 R118, 41 R181). -/
abbrev Config.nctx : Nat := 129

/-- `CNT_INIT` (41 R181). -/
abbrev Config.cntInit : Nat := 1

/-- `CNT_INC` (41 R181). -/
abbrev Config.cntInc : Nat := 16

/-- `CNT_LIMIT` (41 R181). -/
abbrev Config.cntLimit : Nat := 8192

/-- `RC_BOT` (41 R186). -/
abbrev Config.rcBot : Nat := 16777216

/-- `MAGIC` (30 R101). -/
abbrev Config.magic : List Byte := [0x46, 0x50, 0x5A, 0x00]

/-- `VERSION` (30 R101). -/
abbrev Config.version : Byte := 1

/-- The ID constant (10 R21). -/
abbrev Config.idValue : Word := 0x445A5046

/-- Size of the register window in bytes (10 R20). -/
abbrev Config.windowSize : Nat := 0x100

/-- A run of addresses: `size` bytes from `base`, modulo `2^64` (20 R71). -/
structure Region where
  base : DWord
  size : Nat
deriving DecidableEq, Repr

/-- The parameters the spec leaves OPEN and what the platform decides (00_scope R8; 20 R78, R79,
R80). They are plain data, so a statement about every state holds for every value of them
(notes/assumptions/3.md). -/
structure Platform where
  /-- `NB_DEPTH`; `none` is an unbounded neighbour store (10 R35, R46). -/
  nbDepth : Option Nat
  /-- `MMIO_BASE[n]`, the base of the register window (10 R20). -/
  mmioBase : DWord
  /-- Addresses the memory system does not admit (20 R79). -/
  holes : List Region
  /-- Addresses of other device registers (20 R78). -/
  devices : List Region
deriving DecidableEq, Repr

/-- DESIGN CHOICE (notes/assumptions/3.md), unsafe: the platform `State.reset` stands on. No
statement rests on these values. -/
def Config.platform : Platform where
  nbDepth := none
  mmioBase := 0x8000000000000000
  holes := []
  devices := []

/-- The free values of bytes: what a contested access reads or writes (20 R85, R86, R87). It has no
body, so nothing can be proved of a value. DESIGN CHOICE, safe (notes/assumptions/9.md). -/
opaque Config.freeByte : Nat → Byte

/-- The free choice of one of a few bytes: what another agent's read of a destination byte during a call
returns (20 R77, R86). It has no body. DESIGN CHOICE, safe (notes/assumptions/9.md). -/
opaque Config.freePick : Nat → Nat

/-- The free values of decode registers after a call or an error (93 I11; 60 R285), by the number of
the draw and the register. It has no body. DESIGN CHOICE, safe (notes/assumptions/6.md). -/
opaque Config.freeWord : Nat → Nat → DWord

end Sys2Proof
end

