-- ==== Sys2Proof/Machine/State.lean ====
section
/-! DEFINITION. The machine's state, all of it plain data: the registers of 10_state (sections 1 and
2), system memory, the parameters the spec leaves OPEN, and the model's own fields; the reasons a
step can stop; the state after reset. -/

namespace Sys2Proof.Machine

/-- STATUS.STATE (10 R24). Values 5, 6 and 7 are never produced, so they are no constructors. -/
inductive CallState where
  | unopened
  | headerParsed
  | decoding
  | complete
  | failed
deriving DecidableEq, Repr

/-- The host-writable registers other than CTRL (10 R25, R26). -/
structure HostRegs where
  srcBase : DWord
  srcLen : DWord
  dstBase : DWord
  dstCount : DWord
  dstType : BitVec 1
deriving DecidableEq, Repr

/-- The handle registers (10 R27 to R32); `srcBase` is the internal `H_SRC_BASE`. -/
structure Handle where
  typ : BitVec 1
  prec : BitVec 8
  nx : Word
  ny : Word
  nz : Word
  nf : Word
  nvox : DWord
  nbytes : DWord
  srcBase : DWord
deriving DecidableEq, Repr

/-- The neighbour store `NB` (10 R46): pairs of a voxel index and its value, newest index first; an
index that is not listed holds an unspecified value (notes/assumptions/7.md). -/
abbrev NbStore := List (Nat × DWord)

/-- The registers that belong to one DECOMPRESS call (10 R42 to R47), but `RPTR`, `VI` and
`C_DST_BASE`. -/
structure CallRegs where
  range : Word
  code : Word
  /-- `C0[j]` and `C1[j]` (10 R43). -/
  c0 : Vector (BitVec 16) Config.nctx
  c1 : Vector (BitVec 16) Config.nctx
  vx : Word
  vy : Word
  vz : Word
  vf : Word
  pred : DWord
  sgn : BitVec 1
  bnd : DWord
  mag : DWord
  plane : BitVec 6
  u : DWord
  nb : NbStore
deriving DecidableEq, Repr

/-- System memory (20 R70): (address, byte) pairs, addresses strictly rising, no listed byte equal to
what an unlisted address reads as. -/
abbrev Memory := List Host.Cell

/-- What a host access to the register window does. -/
inductive BusOp where
  | read
  | write (v : Word)
deriving DecidableEq, Repr

/-- What happens next to the machine from outside (00_scope R7, 20 R82, 70 R310, R330). -/
inductive Event where
  /-- The block takes its next step. -/
  | core
  /-- A host access of `bytes` bytes at an address of the register window (10 R37). -/
  | access (addr : DWord) (bytes : Nat) (op : BusOp)
  /-- The host reads one byte of system memory (20 R82). -/
  | load (addr : DWord)
  /-- The host writes one byte of system memory (20 R82). -/
  | store (addr : DWord) (b : Byte)
  /-- The host reads a register until `(value & mask) = v` (30 R135). -/
  | poll (addr : DWord) (mask v : Word)
  /-- The instance's reset input is applied (70 R310). -/
  | applyReset
  /-- The instance's reset input is released (70 R310). -/
  | releaseReset
deriving DecidableEq, Repr

/-- A byte at an address of system memory. -/
abbrev AddrByte := DWord × Byte

/-- A running call as other agents meet it (20 R77, R85 to R87). -/
structure RunningCall where
  /-- The stream range of 20 R87. -/
  src : Region
  /-- The destination range of 20 R87. -/
  dest : Region
  /-- Addresses the host wrote in these ranges during the call. -/
  raced : List DWord
  /-- Destination ranges of the calls that ran at once with this one. -/
  clash : List Region
  /-- The bytes the call has overwritten, as they were before it. -/
  stale : List AddrByte
  /-- The bytes the call's next step writes. -/
  pending : List AddrByte
deriving DecidableEq, Repr

/-- Another instance as this one meets it: its register window (20 R78) and its running call. -/
structure Peer where
  window : Region
  call : Option RunningCall
deriving DecidableEq, Repr

/-- Everything the spec gives one instance, the system memory, the platform's parameters and the
model's own fields. -/
structure State where
  regs : HostRegs
  handle : Handle
  /-- STATUS.STATE (10 R24); STATUS.BUSY is computed from it (10 R23). -/
  callState : CallState
  /-- STATUS.HV (10 R23). -/
  hv : Bool
  /-- STATUS.IGN (10 R23). -/
  ign : Bool
  /-- STATUS.ERR (60 R281). -/
  err : BitVec 4
  /-- STATUS.SUB (60 R281). -/
  sub : BitVec 4
  /-- PHASE, mirrored by STATUS.PHASE (10 R40). -/
  phase : BitVec 4
  /-- `VI`, read as VOX_DONE (10 R33, R44). -/
  vi : DWord
  /-- `RPTR`, read as BYTES_USED (10 R34, R42). -/
  rptr : DWord
  /-- `C_DST_BASE` (10 R41). -/
  cDstBase : DWord
  call : CallRegs
  mem : Memory
  /-- The block waits for an access the memory system does not admit (20 R79). -/
  stuck : Bool
  /-- The reset input is applied (70 R310). -/
  resetApplied : Bool
  /-- Model's own: addresses the host wrote inside the running call's buffers (20 R85, R86). -/
  raced : List DWord
  /-- Model's own: destination ranges of the calls that ran at once with the running one (20 R87). -/
  clash : List Region
  /-- Model's own: the bytes the running call has overwritten, as they were before it (20 R77, R86). -/
  stale : List AddrByte
  /-- Model's own: the other instances as they are now (20 R78, R87). -/
  peers : List Peer
  /-- Model's own: the number of the next free value. -/
  free : Nat
  /-- Model's own: what happens next, in order; empty, the block steps (20 R82, 70 R330). -/
  events : List Event
  /-- Model's own: the value the last host read returned. -/
  rdata : Word
  /-- The OPEN parameters and what the platform decides (00_scope R8). -/
  plat : Platform
deriving DecidableEq, Repr

/-- Why the machine stops. -/
inductive Fault where
  /-- Raised by the steps of PHASE 10 to 15, which the spec says are never entered (10 R40, 93 I10).
  Safe: the spec gives them no effect. -/
  | unusedPhase
  /-- Raised by REF at plane 63: `CTX_REF(k)` exists for `k` up to 62 only (30 R118). Safe: no run
  gets there (42 R215). -/
  | noContext
deriving DecidableEq, Repr

/-- Why an input is outside the spec. -/
inductive Refusal where
  /-- An instruction that has no meaning yet. Safe. -/
  | notModelled (mnemonic : String)
  /-- A register access that is not an aligned 32-bit one; "a model refuses it" (10 R37). Safe. -/
  | registerAccess
  /-- A register access at an address outside this instance's window (10 R20). Safe. -/
  | outsideWindow
  /-- The stream or the destination lies on device registers; "a model refuses it" (20 R78). Safe. -/
  | bufferOnDevice
  /-- A host access to memory that is not admitted or not plain memory (20 R78, R79). Safe. -/
  | hostMemory
deriving DecidableEq, Repr

/-- The handle after reset or a failed OPEN: every register 0 (10 R27, R48). -/
def Handle.cleared : Handle where
  typ := 0
  prec := 0
  nx := 0
  ny := 0
  nz := 0
  nf := 0
  nvox := 0
  nbytes := 0
  srcBase := 0

/-- The host-writable registers after reset (10 R48). -/
def HostRegs.cleared : HostRegs where
  srcBase := 0
  srcLen := 0
  dstBase := 0
  dstCount := 0
  dstType := 0

/-- The decode registers after reset. The spec leaves them unspecified (10 R48). DESIGN CHOICE,
unsafe (notes/assumptions/5.md): RANGE and the counters at the values RC_INIT and DECOMPRESS start
them with, the others zero, no `NB` entry written. -/
def CallRegs.atReset : CallRegs where
  range := 0xFFFFFFFF
  code := 0
  c0 := Vector.replicate Config.nctx 1
  c1 := Vector.replicate Config.nctx 1
  vx := 0
  vy := 0
  vz := 0
  vf := 0
  pred := 0
  sgn := 0
  bnd := 0
  mag := 0
  plane := 0
  u := 0
  nb := []

/-- The machine right after reset (10 R48, 70 R310). -/
def State.reset : State where
  regs := HostRegs.cleared
  handle := Handle.cleared
  callState := .unopened
  hv := false
  ign := false
  err := 0
  sub := 0
  phase := 0
  vi := 0
  rptr := 0
  cDstBase := 0
  call := CallRegs.atReset
  mem := []
  stuck := false
  resetApplied := false
  raced := []
  clash := []
  stale := []
  peers := []
  free := 0
  events := []
  rdata := 0
  plat := Config.platform

end Sys2Proof.Machine
end

