-- ==== Sys2Proof/Machine/Flags.lean ====
section
/-! DEFINITION. The STATUS word (10_state R23, R24) and the error codes (60_exceptions R281). The
block has no condition codes (10 R39); these are the flags a step writes. -/

namespace Sys2Proof.Machine

/-- The causes of 60 R281, each an error class and a sub-cause. -/
inductive Cause where
  | headerShort
  | headerMagic
  | headerVersion
  | headerType
  | headerZeroDim
  | headerNvoxOverflow
  | precisionZero
  | precisionWide
  | bufferSizeMismatch
  | typeMismatch
  | starved
  | codeRange
  | signEmpty
  | magZero
  | magOver
  | trailing
  | capacityExceeded
  | reservedOpcode
  | noHandle
deriving DecidableEq, Repr

/-- STATUS.ERR of a cause (60 R281). -/
def Cause.err : Cause → BitVec 4
  | .headerShort => 1
  | .headerMagic => 1
  | .headerVersion => 1
  | .headerType => 1
  | .headerZeroDim => 1
  | .headerNvoxOverflow => 1
  | .precisionZero => 2
  | .precisionWide => 2
  | .bufferSizeMismatch => 3
  | .typeMismatch => 4
  | .starved => 5
  | .codeRange => 5
  | .signEmpty => 5
  | .magZero => 5
  | .magOver => 5
  | .trailing => 5
  | .capacityExceeded => 6
  | .reservedOpcode => 7
  | .noHandle => 7

/-- STATUS.SUB of a cause (60 R281). -/
def Cause.sub : Cause → BitVec 4
  | .headerShort => 1
  | .headerMagic => 2
  | .headerVersion => 3
  | .headerType => 4
  | .headerZeroDim => 5
  | .headerNvoxOverflow => 6
  | .precisionZero => 1
  | .precisionWide => 2
  | .bufferSizeMismatch => 0
  | .typeMismatch => 0
  | .starved => 1
  | .codeRange => 2
  | .signEmpty => 3
  | .magZero => 4
  | .magOver => 5
  | .trailing => 6
  | .capacityExceeded => 0
  | .reservedOpcode => 1
  | .noHandle => 2

/-- The codes of STATE (10 R24). -/
def CallState.code : CallState → BitVec 3
  | .unopened => 0
  | .headerParsed => 1
  | .decoding => 2
  | .complete => 3
  | .failed => 4

/-- STATUS.BUSY: 1 exactly when STATE = DECODING (10 R23). -/
def State.busy (s : State) : Bool := s.callState == .decoding

/-- The STATUS register as the host reads it (10 R23). -/
def State.statusWord (s : State) : Word :=
  (0 : BitVec 12) ++ s.phase ++ s.sub ++ s.err ++ (0 : BitVec 2) ++ BitVec.ofBool s.ign ++
    BitVec.ofBool s.hv ++ BitVec.ofBool s.busy ++ s.callState.code

end Sys2Proof.Machine
end

