-- ==== Sys2Proof/Machine/Operands.lean ====
section
/-! DEFINITION. The operands of the steps: element width and precision (10_state R28, R29), contexts
(30_encoding R118), the residual bound (42_residual R213), the neighbours and the window of the
predictor (43_predictor R242 to R244), header fields (30 R101), halves of 64-bit registers (10 R38). -/

namespace Sys2Proof.Machine

/-- `W`: 32 for type 0, 64 for type 1 (10 R28). -/
def elemWidth (typ : BitVec 1) : Nat := if typ = 0 then 32 else 64

/-- `E = W / 8` (10 R28). -/
def elemBytes (typ : BitVec 1) : Nat := elemWidth typ / 8

/-- `W` of the handle. -/
def State.width (s : State) : Nat := elemWidth s.handle.typ

/-- `E` of the handle. -/
def State.elem (s : State) : Nat := elemBytes s.handle.typ

/-- `P = H_PREC`. -/
def State.precision (s : State) : Nat := s.handle.prec.toNat

/-- `2^P - 1`, the largest encoded-domain value. -/
def maxEnc (p : Nat) : Nat := 2 ^ p - 1

/-- CTX_ZERO (30 R118). -/
def ctxZero : Fin Config.nctx := ⟨0, by decide⟩

/-- CTX_SIGN (30 R118). -/
def ctxSign : Fin Config.nctx := ⟨1, by decide⟩

/-- CTX_SIG(k) (30 R118). -/
def ctxSig (k : BitVec 6) : Fin Config.nctx :=
  ⟨2 + k.toNat, by have := k.isLt; simp only [Config.nctx]; omega⟩

/-- CTX_REF(k) (30 R118); it exists for `k` up to 62. -/
def ctxRef (k : BitVec 6) : Option (Fin Config.nctx) :=
  if h : k.toNat ≤ 62 then
    some ⟨66 + k.toNat, by simp only [Config.nctx]; omega⟩
  else none

/-- `bound(s)` (42 R213): the largest magnitude the residual can have with sign `sgn`. -/
def residualBound (p : Nat) (pred : DWord) (sgn : Bool) : Nat :=
  if sgn then pred.toNat else maxEnc p - pred.toNat

/-- A neighbour `d = (dx, dy, dz, df)` (43 R242). -/
structure Neighbour where
  dx : Nat
  dy : Nat
  dz : Nat
  df : Nat
deriving DecidableEq, Repr

/-- The table of 43 R242, rows 1 to 15. -/
def neighbours : List Neighbour :=
  [⟨1, 0, 0, 0⟩, ⟨0, 1, 0, 0⟩, ⟨1, 1, 0, 0⟩, ⟨0, 0, 1, 0⟩, ⟨1, 0, 1, 0⟩,
   ⟨0, 1, 1, 0⟩, ⟨1, 1, 1, 0⟩, ⟨0, 0, 0, 1⟩, ⟨1, 0, 0, 1⟩, ⟨0, 1, 0, 1⟩,
   ⟨1, 1, 0, 1⟩, ⟨0, 0, 1, 1⟩, ⟨1, 0, 1, 1⟩, ⟨0, 1, 1, 1⟩, ⟨1, 1, 1, 1⟩]

/-- `c(d)`: +1 when the sum of the coordinates is odd, -1 when it is even (43 R242). -/
def Neighbour.coeff (d : Neighbour) : Int :=
  if (d.dx + d.dy + d.dz + d.df) % 2 = 1 then 1 else -1

/-- `off(d) = dx + dy*nx + dz*nx*ny + df*nx*ny*nz` (43 R242). -/
def Neighbour.offset (d : Neighbour) (nx ny nz : Nat) : Nat :=
  d.dx + d.dy * nx + d.dz * (nx * ny) + d.df * (nx * ny * nz)

/-- Neighbour `d` of the voxel being decoded is in bounds (43 R243). -/
def Neighbour.inBounds (d : Neighbour) (vx vy vz vf : Nat) : Bool :=
  decide (d.dx ≤ vx ∧ d.dy ≤ vy ∧ d.dz ≤ vz ∧ d.df ≤ vf)

/-- `Window(nx, ny, nz, nf)` (43 R244). -/
def window (nx ny nz nf : Nat) : Nat :=
  (if nx > 1 then 1 else 0) + (if ny > 1 then nx else 0) + (if nz > 1 then nx * ny else 0) +
    (if nf > 1 then nx * ny * nz else 0)

/-- The linear index of a position (43 R241). -/
def linearIndex (nx ny nz x y z f : Nat) : Nat := x + nx * (y + ny * (z + nz * f))

/-- The window of the handle. -/
def State.handleWindow (s : State) : Nat :=
  window s.handle.nx.toNat s.handle.ny.toNat s.handle.nz.toNat s.handle.nf.toNat

/-- `Window > NB_DEPTH` (40 R154); an unbounded store is never exceeded. -/
def exceedsCapacity (w : Nat) : Option Nat → Bool
  | none => false
  | some d => decide (d < w)

/-- `CAP_NB = min(NB_DEPTH, 2^64 - 1)` (10 R35). -/
def capNb : Option Nat → DWord
  | none => BitVec.ofNat 64 (2 ^ 64 - 1)
  | some d => BitVec.ofNat 64 (min d (2 ^ 64 - 1))

/-- Bits 31:0 of a 64-bit register (10 R38). -/
def lowHalf (v : DWord) : Word := v.extractLsb' 0 32

/-- Bits 63:32 of a 64-bit register (10 R38). -/
def highHalf (v : DWord) : Word := v.extractLsb' 32 32

/-- A 64-bit register with its low half written (10 R38). -/
def setLow (v : DWord) (w : Word) : DWord := highHalf v ++ w

/-- A 64-bit register with its high half written (10 R38). -/
def setHigh (v : DWord) (w : Word) : DWord := w ++ lowHalf v

/-- Byte `k` of a header. -/
def headerByte (h : List Byte) (k : Nat) : Byte := h.getD k 0

/-- The little-endian u32 at offset `k` of a header (20 R73, 30 R101). -/
def headerWord (h : List Byte) (k : Nat) : Word :=
  headerByte h (k + 3) ++ headerByte h (k + 2) ++ headerByte h (k + 1) ++ headerByte h k

/-- The `n` low bytes of a number, least significant first (00 R13 `MemWrite`). -/
def leBytes : Nat → Nat → List Byte
  | 0, _ => []
  | n + 1, v => BitVec.ofNat 8 v :: leBytes n (v / 256)

end Sys2Proof.Machine
end

