-- ==== Sys2Proof/Machine/Ops.lean ====
section
/-! DEFINITION. The named operations over memory and registers: byte reads and writes, the neighbour
store, the master port (20_memory), accepting a command and taking an error (40_commands R150,
60_exceptions R285), and committing a step (00_scope R12, R15). -/

namespace Sys2Proof.Machine

/-! ## Memory -/

/-- What an address that memory does not list reads as. DESIGN CHOICE, unsafe
(notes/assumptions/4.md): the spec gives power-on memory no contents. -/
def Memory.unlisted : Byte := 0

/-- One byte of memory. -/
def Memory.read : Memory → Nat → Byte
  | [], _ => Memory.unlisted
  | (k, v) :: m, a => if k = a then v else Memory.read m a

/-- Writing one byte; the canonical form is kept. -/
def Memory.write : Memory → Nat → Byte → Memory
  | [], a, b => if b = Memory.unlisted then [] else [(a, b)]
  | (k, v) :: m, a, b =>
    if a < k then (if b = Memory.unlisted then (k, v) :: m else (a, b) :: (k, v) :: m)
    else if a = k then (if b = Memory.unlisted then m else (k, b) :: m)
    else (k, v) :: Memory.write m a b

/-- Addresses rise strictly from `lo`, lie below `2^64`, and no byte is the unlisted one. -/
def Memory.wfFrom : Nat → Memory → Bool
  | _, [] => true
  | lo, (k, v) :: m =>
    decide (lo ≤ k) && decide (k < 2 ^ 64) && decide (v ≠ Memory.unlisted) && Memory.wfFrom (k + 1) m

/-- The canonical form of memory. -/
def Memory.wf (m : Memory) : Bool := Memory.wfFrom 0 m

/-! ## The neighbour store -/

/-- `NB[j]`, where it has been written. -/
def NbStore.find : NbStore → Nat → Option DWord
  | [], _ => none
  | (k, v) :: m, j => if k = j then some v else NbStore.find m j

/-- `NB[j] <- v`. -/
def NbStore.put : NbStore → Nat → DWord → NbStore
  | [], j, v => [(j, v)]
  | (k, w) :: m, j, v =>
    if k < j then (j, v) :: (k, w) :: m
    else if k = j then (j, v) :: m
    else (k, w) :: NbStore.put m j v

/-- `NB[VI - off]` (43 R243). An entry no EMIT wrote holds a free value, one for each entry
(notes/assumptions/7.md); on a run every neighbour in bounds lies before the voxel and has been
written (43 R245). -/
def State.nbAt (s : State) (off : Nat) : DWord :=
  if off ≤ s.vi.toNat then
    match s.call.nb.find (s.vi.toNat - off) with
    | some v => v
    | none => Config.freeWord s.free (1000 + 2 * (s.vi.toNat - off))
  else Config.freeWord s.free (1001 + 2 * off)

/-! ## Results of an operation -/

/-- What an operation of a step can end in: a value and the state it reached, an error and the state
it was raised in, an access the memory system does not admit (20 R79), or an input outside the spec. -/
inductive Res (α : Type) where
  | ok (a : α) (s : State)
  | raised (e : Cause) (s : State)
  | stuck
  | refused (r : Refusal)

/-- One operation after another. -/
def Res.bind {α β : Type} (r : Res α) (f : α → State → Res β) : Res β :=
  match r with
  | .ok a s => f a s
  | .raised e s => .raised e s
  | .stuck => .stuck
  | .refused x => .refused x

/-! ## The master port -/

/-- Address `a` is one of the `len` addresses from `base`, modulo `2^64` (20 R71). -/
def inRange (base : DWord) (len : Nat) (a : DWord) : Bool := decide ((a - base).toNat < len)

/-- The address is one of the region's. -/
def regionHas (r : Region) (a : DWord) : Bool := inRange r.base r.size a

/-- The address is in this instance's register window (10 R20). -/
def State.inWindow (s : State) (a : DWord) : Bool := inRange s.plat.mmioBase Config.windowSize a

/-- The address is in the stream range of 20 R87. -/
def State.inStream (s : State) (a : DWord) : Bool :=
  inRange s.handle.srcBase s.handle.nbytes.toNat a

/-- The address is in the destination range of 20 R87. -/
def State.inDest (s : State) (a : DWord) : Bool :=
  inRange s.cDstBase (s.handle.nvox.toNat * s.elem) a

/-- The other instances' running calls. -/
def State.foreignCalls (s : State) : List RunningCall := s.peers.filterMap (·.call)

/-- The address is in the destination of another instance's running call (20 R87). -/
def State.inForeign (s : State) (a : DWord) : Bool :=
  s.foreignCalls.any fun c => regionHas c.dest a

/-- The address is in another instance's register window. -/
def State.inPeerWindow (s : State) (a : DWord) : Bool := s.peers.any fun p => regionHas p.window a

/-- The call's byte at this address is any value: the host wrote it during the call (20 R85, R86), or
the call's destination overlaps there with its stream or with the destination of a call that ran at
once (20 R87). -/
def RunningCall.raceOn (c : RunningCall) (a : DWord) : Bool :=
  c.raced.contains a ||
    (regionHas c.dest a && (regionHas c.src a || c.clash.any (regionHas · a)))

/-- `RunningCall.raceOn` of this instance's own call. -/
def State.raceOn (s : State) (a : DWord) : Bool :=
  s.raced.contains a || (s.inDest a && (s.inStream a || s.clash.any (regionHas · a)))

/-- What the block writes to this address is any value: another agent raced on it during the call, or
another instance's running call writes there (20 R86, R87). What it reads there need not be the last
byte written (20 R77, R85, R87; notes/assumptions/9.md). -/
def State.contested (s : State) (a : DWord) : Bool := (s.busy && s.raceOn a) || s.inForeign a

/-- What the system has at an address. -/
inductive Admission where
  | memory
  | device
  | absent
deriving DecidableEq, Repr

/-- Device registers, the windows of this and of every other instance among them (20 R78), an address
that is not admitted (20 R79), or memory. -/
def State.admission (s : State) (a : DWord) : Admission :=
  if s.inWindow a || s.inPeerWindow a || s.plat.devices.any (regionHas · a) then .device
  else if s.plat.holes.any (regionHas · a) then .absent
  else .memory

/-- The first of `n` addresses from `a` that is not memory decides. -/
def State.admissionRun (s : State) (a : DWord) : Nat → Admission
  | 0 => .memory
  | n + 1 =>
    match s.admission a with
    | .memory => State.admissionRun s (a + 1) n
    | .device => .device
    | .absent => .absent

/-- The next free byte. -/
def State.freeByte (s : State) : Byte := Config.freeByte s.free

/-- The bytes a list gives for an address. -/
def bytesAt (l : List AddrByte) (a : DWord) : List Byte :=
  l.filterMap fun e => if e.1 = a then some e.2 else none

/-- What another agent's read of a destination byte may return during the call (20 R77, R86): the byte
memory holds, the one the call has overwritten, or the one it is about to write. -/
def RunningCall.byteChoices (c : RunningCall) (m : Memory) (a : DWord) : List Byte :=
  m.read a.toNat :: (bytesAt c.stale a ++ bytesAt c.pending a)

/-- One element of a list, the free choice `n`. -/
def pickByte (l : List Byte) (n : Nat) : Byte := l.getD (Config.freePick n % l.length) 0

/-- What a read at `a` returns while other agents' calls run, or `none` for memory's byte: in the
destination of one of them one of its choices, or any value where the byte is raced on; in those of
several any value (20 R77, R82, R86, R87; notes/assumptions/9.md). -/
def sharedRead (calls : List RunningCall) (m : Memory) (a : DWord) (n : Nat) : Option Byte :=
  match calls.filter fun c => regionHas c.dest a with
  | [] => none
  | [c] =>
    if c.raceOn a then some (Config.freeByte n) else some (pickByte (c.byteChoices m a) n)
  | _ => some (Config.freeByte n)

/-- What the block reads at `a`, or `none` for memory's byte (20 R77, R85, R87). -/
def State.portByte (s : State) (a : DWord) : Option Byte :=
  if s.busy && s.raceOn a then some s.freeByte
  else sharedRead s.foreignCalls s.mem a s.free

/-- `MemRead(a, 1)` on the master port (00 R13, 20 R72). -/
def State.portRead (s : State) (a : DWord) : Res Byte :=
  match s.admission a with
  | .memory =>
    match s.portByte a with
    | some b => .ok b { s with free := s.free + 1 }
    | none => .ok (s.mem.read a.toNat) s
  | .device => .refused .bufferOnDevice
  | .absent => .stuck

/-- `MemRead(a + k, 1)` for `k = 0, 1, ..., n - 1` in order. -/
def State.portReadBytes (s : State) (a : DWord) : Nat → Res (List Byte)
  | 0 => .ok [] s
  | n + 1 =>
    (s.portRead a).bind fun b t =>
      (State.portReadBytes t (a + 1) n).bind fun bs u => .ok (b :: bs) u

/-- The record of overwritten bytes with one more: the first byte recorded at an address stays. -/
def noteStale (l : List AddrByte) (a : DWord) (b : Byte) : List AddrByte :=
  if l.any (·.1 == a) then l else (a, b) :: l

/-- One byte written by the block, the one it replaces recorded; a contested byte gets a free value. -/
def State.storeByte (s : State) (a : DWord) (b : Byte) : State :=
  let t := { s with stale := noteStale s.stale a (s.mem.read a.toNat) }
  if s.contested a then
    { t with mem := s.mem.write a.toNat s.freeByte, free := s.free + 1 }
  else { t with mem := s.mem.write a.toNat b }

/-- The bytes written at `a`, `a + 1`, ... in that order. -/
def State.storeBytes (s : State) (a : DWord) : List Byte → State
  | [] => s
  | b :: bs => State.storeBytes (s.storeByte a b) (a + 1) bs

/-- `MemWrite(a, n, v)` on the master port (00 R13, 20 R74): all of it or, where one of its bytes is
not admitted, none of it (notes/assumptions/8.md). -/
def State.portWrite (s : State) (a : DWord) (bs : List Byte) : Res Unit :=
  match s.admissionRun a bs.length with
  | .memory => .ok () (s.storeBytes a bs)
  | .device => .refused .bufferOnDevice
  | .absent => .stuck

/-- `FetchByte()` (41 R183). -/
def State.fetchByte (s : State) : Res Byte :=
  if s.handle.nbytes.toNat ≤ s.rptr.toNat then .raised .starved s
  else
    (s.portRead (s.handle.srcBase + s.rptr)).bind fun b t =>
      .ok b { t with rptr := t.rptr + 1 }

/-! ## The end of a call, errors, and the next command -/

/-- Decode registers that hold unspecified values, the `n`-th draw of them (93 I11). DESIGN CHOICE,
safe (notes/assumptions/6.md). -/
def CallRegs.unspecified (n : Nat) : CallRegs where
  range := (Config.freeWord n 0).setWidth 32
  code := (Config.freeWord n 1).setWidth 32
  c0 := Vector.ofFn fun j => (Config.freeWord n (100 + j.val)).setWidth 16
  c1 := Vector.ofFn fun j => (Config.freeWord n (300 + j.val)).setWidth 16
  vx := (Config.freeWord n 2).setWidth 32
  vy := (Config.freeWord n 3).setWidth 32
  vz := (Config.freeWord n 4).setWidth 32
  vf := (Config.freeWord n 5).setWidth 32
  pred := Config.freeWord n 6
  sgn := (Config.freeWord n 7).setWidth 1
  bnd := Config.freeWord n 8
  mag := Config.freeWord n 9
  plane := (Config.freeWord n 10).setWidth 6
  u := Config.freeWord n 11
  nb := []

/-- The call is over: PHASE is IDLE and the decode registers are unspecified (93 I11). -/
def State.endCall (s : State) (c : CallState) : State :=
  { s with callState := c, phase := 0, call := CallRegs.unspecified s.free, free := s.free + 1 }

/-- Taking an error: the effects of `raise Err(SUB)` (60 R285). The handle, HV, VOX_DONE, BYTES_USED
and the host's registers are as they are. -/
def State.raise (s : State) (e : Cause) : State :=
  { s.endCall .failed with err := e.err, sub := e.sub }

/-- Leaving the error state: what accepting a command clears (40 R150, 60 R289). -/
def State.accept (s : State) : State := { s with ign := false, err := 0, sub := 0 }

/-- A command while STATE = DECODING is ignored and sets IGN (40 R150). -/
def State.ignore (s : State) : State := { s with ign := true }

/-- The block waits for an access that is not admitted; no register changes (20 R79). -/
def State.block (s : State) : State := { s with stuck := true }

/-- A command other than NOP: ignored while DECODING, accepted otherwise (40 R150). -/
def State.command (s : State) (body : State → Host.Outcome State Fault Refusal) :
    Host.Outcome State Fault Refusal :=
  if s.busy then .next s.ignore else body s.accept

/-- A phase step from `s` (00 R12, R15): its writes take effect together; on an error none of them
does, but the bytes it fetched stay fetched. -/
def State.commit (s : State) : Res Unit → Host.Outcome State Fault Refusal
  | .ok _ t => .next t
  | .raised e t => .next (State.raise { s with rptr := t.rptr, free := t.free } e)
  | .stuck => .next s.block
  | .refused r => .refused r

end Sys2Proof.Machine
end

