-- ==== Sys2Proof/Machine/Commands.lean ====
section
/-! DEFINITION. The CTRL commands (40_commands R150 to R157). -/

namespace Sys2Proof.Machine

/-- NOP (40 R151): no effect, in every state. -/
def execNop (s : State) : Host.Outcome State Fault Refusal := .next s

/-- The checks of OPEN on the header bytes, in the order of 40 R152. -/
def headerError (h : List Byte) : Option Cause :=
  if h.take 4 ≠ Config.magic then some .headerMagic
  else if headerByte h 4 ≠ Config.version then some .headerVersion
  else if 1 < (headerByte h 5).toNat then some .headerType
  else if headerWord h 7 = 0 ∨ headerWord h 11 = 0 ∨ headerWord h 15 = 0 ∨ headerWord h 19 = 0 then
    some .headerZeroDim
  else if 2 ^ 64 ≤ (headerWord h 7).toNat * (headerWord h 11).toNat * (headerWord h 15).toNat *
      (headerWord h 19).toNat then some .headerNvoxOverflow
  else if headerByte h 6 = 0 then some .precisionZero
  else if elemWidth ((headerByte h 5).setWidth 1) < (headerByte h 6).toNat then some .precisionWide
  else none

/-- The handle of a legal header (40 R152). -/
def headerHandle (h : List Byte) (base len : DWord) : Handle where
  typ := (headerByte h 5).setWidth 1
  prec := headerByte h 6
  nx := headerWord h 7
  ny := headerWord h 11
  nz := headerWord h 15
  nf := headerWord h 19
  nvox := BitVec.ofNat 64 ((headerWord h 7).toNat * (headerWord h 11).toNat *
    (headerWord h 15).toNat * (headerWord h 19).toNat)
  nbytes := len
  srcBase := base

/-- OPEN after acceptance (40 R152). -/
def State.openAccepted (s : State) : Res Unit :=
  let s := { s with vi := 0 }
  if s.regs.srcLen.toNat < Config.hdrLen then .raised .headerShort { s with rptr := 0 }
  else
    (s.portReadBytes s.regs.srcBase Config.hdrLen).bind fun h t =>
      let t := { t with rptr := BitVec.ofNat 64 Config.hdrLen }
      match headerError h with
      | some e => .raised e t
      | none =>
        .ok () { t with
          handle := headerHandle h s.regs.srcBase s.regs.srcLen
          hv := true
          callState := .headerParsed }

/-- A failed OPEN leaves no handle (40 R153). -/
def State.dropHandle (s : State) : State := { s with handle := Handle.cleared, hv := false }

/-- OPEN (40 R152, R153). An OPEN whose read is not admitted never completes: every register keeps
the value it had before the command (20 R79, 90 C9). -/
def execOpen (s : State) : Host.Outcome State Fault Refusal :=
  s.command fun a =>
    match a.openAccepted with
    | .ok _ t => .next t
    | .raised e t => .next (t.raise e).dropHandle
    | .stuck => .next s.block
    | .refused r => .refused r

/-- The registers a call starts from (40 R154); the others keep unspecified values until a step
writes them (10 R47). -/
def CallRegs.start (r : CallRegs) : CallRegs :=
  { r with
    c0 := Vector.replicate Config.nctx (BitVec.ofNat 16 Config.cntInit)
    c1 := Vector.replicate Config.nctx (BitVec.ofNat 16 Config.cntInit)
    vx := 0
    vy := 0
    vz := 0
    vf := 0
    nb := [] }

/-- DECOMPRESS after acceptance (40 R154): it makes no memory access (40 R155). -/
def State.decompressAccepted (s : State) : State :=
  if s.hv = false then s.raise .noHandle
  else
    let s := { s with vi := 0, rptr := BitVec.ofNat 64 Config.hdrLen }
    if s.regs.dstCount ≠ s.handle.nvox then s.raise .bufferSizeMismatch
    else if s.regs.dstType ≠ s.handle.typ then s.raise .typeMismatch
    else if exceedsCapacity s.handleWindow s.plat.nbDepth then s.raise .capacityExceeded
    else
      { s with
        cDstBase := s.regs.dstBase
        call := s.call.start
        raced := []
        clash := []
        stale := []
        callState := .decoding
        phase := 1 }

/-- DECOMPRESS (40 R154). -/
def execDecompress (s : State) : Host.Outcome State Fault Refusal :=
  s.command fun a => .next a.decompressAccepted

/-- A reserved command after acceptance (40 R157). -/
def State.reservedAccepted (s : State) : Host.Outcome State Fault Refusal :=
  .next (s.raise .reservedOpcode)

/-- DEKOMPRESS, CMD 0x3, reserved (40 R157). -/
def execDekompress (s : State) : Host.Outcome State Fault Refusal :=
  s.command State.reservedAccepted

/-- CMD 0x4 to 0x7, reserved (40 R157). -/
def execReservedLow (_cmd : BitVec 4) (s : State) : Host.Outcome State Fault Refusal :=
  s.command State.reservedAccepted

/-- CMD 0x8 to 0xF, reserved (40 R157). -/
def execReservedHigh (_cmd : BitVec 4) (s : State) : Host.Outcome State Fault Refusal :=
  s.command State.reservedAccepted

end Sys2Proof.Machine
end

