-- ==== Sys2Proof/Machine/Predictor.lean ====
section
/-! DEFINITION. The causal predictor, the value map and the output (43_predictor): the PREDICT and
EMIT steps. -/

namespace Sys2Proof.Machine

/-- `c(d) * N(d)` (43 R242, R243): an out-of-bounds neighbour gives 0 and causes no read of `NB`. -/
def State.term (s : State) (d : Neighbour) : Int :=
  if d.inBounds s.call.vx.toNat s.call.vy.toNat s.call.vz.toNat s.call.vf.toNat then
    d.coeff * (s.nbAt (d.offset s.handle.nx.toNat s.handle.ny.toNat s.handle.nz.toNat)).toNat
  else 0

/-- `acc`, the Lorenzo sum, exact (43 R246). -/
def State.lorenzoSum (s : State) : Int := (neighbours.map s.term).sum

/-- `clamp(acc, 0, 2^P - 1)` (43 R247). -/
def clampEnc (p : Nat) (acc : Int) : Nat := (min (max acc 0) (maxEnc p : Int)).toNat

/-- PREDICT, PHASE 2 (43 R248). -/
def execPredict (s : State) : Host.Outcome State Fault Refusal :=
  .next { s with
    call := { s.call with pred := BitVec.ofNat 64 (clampEnc s.precision s.lorenzoSum) }
    phase := 3 }

/-- The forward value map (43 R251), used by the reference encoder. -/
def fwdMap (w p raw : Nat) : Nat :=
  let t := raw / 2 ^ (w - p)
  if t.testBit (p - 1) then maxEnc p - t else t ||| 2 ^ (p - 1)

/-- The inverse map and low-bit fill (43 R252). -/
def invMap (w p u : Nat) : Nat :=
  let t := if u.testBit (p - 1) then u - 2 ^ (p - 1) else maxEnc p - u
  t * 2 ^ (w - p)

/-- `Advance()` (43 R257). -/
def advance (h : Handle) (r : CallRegs) : CallRegs :=
  if r.vx.toNat + 1 < h.nx.toNat then { r with vx := r.vx + 1 }
  else if r.vy.toNat + 1 < h.ny.toNat then { r with vx := 0, vy := r.vy + 1 }
  else if r.vz.toNat + 1 < h.nz.toNat then { r with vx := 0, vy := 0, vz := r.vz + 1 }
  else { r with vx := 0, vy := 0, vz := 0, vf := r.vf + 1 }

/-- The address of the element EMIT writes: `C_DST_BASE + VI * E` (20 R71, 43 R256). -/
def State.emitAddr (s : State) : DWord := s.cDstBase + BitVec.ofNat 64 (s.vi.toNat * s.elem)

/-- The bytes EMIT writes: the raw pattern, little-endian (20 R74, 43 R256). -/
def State.emitBytes (s : State) : List Byte :=
  leBytes s.elem (invMap s.width s.precision s.call.u.toNat)

/-- EMIT's registers: `NB[VI] <- U`, `VI <- VI + 1`, `Advance()`, the next phase (43 R256). -/
def State.emitAdvance (s : State) : State :=
  { s with
    call := advance s.handle { s.call with nb := s.call.nb.put s.vi.toNat s.call.u }
    vi := s.vi + 1
    phase := if s.vi + 1 = s.handle.nvox then 9 else 2 }

/-- EMIT's pseudocode (43 R256). -/
def State.emit (s : State) : Res Unit :=
  (s.portWrite s.emitAddr s.emitBytes).bind fun _ t => .ok () t.emitAdvance

/-- EMIT, PHASE 8 (43 R256). -/
def execEmit (s : State) : Host.Outcome State Fault Refusal := s.commit s.emit

end Sys2Proof.Machine
end

