-- ==== Sys2Proof/Machine/RangeDecoder.lean ====
section
/-! DEFINITION. The adaptive range decoder (41_range_decoder): Update, DecodeBit, Renormalize and the
RC_INIT and FINAL steps. -/

namespace Sys2Proof.Machine

/-- `Update(j, b)` on the two counters of a context (41 R185). -/
def countersAfter (b : Bool) (c0 c1 : BitVec 16) : BitVec 16 × BitVec 16 :=
  let n0 := c0.toNat + (if b then 0 else Config.cntInc)
  let n1 := c1.toNat + (if b then Config.cntInc else 0)
  if Config.cntLimit < n0 + n1 then
    (BitVec.ofNat 16 ((n0 + 1) / 2), BitVec.ofNat 16 ((n1 + 1) / 2))
  else (BitVec.ofNat 16 n0, BitVec.ofNat 16 n1)

/-- `split` of a decision: `floor(RANGE / tot) * C0` (41 R184). On a run `tot >= 2` (41 R182;
notes/assumptions/17.md). -/
def splitOf (range : Nat) (c0 c1 : BitVec 16) : Nat :=
  range / (c0.toNat + c1.toNat) * c0.toNat

/-- `split` of the next decision in context `j`. -/
def CallRegs.split (r : CallRegs) (j : Fin Config.nctx) : Nat :=
  splitOf r.range.toNat r.c0[j] r.c1[j]

/-- The decision in context `j`: 0 when `CODE < split` (41 R184). -/
def CallRegs.decision (r : CallRegs) (j : Fin Config.nctx) : Bool :=
  decide (r.split j ≤ r.code.toNat)

/-- The interval after decision `b` (41 R184). -/
def CallRegs.narrow (r : CallRegs) (j : Fin Config.nctx) (b : Bool) : CallRegs :=
  if b then
    { r with
      range := BitVec.ofNat 32 (r.range.toNat - r.split j)
      code := BitVec.ofNat 32 (r.code.toNat - r.split j) }
  else { r with range := BitVec.ofNat 32 (r.split j) }

/-- `Update(j, b)` (41 R185); only context `j` changes. -/
def CallRegs.update (r : CallRegs) (j : Fin Config.nctx) (b : Bool) : CallRegs :=
  let c := countersAfter b r.c0[j] r.c1[j]
  { r with c0 := r.c0.set j.val c.1 j.isLt, c1 := r.c1.set j.val c.2 j.isLt }

/-- One renormalisation shift (41 R186). -/
def CallRegs.shiftIn (r : CallRegs) (b : Byte) : CallRegs :=
  { r with
    range := BitVec.ofNat 32 (r.range.toNat * 256)
    code := BitVec.ofNat 32 (r.code.toNat * 256 + b.toNat) }

/-- The state with its interval shifted. -/
def State.shiftIn (s : State) (b : Byte) : State := { s with call := s.call.shiftIn b }

/-- `Renormalize()` with at most `n` more bytes in the body (41 R186): when none is left the fetch
raises STARVED. -/
def renormLoop : Nat → State → Res Unit
  | 0, s =>
    if Config.rcBot ≤ s.call.range.toNat then .ok () s
    else s.fetchByte.bind fun b t => .ok () (t.shiftIn b)
  | n + 1, s =>
    if Config.rcBot ≤ s.call.range.toNat then .ok () s
    else s.fetchByte.bind fun b t => renormLoop n (t.shiftIn b)

/-- `Renormalize()` (41 R186): the loop fetches at most the bytes the body still has. -/
def State.renormalize (s : State) : Res Unit :=
  renormLoop (s.handle.nbytes.toNat - s.rptr.toNat) s

/-- `DecodeBit(j)` (41 R184). -/
def State.decodeBit (s : State) (j : Fin Config.nctx) : Res Bool :=
  let b := s.call.decision j
  (State.renormalize { s with call := (s.call.narrow j b).update j b }).bind fun _ t => .ok b t

/-- `repeat n times: CODE <- CODE * 256 + FetchByte()` (41 R189). -/
def fetchCode : Nat → Nat → State → Res Nat
  | 0, code, s => .ok code s
  | n + 1, code, s => s.fetchByte.bind fun b t => fetchCode n (code * 256 + b.toNat) t

/-- The initial RANGE (41 R189). -/
def initRange : Nat := 0xFFFFFFFF

/-- RC_INIT's pseudocode (41 R189). -/
def State.rcInit (s : State) : Res Unit :=
  (fetchCode 4 0 s).bind fun code t =>
    if initRange ≤ code then .raised .codeRange t
    else
      .ok () { t with
        call := { t.call with range := BitVec.ofNat 32 initRange, code := BitVec.ofNat 32 code }
        phase := 2 }

/-- RC_INIT, PHASE 1 (41 R189). -/
def execRcInit (s : State) : Host.Outcome State Fault Refusal := s.commit s.rcInit

/-- FINAL's pseudocode (41 R192); the call is over. -/
def State.final (s : State) : Res Unit :=
  if s.rptr ≠ s.handle.nbytes then .raised .trailing s else .ok () (s.endCall .complete)

/-- FINAL, PHASE 9 (41 R192). -/
def execFinal (s : State) : Host.Outcome State Fault Refusal := s.commit s.final

end Sys2Proof.Machine
end

