-- ==== Sys2Proof/Machine/Residual.lean ====
section
/-! DEFINITION. Bit-plane residual decoding (42_residual): the ZERO, SIGN, SIG, REF and RECON steps. -/

namespace Sys2Proof.Machine

/-- ZERO's pseudocode (42 R212). -/
def State.zero (s : State) : Res Unit :=
  (s.decodeBit ctxZero).bind fun b t =>
    if b then .ok () { t with call := { t.call with u := t.call.pred }, phase := 8 }
    else .ok () { t with phase := 4 }

/-- ZERO, PHASE 3 (42 R212). -/
def execZero (s : State) : Host.Outcome State Fault Refusal := s.commit s.zero

/-- SIGN's pseudocode (42 R214). -/
def State.sign (s : State) : Res Unit :=
  (s.decodeBit ctxSign).bind fun b t =>
    let bnd := residualBound t.precision t.call.pred b
    if bnd = 0 then .raised .signEmpty t
    else
      .ok () { t with
        call := { t.call with
          sgn := BitVec.ofBool b
          bnd := BitVec.ofNat 64 bnd
          plane := BitVec.ofNat 6 (t.precision - 1)
          mag := 0 }
        phase := 5 }

/-- SIGN, PHASE 4 (42 R214). -/
def execSign (s : State) : Host.Outcome State Fault Refusal := s.commit s.sign

/-- SIG's pseudocode (42 R216). -/
def State.sig (s : State) : Res Unit :=
  let k := s.call.plane
  (s.decodeBit (ctxSig k)).bind fun b t =>
    if b then
      if t.call.bnd.toNat < 2 ^ k.toNat then .raised .magOver t
      else if k = 0 then
        .ok () { t with call := { t.call with mag := BitVec.ofNat 64 (2 ^ k.toNat) }, phase := 7 }
      else
        .ok () { t with
          call := { t.call with mag := BitVec.ofNat 64 (2 ^ k.toNat), plane := k - 1 }
          phase := 6 }
    else if k = 0 then .raised .magZero t
    else .ok () { t with call := { t.call with plane := k - 1 }, phase := 5 }

/-- SIG, PHASE 5 (42 R216). -/
def execSig (s : State) : Host.Outcome State Fault Refusal := s.commit s.sig

/-- REF's pseudocode (42 R218), in context `j = CTX_REF(PLANE)`. -/
def State.refIn (s : State) (j : Fin Config.nctx) : Res Unit :=
  let k := s.call.plane
  (s.decodeBit j).bind fun b t =>
    let m2 := t.call.mag.toNat ||| (if b then 2 ^ k.toNat else 0)
    if t.call.bnd.toNat < m2 then .raised .magOver t
    else if k = 0 then
      .ok () { t with call := { t.call with mag := BitVec.ofNat 64 m2 }, phase := 7 }
    else
      .ok () { t with
        call := { t.call with mag := BitVec.ofNat 64 m2, plane := k - 1 }
        phase := 6 }

/-- REF, PHASE 6 (42 R218). Plane 63 has no context (30 R118; notes/assumptions/14.md). -/
def execRef (s : State) : Host.Outcome State Fault Refusal :=
  match ctxRef s.call.plane with
  | some j => s.commit (s.refIn j)
  | none => .fault .noContext

/-- `U` of RECON (42 R220): `PRED + MAG` or `PRED - MAG`. -/
def CallRegs.reconstructed (r : CallRegs) : DWord :=
  if r.sgn = 0 then r.pred + r.mag else r.pred - r.mag

/-- RECON, PHASE 7 (42 R220). -/
def execRecon (s : State) : Host.Outcome State Fault Refusal :=
  .next { s with call := { s.call with u := s.call.reconstructed }, phase := 8 }

end Sys2Proof.Machine
end

