-- ==== Sys2Proof/Machine/Sequencer.lean ====
section
/-! DEFINITION. The PHASE values that select no step of a decode: IDLE and the unused ones (10_state
R40, 30_encoding R120). -/

namespace Sys2Proof.Machine

/-- IDLE, PHASE 0 (10 R40): no step; the block waits for a command. -/
def execIdle (s : State) : Host.Outcome State Fault Refusal := .next s

/-- PHASE 10 and 11 (10 R40, 93 I10): never entered, and given no effect. -/
def execUnusedLow (_phase : BitVec 4) (_s : State) : Host.Outcome State Fault Refusal :=
  .fault .unusedPhase

/-- PHASE 12 to 15 (10 R40, 93 I10): never entered, and given no effect. -/
def execUnusedHigh (_phase : BitVec 4) (_s : State) : Host.Outcome State Fault Refusal :=
  .fault .unusedPhase

end Sys2Proof.Machine
end

