-- ==== Sys2Proof/Machine/Dispatch.lean ====
section
/-! DEFINITION. Dispatch: one arm per instruction. -/

namespace Sys2Proof.Machine

/-- The meaning of an instruction. -/
def exec (i : Instr) (s : State) : Host.Outcome State Fault Refusal :=
  match i with
  | .nop => Sys2Proof.Machine.execNop s
  | .openStream => Sys2Proof.Machine.execOpen s
  | .decompress => Sys2Proof.Machine.execDecompress s
  | .dekompress => Sys2Proof.Machine.execDekompress s
  | .reservedLow cmd => Sys2Proof.Machine.execReservedLow cmd s
  | .reservedHigh cmd => Sys2Proof.Machine.execReservedHigh cmd s
  | .idle => Sys2Proof.Machine.execIdle s
  | .rcInit => Sys2Proof.Machine.execRcInit s
  | .predict => Sys2Proof.Machine.execPredict s
  | .zero => Sys2Proof.Machine.execZero s
  | .sign => Sys2Proof.Machine.execSign s
  | .sig => Sys2Proof.Machine.execSig s
  | .ref => Sys2Proof.Machine.execRef s
  | .recon => Sys2Proof.Machine.execRecon s
  | .emit => Sys2Proof.Machine.execEmit s
  | .final => Sys2Proof.Machine.execFinal s
  | .unusedLow phase => Sys2Proof.Machine.execUnusedLow phase s
  | .unusedHigh phase => Sys2Proof.Machine.execUnusedHigh phase s

end Sys2Proof.Machine
end

