-- ==== Sys2Proof/Machine/Window.lean ====
section
/-! DEFINITION. The register window as the host reads and writes it (10_state R20 to R38), but for
the command a CTRL write issues. -/

namespace Sys2Proof.Machine

/-- A 32-bit register read at an offset of the window (10 R20): a read has no side effect; reserved
offsets and CTRL read 0 (10 R22, R36). -/
def State.readReg (s : State) (off : Nat) : Word :=
  match off with
  | 0x00 => Config.idValue
  | 0x08 => s.statusWord
  | 0x10 => lowHalf s.regs.srcBase
  | 0x14 => highHalf s.regs.srcBase
  | 0x18 => lowHalf s.regs.srcLen
  | 0x1C => highHalf s.regs.srcLen
  | 0x20 => lowHalf s.regs.dstBase
  | 0x24 => highHalf s.regs.dstBase
  | 0x28 => lowHalf s.regs.dstCount
  | 0x2C => highHalf s.regs.dstCount
  | 0x30 => s.regs.dstType.setWidth 32
  | 0x40 => s.handle.typ.setWidth 32
  | 0x44 => s.handle.prec.setWidth 32
  | 0x48 => s.handle.nx
  | 0x4C => s.handle.ny
  | 0x50 => s.handle.nz
  | 0x54 => s.handle.nf
  | 0x58 => lowHalf s.handle.nvox
  | 0x5C => highHalf s.handle.nvox
  | 0x60 => lowHalf s.handle.nbytes
  | 0x64 => highHalf s.handle.nbytes
  | 0x68 => lowHalf s.vi
  | 0x6C => highHalf s.vi
  | 0x70 => lowHalf s.rptr
  | 0x74 => highHalf s.rptr
  | 0x78 => lowHalf (capNb s.plat.nbDepth)
  | 0x7C => highHalf (capNb s.plat.nbDepth)
  | _ => 0

/-- A 32-bit register write at an offset other than CTRL's (10 R25, R26, R36): read-only registers
and reserved offsets ignore it; DST_TYPE keeps bit 0 only. -/
def HostRegs.write (r : HostRegs) (off : Nat) (v : Word) : HostRegs :=
  match off with
  | 0x10 => { r with srcBase := setLow r.srcBase v }
  | 0x14 => { r with srcBase := setHigh r.srcBase v }
  | 0x18 => { r with srcLen := setLow r.srcLen v }
  | 0x1C => { r with srcLen := setHigh r.srcLen v }
  | 0x20 => { r with dstBase := setLow r.dstBase v }
  | 0x24 => { r with dstBase := setHigh r.dstBase v }
  | 0x28 => { r with dstCount := setLow r.dstCount v }
  | 0x2C => { r with dstCount := setHigh r.dstCount v }
  | 0x30 => { r with dstType := v.setWidth 1 }
  | _ => r

/-- The offset of CTRL (10 R22). -/
def ctrlOffset : Nat := 0x04

/-- The offset in the window of an access the block defines: 32 bits wide, aligned, inside the window
(10 R20, R37). -/
def State.regOffset (s : State) (addr : DWord) (bytes : Nat) : Except Refusal Nat :=
  if s.inWindow addr = false then .error .outsideWindow
  else if bytes ≠ 4 ∨ (addr - s.plat.mmioBase).toNat % 4 ≠ 0 then .error .registerAccess
  else .ok (addr - s.plat.mmioBase).toNat

end Sys2Proof.Machine
end

