-- ==== Sys2Proof/Machine/Bus.lean ====
section
/-! DEFINITION. What a step can be: the block's own next step (10_state R40), a host access to the
register window or to a byte of system memory (20_memory R82), or a change of the reset input (70
R310). -/

namespace Sys2Proof.Machine

/-- The block's next step: the one PHASE selects (10 R40). A stuck block takes none (20 R79), nor does
one whose reset input is applied (70 R310). -/
def State.coreStep (s : State) : Host.Outcome State Fault Refusal :=
  if s.stuck || s.resetApplied then .next s else exec (decodePhase s.phase) s

/-- A write to CTRL (40 R150). A block stuck in an OPEN takes no further step, so it accepts no
command (20 R79; notes/assumptions/8.md). -/
def State.ctrlWrite (s : State) (v : Word) : Host.Outcome State Fault Refusal :=
  if s.stuck && !s.busy then .next s else exec (decodeCtrl v) s

/-- A host read of a register. -/
def State.hostRead (s : State) (off : Nat) : State := { s with rdata := s.readReg off }

/-- A host write to a register; it is lost while the reset input is applied (70 R310, R312). -/
def State.hostWrite (s : State) (off : Nat) (v : Word) : Host.Outcome State Fault Refusal :=
  if s.resetApplied then .next s
  else if off = ctrlOffset then s.ctrlWrite v
  else .next { s with regs := s.regs.write off v }

/-- A host access to the register window (10 R37). -/
def State.access (s : State) (addr : DWord) (bytes : Nat) (op : BusOp) :
    Host.Outcome State Fault Refusal :=
  match s.regOffset addr bytes with
  | .error r => .refused r
  | .ok off =>
    match op with
    | .read => .next (s.hostRead off)
    | .write v => s.hostWrite off v

/-- A byte of a running call's destination, this instance's or another's (20 R86). -/
def State.ownedByCall (s : State) (a : DWord) : Bool := (s.busy && s.inDest a) || s.inForeign a

/-- Bytes with their addresses, `a`, `a + 1`, ... -/
def addrBytes (a : DWord) : List Byte → List AddrByte
  | [] => []
  | b :: bs => (a, b) :: addrBytes (a + 1) bs

/-- The bytes the block's next step writes: those of an EMIT that will be taken (20 R77). -/
def State.pending (s : State) : List AddrByte :=
  if s.phase = 8 ∧ s.stuck = false ∧ s.admissionRun s.emitAddr s.emitBytes.length = .memory then
    addrBytes s.emitAddr s.emitBytes
  else []

/-- This instance's call as other agents meet it. -/
def State.asCall (s : State) : RunningCall where
  src := ⟨s.handle.srcBase, s.handle.nbytes.toNat⟩
  dest := ⟨s.cDstBase, s.handle.nvox.toNat * s.elem⟩
  raced := s.raced
  clash := s.clash
  stale := s.stale
  pending := s.pending

/-- The calls running now, this instance's first. -/
def State.calls (s : State) : List RunningCall :=
  (if s.busy then [s.asCall] else []) ++ s.foreignCalls

/-- What a host read at `a` returns, or `none` for memory's byte (20 R82, R86). -/
def State.sharedByte (s : State) (a : DWord) : Option Byte := sharedRead s.calls s.mem a s.free

/-- A host read of a memory byte (20 R82, R86). -/
def State.hostLoad (s : State) (a : DWord) : Host.Outcome State Fault Refusal :=
  match s.admission a with
  | .memory =>
    match s.sharedByte a with
    | some b => .next { s with rdata := b.setWidth 32, free := s.free + 1 }
    | none => .next { s with rdata := (s.mem.read a.toNat).setWidth 32 }
  | .device =>
    if s.inWindow a || s.inPeerWindow a then .refused .registerAccess else .refused .hostMemory
  | .absent => .refused .hostMemory

/-- The addresses raced on in the running call, with one more. -/
def addRaced (l : List DWord) (a : DWord) : List DWord := if l.contains a then l else a :: l

/-- The host wrote address `a`: a race where it lies in a buffer of the running call (20 R85, R86). -/
def State.markRaced (s : State) (a : DWord) : State :=
  if s.busy && (s.inStream a || s.inDest a) then { s with raced := addRaced s.raced a } else s

/-- A host write of a memory byte. During a call, a stream byte written is any value to the block's
later read of it (20 R85), and a destination byte written holds any value at the call's end (R86). -/
def State.hostStore (s : State) (a : DWord) (b : Byte) : Host.Outcome State Fault Refusal :=
  match s.admission a with
  | .memory =>
    let t := s.markRaced a
    if s.ownedByCall a then
      .next { t with mem := s.mem.write a.toNat s.freeByte, free := s.free + 1 }
    else .next { t with mem := s.mem.write a.toNat b }
  | .device =>
    if s.inWindow a || s.inPeerWindow a then .refused .registerAccess else .refused .hostMemory
  | .absent => .refused .hostMemory

/-- `poll` (30 R135): read the register; where the value is not the wanted one, let the block step
and poll again (70 R331). -/
def State.poll (s : State) (addr : DWord) (mask v : Word) : Host.Outcome State Fault Refusal :=
  match s.regOffset addr 4 with
  | .error r => .refused r
  | .ok off =>
    if s.readReg off &&& mask = v then .next (s.hostRead off)
    else .next { s.hostRead off with events := .core :: .poll addr mask v :: s.events }

/-- The reset input applied (70 R310, R311): every register at its reset value, the running call
abandoned; memory and the platform are as they were, and so are what the model knows of other agents
and its own counters (notes/assumptions/19.md). -/
def State.hardwareReset (s : State) : State :=
  { State.reset with
    resetApplied := true
    mem := s.mem
    peers := s.peers
    free := s.free
    events := s.events
    rdata := s.rdata
    plat := s.plat }

/-- The reset input released (70 R310): the registers keep their reset values. -/
def State.endReset (s : State) : State := { s with resetApplied := false }

/-- One event. -/
def State.serve (s : State) : Event → Host.Outcome State Fault Refusal
  | .core => s.coreStep
  | .access addr bytes op => s.access addr bytes op
  | .load addr => s.hostLoad addr
  | .store addr b => s.hostStore addr b
  | .poll addr mask v => s.poll addr mask v
  | .applyReset => .next s.hardwareReset
  | .releaseReset => .next s.endReset

/-- The next step of the interleaving (20 R82, 70 R330): the first listed event, or with none listed
the block's next step. -/
def State.advanceOne (s : State) : Host.Outcome State Fault Refusal :=
  match s.events with
  | [] => s.coreStep
  | e :: rest => State.serve { s with events := rest } e

/-- A CTRL word placed as the host's next access (30 R135). -/
def State.withCtrlWord (s : State) (v : Word) : State :=
  { s with
    stuck := false
    resetApplied := false
    events := .access (s.plat.mmioBase + BitVec.ofNat 64 ctrlOffset) 4 (.write v) :: s.events }

/-- A PHASE value placed as the block's next step (30 R120). -/
def State.withPhase (s : State) (p : BitVec 4) : State :=
  { s with stuck := false, resetApplied := false, phase := p, events := .core :: s.events }

end Sys2Proof.Machine
end

