-- ==== Sys2Proof/Machine/Step.lean ====
section
/-! DEFINITION. One step of the machine, and the placing of an instruction where it fetches its next
one. -/

namespace Sys2Proof.Machine

/-- One step: the next event of the interleaving (20 R82, 70 R330). -/
def step (s : State) : Host.Outcome State Fault Refusal := s.advanceOne

/-- The instruction of a table word placed as the very next step (notes/assumptions/2.md, 20.md): a
CTRL word as the host's next write to CTRL, a PHASE value in PHASE. -/
def State.withFetchWord (s : State) (nbits w : Nat) : State :=
  if nbits ≤ 8 then s.withPhase (BitVec.ofNat 4 w) else s.withCtrlWord (BitVec.ofNat 32 w)

end Sys2Proof.Machine
end

