-- ==== Sys2Proof/Machine/HostProgram.lean ====
section
/-! DEFINITION. The host-program notation of 30_encoding R135 and R136, as lists of events of an
instance whose window is at `base`. -/

namespace Sys2Proof.Machine

/-- `wr REG, V` (30 R135). -/
def progWr (base : DWord) (off : Nat) (v : Word) : Event :=
  .access (base + BitVec.ofNat 64 off) 4 (.write v)

/-- `rd REG` (30 R135). -/
def progRd (base : DWord) (off : Nat) : Event := .access (base + BitVec.ofNat 64 off) 4 .read

/-- `poll REG, MASK, V` (30 R135). -/
def progPoll (base : DWord) (off : Nat) (mask v : Word) : Event :=
  .poll (base + BitVec.ofNat 64 off) mask v

/-- `open BASE, LEN` (30 R136). -/
def progOpen (base src len : DWord) : List Event :=
  [progWr base 0x10 (lowHalf src), progWr base 0x14 (highHalf src),
   progWr base 0x18 (lowHalf len), progWr base 0x1C (highHalf len),
   progWr base ctrlOffset 1]

/-- `decomp BASE, COUNT, T` (30 R136). -/
def progDecomp (base dst count : DWord) (t : Word) : List Event :=
  [progWr base 0x20 (lowHalf dst), progWr base 0x24 (highHalf dst),
   progWr base 0x28 (lowHalf count), progWr base 0x2C (highHalf count),
   progWr base 0x30 t, progWr base ctrlOffset 2]

/-- `wait` (30 R136): until BUSY = 0. -/
def progWait (base : DWord) : List Event := [progPoll base 0x08 0x8 0x0]

/-- `mem ADDR: b0 b1 ...` (30 R135): memory at the start of a program. -/
def Memory.place (m : Memory) (a : DWord) : List Byte → Memory
  | [] => m
  | b :: bs => Memory.place (m.write a.toNat b) (a + 1) bs

end Sys2Proof.Machine
end

