-- ==== Sys2Proof/Machine/System.lean ====
section
/-! DEFINITION. `N_INST` instances over one system memory (00_scope R7, R8; 60_exceptions R298). Each
instance is a `State` whose own `mem` and `peers` are empty while it waits; its turn gives it the
system's memory and the other instances as they are then (20_memory R78, R87). -/

namespace Sys2Proof.Machine

/-- The instances, in the order of `n`, and what they share: the memory, and the model's own number of
the next free value, so that no two instances draw the same one. -/
structure System where
  insts : List State
  mem : Memory
  free : Nat
deriving DecidableEq, Repr

/-- What happens next to the system (20 R91, 70 R310): a turn of one instance, or its reset input
applied or released for every instance at once. -/
inductive Turn where
  | inst (n : Nat)
  | applyReset
  | releaseReset
deriving DecidableEq, Repr

/-- An instance as the others meet it. -/
def State.asPeer (s : State) : Peer where
  window := ⟨s.plat.mmioBase, Config.windowSize⟩
  call := if s.busy then some s.asCall else none

/-- The destination range of a running call (20 R87). -/
def State.runningDest (s : State) : List Region := if s.busy then [s.asCall.dest] else []

/-- The regions of `l` and then those of `new` that `l` does not list. -/
def addRegions (l new : List Region) : List Region := l ++ new.filter (!l.contains ·)

/-- Instance `s` on its turn. -/
def System.view (y : System) (n : Nat) (s : State) : State :=
  { s with mem := y.mem, free := y.free, peers := (y.insts.eraseIdx n).map State.asPeer }

/-- An instance waiting for its turn. -/
def State.park (s : State) : State := { s with mem := [], peers := [] }

/-- The instances as an event of one of them leaves the others: a host store is seen by every running
call whose buffers it touches (20 R85, R86), and nothing else is. -/
def System.seen (y : System) (e : Option Event) : List State :=
  match e with
  | some (.store a _) => y.insts.map (·.markRaced a)
  | _ => y.insts

/-- A running call notes the destinations of the calls that run at once with it (20 R87). -/
def State.noteClash (s : State) (others : List Region) : State :=
  if s.busy then { s with clash := addRegions s.clash others } else s

/-- Every running call notes the others'. -/
def noteClashes (l : List State) : List State :=
  l.mapIdx fun n s => s.noteClash ((l.eraseIdx n).flatMap State.runningDest)

/-- Free values at the addresses of a list that a region has, and the number of the next one. -/
def freeOverlap (r : Region) : List AddrByte → Memory → Nat → Memory × Nat
  | [], m, n => (m, n)
  | (a, _) :: l, m, n =>
    if regionHas r a then freeOverlap r l (m.write a.toNat (Config.freeByte n)) (n + 1)
    else freeOverlap r l m n

/-- The bytes that running calls have written so far. -/
def writtenBytes (l : List State) : List AddrByte :=
  l.flatMap fun s => if s.busy then s.stale else []

/-- Memory when instance `n` goes from `s` to `t`: where that starts a call, the bytes other running
calls have already written in its destination become any value (20 R87). -/
def System.memAfter (y : System) (n : Nat) (s t : State) : Memory × Nat :=
  if t.busy && !s.busy then
    freeOverlap t.asCall.dest (writtenBytes (y.insts.eraseIdx n)) t.mem t.free
  else (t.mem, t.free)

/-- The system after instance `n` went from `s` to `t`. -/
def System.afterTurn (y : System) (n : Nat) (s t : State) : System where
  insts := noteClashes ((y.seen s.events.head?).set n t.park)
  mem := (y.memAfter n s t).1
  free := (y.memAfter n s t).2

/-- One step of instance `n` (20 R91: the steps of different instances interleave in any order). -/
def System.step (y : System) (n : Nat) : Host.Outcome System Fault Refusal :=
  match y.insts[n]? with
  | none => .next y
  | some s =>
    match Sys2Proof.Machine.step (y.view n s) with
    | .next t => .next (y.afterTurn n s t)
    | .fault r => .fault r
    | .refused r => .refused r

/-- One turn of the system. A system reset applies to every instance at once (70 R310). -/
def System.turn (y : System) : Turn → Host.Outcome System Fault Refusal
  | .inst n => y.step n
  | .applyReset => .next { y with insts := y.insts.map State.hardwareReset }
  | .releaseReset => .next { y with insts := y.insts.map State.endReset }

/-- All instances right after a system reset (60 R298, 70 R310), each with its own platform
parameters. -/
def System.reset (plats : List Platform) : System where
  insts := plats.map fun p => { State.reset with plat := p }
  mem := []
  free := 0

end Sys2Proof.Machine
end

