-- ==== Sys2Proof/Machine/Reference.lean ====
section
/-! DEFINITION. The reference encoder (30_encoding R125 to R131). It is not hardware: it defines which
bodies are well formed (30 R105), and nothing of the machine calls it. -/

namespace Sys2Proof.Machine

/-- The encoder's state (30 R125); `out` is `OUT` with its newest byte first. -/
structure EncState where
  low : Nat
  erange : Nat
  cache : Nat
  csize : Nat
  out : List Byte
  c0 : Vector (BitVec 16) Config.nctx
  c1 : Vector (BitVec 16) Config.nctx
deriving DecidableEq, Repr

/-- The encoder's initial values (30 R125). -/
def encInit : EncState where
  low := 0
  erange := 0xFFFFFFFF
  cache := 0
  csize := 1
  out := []
  c0 := Vector.replicate Config.nctx (BitVec.ofNat 16 Config.cntInit)
  c1 := Vector.replicate Config.nctx (BitVec.ofNat 16 Config.cntInit)

/-- `ShiftLow()` (30 R127). -/
def encShiftLow (e : EncState) : EncState :=
  let e :=
    if e.low < 0xFF000000 ∨ 2 ^ 32 ≤ e.low then
      let carry := e.low / 2 ^ 32
      { e with
        out := List.replicate (e.csize - 1) (BitVec.ofNat 8 (0xFF + carry)) ++
          BitVec.ofNat 8 (e.cache + carry) :: e.out
        cache := e.low / 2 ^ 24 % 256
        csize := 0 }
    else e
  { e with csize := e.csize + 1, low := e.low % 2 ^ 24 * 256 }

/-- The encoder's renormalisation (30 R126); from a range above 0 three shifts reach `2^24`. -/
def encRenorm : Nat → EncState → EncState
  | 0, e => e
  | n + 1, e =>
    if e.erange < Config.rcBot then encRenorm n (encShiftLow { e with erange := e.erange * 256 })
    else e

/-- The interval and the model after `EncodeBit(j, b)`, before its renormalisation (30 R126). -/
def encNarrow (e : EncState) (j : Fin Config.nctx) (b : Bool) : EncState :=
  let split := splitOf e.erange e.c0[j] e.c1[j]
  let c := countersAfter b e.c0[j] e.c1[j]
  { e with
    low := if b then e.low + split else e.low
    erange := if b then e.erange - split else split
    c0 := e.c0.set j.val c.1 j.isLt
    c1 := e.c1.set j.val c.2 j.isLt }

/-- `EncodeBit(j, b)` (30 R126). -/
def encBit (e : EncState) (j : Fin Config.nctx) (b : Bool) : EncState :=
  encRenorm 3 (encNarrow e j b)

/-- A context by its number. -/
def ctxOf (n : Nat) : Fin Config.nctx := ⟨n % 129, Nat.mod_lt n (by decide)⟩

/-- The decisions of magnitude `m` from plane `n - 1` down (30 R115): SIG 0 above the top bit, SIG 1
there, REF below. -/
def magDecisions (m : Nat) : Nat → List (Fin Config.nctx × Bool)
  | 0 => []
  | k + 1 =>
    if m < 2 ^ k then (ctxOf (2 + k), false) :: magDecisions m k
    else if m < 2 ^ (k + 1) then (ctxOf (2 + k), true) :: magDecisions m k
    else (ctxOf (66 + k), m.testBit k) :: magDecisions m k

/-- The decisions of one voxel (30 R115). -/
def voxelDecisions (p pred u : Nat) : List (Fin Config.nctx × Bool) :=
  if u = pred then [(ctxZero, true)]
  else
    let neg := decide (u < pred)
    (ctxZero, false) :: (ctxSign, neg) :: magDecisions (if neg then pred - u else u - pred) p

/-- The decisions of one voxel coded in order (30 R128). -/
def encDecisions (e : EncState) : List (Fin Config.nctx × Bool) → EncState
  | [] => e
  | (j, b) :: ds => encDecisions (encBit e j b) ds

/-- The encoder's walk over the voxels (30 R128): it predicts as PREDICT does, stores as EMIT does. -/
def encVoxels : List Nat → State → EncState → EncState
  | [], _, e => e
  | raw :: raws, s, e =>
    let u := fwdMap s.width s.precision raw
    let pred := clampEnc s.precision s.lorenzoSum
    let s' := { s with call := { s.call with u := BitVec.ofNat 64 u } }
    encVoxels raws s'.emitAdvance (encDecisions e (voxelDecisions s.precision pred u))

/-- `ShiftLow()` five times (30 R129). -/
def encFlush (e : EncState) : EncState :=
  encShiftLow (encShiftLow (encShiftLow (encShiftLow (encShiftLow e))))

/-- The body of a volume of a handle's type, precision and dimensions (30 R130): `OUT` without its
first byte. -/
def encBody (h : Handle) (raws : List Nat) : List Byte :=
  let s := { State.reset with handle := h }
  (encFlush (encVoxels raws s encInit)).out.reverse.drop 1

/-- The header of a type, precision and dimensions (30 R101, R131). -/
def encHeader (h : Handle) : List Byte :=
  Config.magic ++ [Config.version, h.typ.setWidth 8, h.prec] ++ leBytes 4 h.nx.toNat ++
    leBytes 4 h.ny.toNat ++ leBytes 4 h.nz.toNat ++ leBytes 4 h.nf.toNat

/-- The stream of a volume (30 R131). -/
def encStream (h : Handle) (raws : List Nat) : List Byte := encHeader h ++ encBody h raws

/-- A legal header's fields (30 R101). -/
def legalHandle (h : Handle) : Bool :=
  decide (1 ≤ h.prec.toNat ∧ h.prec.toNat ≤ elemWidth h.typ ∧ h.nx ≠ 0 ∧ h.ny ≠ 0 ∧ h.nz ≠ 0 ∧
    h.nf ≠ 0 ∧ h.nx.toNat * h.ny.toNat * h.nz.toNat * h.nf.toNat < 2 ^ 64 ∧
    h.nvox.toNat = h.nx.toNat * h.ny.toNat * h.nz.toNat * h.nf.toNat)

/-- A well-formed stream (30 R105). -/
def WellFormedStream (bytes : List Byte) : Prop :=
  ∃ (h : Handle) (raws : List Nat), legalHandle h = true ∧ raws.length = h.nvox.toNat ∧
    (∀ r ∈ raws, r < 2 ^ elemWidth h.typ) ∧ bytes = encStream h raws

end Sys2Proof.Machine
end

