-- ==== Sys2Proof/Safety.lean ====
section
/-! DEFINITION. The terms the statements use: the invariants of the machine (10_state R24, R30, R40,
R44; 41_range_decoder R182, R188; 42_residual R215, R219), what a decision does in closed form
(41 R184 to R187), when the bytes a step needs are plain memory, and the bound on a call's length
(43_predictor R259). -/

namespace Sys2Proof.Machine

/-! ## Plain memory -/

/-- The block's access to this address reads or writes memory as it stands: it is admitted, it is no
device, and no other agent contests it (20 R78, R79, R85 to R87). -/
abbrev State.plain (s : State) (a : DWord) : Prop :=
  s.admission a = .memory ∧ s.contested a = false

/-- The `n` addresses from `a` are plain. -/
abbrev State.plainRun (s : State) (a : DWord) (n : Nat) : Prop :=
  ∀ k < n, s.plain (a + BitVec.ofNat 64 k)

/-- Of the addresses from `a` the first `n` are memory and the next one is `x`. -/
abbrev State.blockedAt (s : State) (a : DWord) (n : Nat) (x : Admission) : Prop :=
  (∀ k < n, s.admission (a + BitVec.ofNat 64 k) = .memory) ∧
    s.admission (a + BitVec.ofNat 64 n) = x

/-- The byte at stream offset `off` of the handle's stream (20 R71). -/
def State.streamByte (s : State) (off : Nat) : Byte :=
  s.mem.read (s.handle.srcBase + BitVec.ofNat 64 off).toNat

/-- The next `n` bytes of the body are there and plain: a step that fetches them completes. -/
abbrev State.bodyReady (s : State) (n : Nat) : Prop :=
  s.rptr.toNat + n ≤ s.handle.nbytes.toNat ∧ s.plainRun (s.handle.srcBase + s.rptr) n

/-- The next `n` bytes of the body as a number, the first most significant (41 R186). -/
def State.bodyNat (s : State) : Nat → Nat
  | 0 => 0
  | n + 1 => State.bodyNat s n * 256 + (s.streamByte (s.rptr.toNat + n)).toNat

/-! ## One decision in closed form -/

/-- The two counters of a context are legal (41 R182). -/
abbrev countersOk (c0 c1 : BitVec 16) : Prop :=
  1 ≤ c0.toNat ∧ 1 ≤ c1.toNat ∧ c0.toNat + c1.toNat ≤ Config.cntLimit

/-- What holds when `DecodeBit(j)` begins (41 R182, R187, R188). -/
abbrev CallRegs.coderOk (r : CallRegs) (j : Fin Config.nctx) : Prop :=
  countersOk r.c0[j] r.c1[j] ∧ Config.rcBot ≤ r.range.toNat ∧ r.code.toNat < r.range.toNat

/-- The decision of context `j`: 1 exactly when CODE is at or above the split (41 R184). -/
def CallRegs.bit (r : CallRegs) (j : Fin Config.nctx) : Bool :=
  decide (r.range.toNat / (r.c0[j].toNat + r.c1[j].toNat) * r.c0[j].toNat ≤ r.code.toNat)

/-- The width of the sub-interval the decision takes (41 R184). -/
def CallRegs.rangeAfter (r : CallRegs) (j : Fin Config.nctx) : Nat :=
  let split := r.range.toNat / (r.c0[j].toNat + r.c1[j].toNat) * r.c0[j].toNat
  if r.bit j then r.range.toNat - split else split

/-- CODE relative to that sub-interval (41 R184). -/
def CallRegs.codeAfter (r : CallRegs) (j : Fin Config.nctx) : Nat :=
  let split := r.range.toNat / (r.c0[j].toNat + r.c1[j].toNat) * r.c0[j].toNat
  if r.bit j then r.code.toNat - split else r.code.toNat

/-- How many bytes the renormalisation of a range fetches (41 R186, R187). -/
def shiftsFor (range : Nat) : Nat :=
  if 2 ^ 24 ≤ range then 0 else if 2 ^ 16 ≤ range then 1 else 2

/-- The bytes the decision in context `j` fetches. -/
def CallRegs.shifts (r : CallRegs) (j : Fin Config.nctx) : Nat := shiftsFor (r.rangeAfter j)

/-- The state after the decision in context `j`: the sub-interval taken, its context updated, and the
interval scaled by the bytes fetched (41 R184 to R186). -/
def State.afterDecision (s : State) (j : Fin Config.nctx) : State :=
  let n := s.call.shifts j
  let c := countersAfter (s.call.bit j) s.call.c0[j] s.call.c1[j]
  { s with
    rptr := s.rptr + BitVec.ofNat 64 n
    call := { s.call with
      range := BitVec.ofNat 32 (s.call.rangeAfter j * 256 ^ n)
      code := BitVec.ofNat 32 (s.call.codeAfter j * 256 ^ n + s.bodyNat n)
      c0 := s.call.c0.set j.val c.1 j.isLt
      c1 := s.call.c1.set j.val c.2 j.isLt } }

/-- A step whose decision is in context `j` completes its `DecodeBit`. -/
abbrev State.decisionReady (s : State) (j : Fin Config.nctx) : Prop :=
  s.call.coderOk j ∧ s.bodyReady (s.call.shifts j)

/-- The context of the decision a step makes (42 R212 to R218), by its number in the map of 30 R118: 0,
1, `2 + k` and `66 + k`, the last for `k` up to 62. The other steps make no decision. -/
def stepContext (i : Instr) (s : State) : Option (Fin 129) :=
  match i with
  | .zero => some 0
  | .sign => some 1
  | .sig => some ⟨2 + s.call.plane.toNat, by have := s.call.plane.isLt; omega⟩
  | .ref => if h : s.call.plane.toNat ≤ 62 then some ⟨66 + s.call.plane.toNat, by omega⟩ else none
  | _ => none

/-! ## The error state -/

/-- `t` is `s` after error `(err, sub)` (60 R285), with `rptr` reached: STATE FAILED, PHASE IDLE, the
codes set; the decode registers may hold anything, and everything else is as in `s`. -/
abbrev State.failedAs (s : State) (rptr : DWord) (err sub : BitVec 4) (t : State) : Prop :=
  t = { s with
    callState := .failed
    phase := 0
    err := err
    sub := sub
    rptr := rptr
    call := t.call
    free := t.free }

/-! ## The header in memory -/

/-- Byte `k` of the stream at SRC_BASE (40 R152). -/
def State.sourceByte (s : State) (k : Nat) : Byte :=
  s.mem.read (s.regs.srcBase + BitVec.ofNat 64 k).toNat

/-- The little-endian u32 at offset `k` of the stream at SRC_BASE (20 R73, 40 R152). -/
def State.sourceWord (s : State) (k : Nat) : Nat :=
  (s.sourceByte k).toNat + (s.sourceByte (k + 1)).toNat * 2 ^ 8 +
    (s.sourceByte (k + 2)).toNat * 2 ^ 16 + (s.sourceByte (k + 3)).toNat * 2 ^ 24

/-- `Wh` of the header at SRC_BASE: 32 if byte 5 is 0, else 64 (40 R152). -/
def State.sourceWidth (s : State) : Nat := if s.sourceByte 5 = 0 then 32 else 64

/-- `nx*ny*nz*nf` of the header at SRC_BASE (40 R152). -/
def State.sourceCount (s : State) : Nat :=
  s.sourceWord 7 * s.sourceWord 11 * s.sourceWord 15 * s.sourceWord 19

/-- The header at SRC_BASE starts with MAGIC (30 R101). -/
abbrev State.sourceMagic (s : State) : Prop :=
  s.sourceByte 0 = 0x46 ∧ s.sourceByte 1 = 0x50 ∧ s.sourceByte 2 = 0x5A ∧ s.sourceByte 3 = 0x00

/-- Some dimension of the header at SRC_BASE is 0 (40 R152). -/
abbrev State.sourceZeroDim (s : State) : Prop :=
  s.sourceWord 7 = 0 ∨ s.sourceWord 11 = 0 ∨ s.sourceWord 15 = 0 ∨ s.sourceWord 19 = 0

/-- OPEN can read the whole header: the stream has 23 bytes and they are plain memory. -/
abbrev State.headerReady (s : State) : Prop :=
  s.callState ≠ .decoding ∧ Config.hdrLen ≤ s.regs.srcLen.toNat ∧
    s.plainRun s.regs.srcBase Config.hdrLen

/-- A check of an acceptance: whether it fails, and the codes it then raises. -/
structure Check where
  fails : Bool
  err : BitVec 4
  sub : BitVec 4
deriving DecidableEq, Repr

/-- The first check that fails is the one reported (60 R283). -/
def firstError (cs : List Check) : Option (BitVec 4 × BitVec 4) :=
  (cs.find? (·.fails)).map fun c => (c.err, c.sub)

/-- OPEN's checks on a header it has read, in the order of 40 R152. -/
def State.openChecks (s : State) : List Check :=
  [⟨decide (¬ s.sourceMagic), 1, 2⟩,
   ⟨decide (s.sourceByte 4 ≠ 1), 1, 3⟩,
   ⟨decide (1 < (s.sourceByte 5).toNat), 1, 4⟩,
   ⟨decide s.sourceZeroDim, 1, 5⟩,
   ⟨decide (2 ^ 64 ≤ s.sourceCount), 1, 6⟩,
   ⟨decide (s.sourceByte 6 = 0), 2, 1⟩,
   ⟨decide (s.sourceWidth < (s.sourceByte 6).toNat), 2, 2⟩]

/-- DECOMPRESS's checks once a handle is valid, in the order of 40 R154. -/
def State.decompressChecks (s : State) : List Check :=
  [⟨decide (s.regs.dstCount ≠ s.handle.nvox), 3, 0⟩,
   ⟨decide (s.regs.dstType ≠ s.handle.typ), 4, 0⟩,
   ⟨decide (∃ d ∈ s.plat.nbDepth, d < s.handleWindow), 6, 0⟩]

/-! ## The prediction -/

/-- `N(d)` for a neighbour whose entry has been written, 0 out of bounds (43 R243). -/
def State.neighbourValue (s : State) (dx dy dz df : Nat) : Int :=
  if dx ≤ s.call.vx.toNat ∧ dy ≤ s.call.vy.toNat ∧ dz ≤ s.call.vz.toNat ∧ df ≤ s.call.vf.toNat then
    match s.call.nb.find (s.vi.toNat - (dx + dy * s.handle.nx.toNat +
        dz * (s.handle.nx.toNat * s.handle.ny.toNat) +
        df * (s.handle.nx.toNat * s.handle.ny.toNat * s.handle.nz.toNat))) with
    | some v => v.toNat
    | none => 0
  else 0

/-- The inclusion-exclusion sum over the 2x2x2x2 cell without the voxel itself (43 R242, R246). -/
def State.cellSum (s : State) : Int :=
  ∑ dx ∈ Finset.range 2, ∑ dy ∈ Finset.range 2, ∑ dz ∈ Finset.range 2, ∑ df ∈ Finset.range 2,
    if dx + dy + dz + df = 0 then 0
    else (-1) ^ (dx + dy + dz + df + 1) * s.neighbourValue dx dy dz df

/-- Every neighbour in bounds lies before the voxel and has been written (43 R245). -/
abbrev State.neighboursWritten (s : State) : Prop :=
  ∀ d ∈ neighbours, d.inBounds s.call.vx.toNat s.call.vy.toNat s.call.vz.toNat s.call.vf.toNat = true →
    d.offset s.handle.nx.toNat s.handle.ny.toNat s.handle.nz.toNat ≤ s.vi.toNat ∧
    (s.call.nb.find (s.vi.toNat -
      d.offset s.handle.nx.toNat s.handle.ny.toNat s.handle.nz.toNat)).isSome = true

/-! ## Invariants -/

/-- The pairs (ERR, SUB) of 60 R281, the first for no error. -/
def errorCodes : List (BitVec 4 × BitVec 4) :=
  [(1, 1), (1, 2), (1, 3), (1, 4), (1, 5), (1, 6), (2, 1), (2, 2), (3, 0), (4, 0),
   (5, 1), (5, 2), (5, 3), (5, 4), (5, 5), (5, 6), (6, 0), (7, 1), (7, 2)]

/-- STATUS is one the spec produces: PHASE is IDLE exactly outside DECODING and never an unused value
(10 R40), ERR and SUB are 0 outside FAILED and a pair of 60 R281 in it (10 R23), HV agrees with STATE
(40 R158), and STATE is UNOPENED while the reset input is applied (70 R310). -/
abbrev State.statusInv (s : State) : Prop :=
  (s.phase = 0 ↔ s.callState ≠ .decoding) ∧ s.phase.toNat ≤ 9 ∧
    (if s.callState = .failed then (s.err, s.sub) ∈ errorCodes else s.err = 0 ∧ s.sub = 0) ∧
    (s.callState = .unopened → s.hv = false) ∧
    (s.callState = .headerParsed ∨ s.callState = .decoding ∨ s.callState = .complete → s.hv = true) ∧
    (s.resetApplied = true → s.callState = .unopened)

/-- The handle is legal when it is valid and all zero when it is not (10 R27 to R32). -/
abbrev State.handleInv (s : State) : Prop :=
  if s.hv = true then
    1 ≤ s.handle.prec.toNat ∧ s.handle.prec.toNat ≤ elemWidth s.handle.typ ∧
      1 ≤ s.handle.nx.toNat ∧ 1 ≤ s.handle.ny.toNat ∧ 1 ≤ s.handle.nz.toNat ∧
      1 ≤ s.handle.nf.toNat ∧
      s.handle.nvox.toNat =
        s.handle.nx.toNat * s.handle.ny.toNat * s.handle.nz.toNat * s.handle.nf.toNat ∧
      Config.hdrLen ≤ s.handle.nbytes.toNat
  else s.handle = Handle.cleared

/-- The coder of a running call (41 R182, R187, R188), and RPTR inside the stream (20 R72). -/
abbrev State.coderInv (s : State) : Prop :=
  s.callState = .decoding →
    (∀ j : Fin Config.nctx, countersOk s.call.c0[j] s.call.c1[j]) ∧
    (s.phase ≠ 1 → Config.rcBot ≤ s.call.range.toNat ∧ s.call.code.toNat < s.call.range.toNat) ∧
    Config.hdrLen ≤ s.rptr.toNat ∧ s.rptr.toNat ≤ s.handle.nbytes.toNat

/-- The position of a running call (10 R44, 43 R241) and the neighbour store it has filled (10 R46):
before FINAL the counters are a voxel of the volume and VI is its linear index. -/
abbrev State.positionInv (s : State) : Prop :=
  s.callState = .decoding →
    (s.phase = 1 → s.vi = 0) ∧
    (∀ i < s.vi.toNat, (s.call.nb.find i).isSome = true) ∧
    (if s.phase = 9 then s.vi = s.handle.nvox
    else
      s.vi.toNat < s.handle.nvox.toNat ∧ s.call.vx.toNat < s.handle.nx.toNat ∧
        s.call.vy.toNat < s.handle.ny.toNat ∧ s.call.vz.toNat < s.handle.nz.toNat ∧
        s.call.vf.toNat < s.handle.nf.toNat ∧
        s.vi.toNat = linearIndex s.handle.nx.toNat s.handle.ny.toNat s.handle.nz.toNat
          s.call.vx.toNat s.call.vy.toNat s.call.vz.toNat s.call.vf.toNat)

/-- BND holds the bound of the voxel's sign (42 R213). -/
abbrev State.boundHeld (s : State) : Prop :=
  s.call.bnd.toNat = residualBound s.precision s.call.pred (s.call.sgn == 1) ∧ 1 ≤ s.call.bnd.toNat

/-- The residual registers of a running call (10 R45, 42 R215, R219), phase by phase. -/
abbrev State.residualInv (s : State) : Prop :=
  s.callState = .decoding →
    (∀ e ∈ s.call.nb, e.2.toNat ≤ maxEnc s.precision) ∧
    (3 ≤ s.phase.toNat ∧ s.phase.toNat ≤ 8 → s.call.pred.toNat ≤ maxEnc s.precision) ∧
    (s.phase = 5 → s.boundHeld ∧ s.call.plane.toNat < s.precision ∧ s.call.mag = 0) ∧
    (s.phase = 6 → s.boundHeld ∧ s.call.plane.toNat + 1 < s.precision ∧
      1 ≤ s.call.mag.toNat ∧ s.call.mag.toNat ≤ s.call.bnd.toNat ∧
      s.call.mag.toNat % 2 ^ (s.call.plane.toNat + 1) = 0) ∧
    (s.phase = 7 → s.boundHeld ∧ 1 ≤ s.call.mag.toNat ∧ s.call.mag.toNat ≤ s.call.bnd.toNat) ∧
    (s.phase = 8 → s.call.u.toNat ≤ maxEnc s.precision)

/-- All of it, with memory in its canonical form. -/
abbrev State.Inv (s : State) : Prop :=
  s.statusInv ∧ s.handleInv ∧ s.mem.wf = true ∧ s.coderInv ∧ s.positionInv ∧ s.residualInv

/-- The registers have the values the spec gives them at reset (10 R48, 70 R310), ID among them. -/
abbrev State.resetValues (s : State) : Prop :=
  s.statusWord = 0 ∧ s.callState = .unopened ∧ s.phase = 0 ∧ s.hv = false ∧ s.ign = false ∧
    s.err = 0 ∧ s.sub = 0 ∧ s.regs = HostRegs.cleared ∧ s.handle = Handle.cleared ∧ s.vi = 0 ∧
    s.rptr = 0 ∧ s.readReg 0x00 = 0x445A5046

/-! ## The length of a call -/

/-- How many steps a running call can still take (43 R259). -/
def State.stepsLeft (s : State) : Nat :=
  let p := s.precision
  let left := s.handle.nvox.toNat - s.vi.toNat
  let later := (p + 5) * (left - 1)
  match s.phase.toNat with
  | 1 => (p + 5) * s.handle.nvox.toNat + 2
  | 2 => (p + 5) * left + 1
  | 3 => (p + 5) * left
  | 4 => later + p + 4
  | 5 => later + 4 + s.call.plane.toNat
  | 6 => later + 4 + s.call.plane.toNat
  | 7 => later + 3
  | 8 => later + 2
  | 9 => 1
  | _ => 0

/-- The next step of the machine is the block's own (70 R330). -/
abbrev State.coreNext (s : State) : Prop := s.events = [] ∨ s.events.head? = some .core

/-- The next step is a host write of the command word `v` to CTRL (40 R150). -/
abbrev State.ctrlNext (s : State) (v : Word) : Prop :=
  s.events.head? = some (.access (s.plat.mmioBase + 4) 4 (.write v))

/-- A run of `k` steps ends in no fault and no refusal. -/
def SafeRun : Nat → State → Prop
  | 0, _ => True
  | k + 1, s =>
    match step s with
    | .next t => SafeRun k t
    | .fault _ => False
    | .refused _ => False

end Sys2Proof.Machine
end

