-- ==== Sys2Proof/Certificates/Slice0/Obligations.lean ====
section
/-! DEFINITION. The statements for the provers. Each docstring names the rules it formalises. Where a
statement speaks of a state after an error or after a call, the decode registers (`call`) and the
counter of free values are left open, because the spec leaves them unspecified (93 I11). -/

open Sys2Proof Sys2Proof.Machine

/-! ## Encoding -/

/-- Decoding an encoded well-formed instruction gives it back (30 R110, R120). -/
def Obligations.DecodeOfEncodeIsIdentity : Prop :=
  ∀ i : Instr, i.wf = true → decode (encode i) = .ok i

/-- A CTRL word selects the row of the opcode table whose mask and match it fits, and only bits 3:0
count (30 R110). -/
def Obligations.CtrlWordSelectsTableRow : Prop :=
  ∀ v : Word,
    decode (bytesOfWord v) = .ok (decodeCtrl v) ∧ (decodeCtrl v).wf = true ∧
    (decodeCtrl v).code = v.setWidth 4 ∧ decodeCtrl v = decodeCtrl (v &&& 0xF) ∧
    (v &&& 0xF = 0x0 ↔ decodeCtrl v = .nop) ∧
    (v &&& 0xF = 0x1 ↔ decodeCtrl v = .openStream) ∧
    (v &&& 0xF = 0x2 ↔ decodeCtrl v = .decompress) ∧
    (v &&& 0xF = 0x3 ↔ decodeCtrl v = .dekompress) ∧
    (v &&& 0xC = 0x4 ↔ ∃ c, decodeCtrl v = .reservedLow c) ∧
    (v &&& 0x8 = 0x8 ↔ ∃ c, decodeCtrl v = .reservedHigh c)

/-- Every PHASE value selects one row of the opcode table (10 R40, 30 R120). -/
def Obligations.PhaseValueSelectsTableRow : Prop :=
  ∀ p : BitVec 4,
    (decodePhase p).wf = true ∧ (decodePhase p).code = p ∧
    (p = 0 ↔ decodePhase p = .idle) ∧ (p = 1 ↔ decodePhase p = .rcInit) ∧
    (p = 2 ↔ decodePhase p = .predict) ∧ (p = 3 ↔ decodePhase p = .zero) ∧
    (p = 4 ↔ decodePhase p = .sign) ∧ (p = 5 ↔ decodePhase p = .sig) ∧
    (p = 6 ↔ decodePhase p = .ref) ∧ (p = 7 ↔ decodePhase p = .recon) ∧
    (p = 8 ↔ decodePhase p = .emit) ∧ (p = 9 ↔ decodePhase p = .final) ∧
    (p &&& 0xE = 0xA ↔ decodePhase p = .unusedLow p) ∧
    (p &&& 0xC = 0xC ↔ decodePhase p = .unusedHigh p)

/-- Words written out from the spec's encodings decode to the instruction they stand for (30 R110,
R111, R120; 95 section 2.1). The byte order of a CTRL word and the one byte of a PHASE value are the
model's reading (notes/assumptions/11.md). -/
def Obligations.SampleWordsDecode : Prop :=
  decode [0xF1, 0xFF, 0xFF, 0xFF] = .ok .openStream ∧
  decode [0x02, 0x00, 0x00, 0x00] = .ok .decompress ∧
  decode [0x03, 0x00, 0x00, 0x00] = .ok .dekompress ∧
  decode [0x07, 0x00, 0x00, 0x00] = .ok (.reservedLow 7) ∧
  decode [0x0F, 0x00, 0x00, 0x00] = .ok (.reservedHigh 15) ∧
  decode [0x05] = .ok .sig ∧ decode [0x09] = .ok .final ∧ decode [0x0B] = .ok (.unusedLow 11)

/-! ## A step runs the decoded instruction -/

/-- A step of a block that is not stuck runs the instruction its PHASE value decodes to, when no event
comes first; a host write of a word to CTRL runs the instruction the word decodes to. The step takes
the event it serves off the list (10 R40, 40 R150; the event list is the model's own,
notes/assumptions/2.md). A block that is stuck (20 R79) or whose reset input is applied (70 R310) takes
no step of its own, and a CTRL write has no effect on a block stuck in an OPEN (the model's choice,
notes/assumptions/8.md) or held in reset. -/
def Obligations.StepRunsDecodedInstruction : Prop :=
  (∀ (s : State) (i : Instr), i.wf = true → s.resetApplied = false →
    (decode [s.phase.setWidth 8] = .ok i → s.stuck = false →
      (s.events = [] → step s = exec i s) ∧
      (∀ rest, s.events = .core :: rest → step s = exec i { s with events := rest })) ∧
    (∀ (v : Word) (rest : List Event), decode (bytesOfWord v) = .ok i →
      s.events = .access (s.plat.mmioBase + 4) 4 (.write v) :: rest →
      (s.stuck = false ∨ s.callState = .decoding) → step s = exec i { s with events := rest })) ∧
  (∀ s : State,
    (s.stuck = true ∨ s.resetApplied = true →
      (s.events = [] → step s = .next s) ∧
      (∀ rest, s.events = .core :: rest → step s = .next { s with events := rest })) ∧
    (∀ (v : Word) (rest : List Event),
      s.events = .access (s.plat.mmioBase + 4) 4 (.write v) :: rest →
      (s.stuck = true ∧ s.callState ≠ .decoding) ∨ s.resetApplied = true →
      step s = .next { s with events := rest }))

/-- The instruction placed by `withFetchWord` is the one the very next step runs
(notes/assumptions/20.md). -/
def Obligations.PlacedWordRunsNext : Prop :=
  ∀ (s : State) (nbits w : Nat) (i : Instr), decodeTableWord nbits w = some i →
    step (s.withFetchWord nbits w) =
      if nbits ≤ 8 then
        exec i { s with stuck := false, resetApplied := false, phase := BitVec.ofNat 4 w }
      else exec i { s with stuck := false, resetApplied := false }

/-! ## Commands -/

/-- NOP changes nothing, in any state (40 R151), and IDLE is no step: the block waits (10 R40). -/
def Obligations.NopAndIdleChangeNothing : Prop :=
  ∀ s : State, exec .nop s = .next s ∧ exec .idle s = .next s

/-- Every command but NOP is ignored while DECODING: it sets IGN and changes nothing else (40 R150). -/
def Obligations.CommandWhileDecodingSetsIgnOnly : Prop :=
  ∀ (i : Instr) (s : State), i.format = .ctrl → i ≠ .nop → s.callState = .decoding →
    exec i s = .next { s with ign := true }

/-- Outside DECODING a reserved command fails IllegalCommand(RESERVED_OPCODE) and keeps the handle, HV,
VOX_DONE, BYTES_USED and memory (40 R157). -/
def Obligations.ReservedCommandFails : Prop :=
  ∀ (i : Instr) (s : State),
    (i = .dekompress ∨ (∃ c, i = .reservedLow c) ∨ ∃ c, i = .reservedHigh c) →
    s.callState ≠ .decoding →
    ∃ t, exec i s = .next t ∧ State.failedAs { s with ign := false } s.rptr 7 1 t

/-- OPEN of a stream with a legal header latches it into the handle and changes nothing else but the
status, VOX_DONE and BYTES_USED (40 R152). -/
def Obligations.OpenLatchesLegalHeader : Prop :=
  ∀ s : State, s.headerReady → s.sourceMagic → s.sourceByte 4 = 1 →
    (s.sourceByte 5).toNat ≤ 1 → ¬ s.sourceZeroDim → s.sourceCount < 2 ^ 64 →
    s.sourceByte 6 ≠ 0 → (s.sourceByte 6).toNat ≤ s.sourceWidth →
    ∃ h : Handle,
      exec .openStream s = .next { s with
        callState := .headerParsed
        hv := true
        ign := false
        err := 0
        sub := 0
        vi := 0
        rptr := 23
        handle := h } ∧
      h.typ.toNat = (s.sourceByte 5).toNat ∧ h.prec = s.sourceByte 6 ∧
      h.nx.toNat = s.sourceWord 7 ∧ h.ny.toNat = s.sourceWord 11 ∧
      h.nz.toNat = s.sourceWord 15 ∧ h.nf.toNat = s.sourceWord 19 ∧
      h.nvox.toNat = s.sourceCount ∧ h.nbytes = s.regs.srcLen ∧ h.srcBase = s.regs.srcBase

/-- OPEN of a stream shorter than 23 bytes fails InvalidHeader(SHORT) with no handle and without a
read (30 R103, 40 R152, R153). That VOX_DONE and BYTES_USED are then 0 is the model's reading
(notes/assumptions/25.md). -/
def Obligations.OpenShortStreamFails : Prop :=
  ∀ s : State, s.callState ≠ .decoding → s.regs.srcLen.toNat < 23 →
    ∃ t, exec .openStream s = .next t ∧
      State.failedAs { s with ign := false, vi := 0, handle := Handle.cleared, hv := false } 0 1 1 t

/-- OPEN reports the first of its checks that fails, in the order of 40 R152, and leaves no handle
(40 R152, R153). That VOX_DONE is then 0 and BYTES_USED 23 is the model's reading
(notes/assumptions/25.md). -/
def Obligations.OpenReportsFirstHeaderError : Prop :=
  ∀ (s : State) (err sub : BitVec 4), s.headerReady → firstError s.openChecks = some (err, sub) →
    ∃ t, exec .openStream s = .next t ∧
      State.failedAs { s with ign := false, vi := 0, handle := Handle.cleared, hv := false } 23
        err sub t

/-- An OPEN whose header read meets an address the memory system does not admit never completes: no
register changes, the block is stuck (20 R79, 90 C9). -/
def Obligations.OpenNotAdmittedIsStuck : Prop :=
  ∀ (s : State) (k : Nat), s.callState ≠ .decoding → 23 ≤ s.regs.srcLen.toNat → k < 23 →
    (∀ j < k, s.admission (s.regs.srcBase + BitVec.ofNat 64 j) = .memory) →
    s.admission (s.regs.srcBase + BitVec.ofNat 64 k) = .absent →
    exec .openStream s = .next { s with stuck := true }

/-- DECOMPRESS whose checks pass starts a call: DST_BASE latched, every counter 1, the position at
voxel 0, PHASE RC_INIT (40 R154). The emptied lists are the model's own fields
(notes/assumptions/9.md). -/
def Obligations.DecompressStartsCall : Prop :=
  ∀ s : State, s.callState ≠ .decoding → s.hv = true → firstError s.decompressChecks = none →
    exec .decompress s = .next { s with
      callState := .decoding
      phase := 1
      ign := false
      err := 0
      sub := 0
      vi := 0
      rptr := 23
      cDstBase := s.regs.dstBase
      raced := []
      clash := []
      stale := []
      call := { s.call with
        c0 := Vector.replicate 129 1
        c1 := Vector.replicate 129 1
        vx := 0
        vy := 0
        vz := 0
        vf := 0
        nb := [] } }

/-- DECOMPRESS reports the first of its checks that fails, in the order of 40 R154. That NO_HANDLE
leaves VOX_DONE and BYTES_USED (notes/assumptions/24.md) and that the other failures keep 0 and 23
there (notes/assumptions/25.md) is the model's reading. -/
def Obligations.DecompressReportsFirstError : Prop :=
  ∀ s : State, s.callState ≠ .decoding →
    (s.hv = false →
      ∃ t, exec .decompress s = .next t ∧ State.failedAs { s with ign := false } s.rptr 7 2 t) ∧
    (∀ err sub : BitVec 4, s.hv = true → firstError s.decompressChecks = some (err, sub) →
      ∃ t, exec .decompress s = .next t ∧
        State.failedAs { s with ign := false, vi := 0 } 23 err sub t)

/-- DECOMPRESS's acceptance makes no memory access: it answers, it leaves memory and the handle as
they are, and on any other memory it does the same (40 R155, R156). -/
def Obligations.DecompressMakesNoMemoryAccess : Prop :=
  ∀ s : State, ∃ t, exec .decompress s = .next t ∧ t.mem = s.mem ∧ t.handle = s.handle ∧
    t.hv = s.hv ∧ ∀ m : Memory, exec .decompress { s with mem := m } = .next { t with mem := m }

/-! ## The range decoder -/

/-- `Update(j, b)`: the counter of the decoded value grows by 16, both are halved rounding up when the
total passes 8192, legal counters stay legal, and only context `j` changes (41 R182, R185). -/
def Obligations.UpdateKeepsCountersLegal : Prop :=
  (∀ (b : Bool) (c0 c1 : BitVec 16), countersOk c0 c1 →
    let n0 := c0.toNat + (if b then 0 else 16)
    let n1 := c1.toNat + (if b then 16 else 0)
    countersOk (countersAfter b c0 c1).1 (countersAfter b c0 c1).2 ∧
    (n0 + n1 ≤ 8192 →
      (countersAfter b c0 c1).1.toNat = n0 ∧ (countersAfter b c0 c1).2.toNat = n1) ∧
    (8192 < n0 + n1 →
      (countersAfter b c0 c1).1.toNat = (n0 + 1) / 2 ∧
      (countersAfter b c0 c1).2.toNat = (n1 + 1) / 2)) ∧
  (∀ (r : CallRegs) (i j : Fin 129) (b : Bool),
    ((r.update j b).c0[i], (r.update j b).c1[i]) =
      if i = j then countersAfter b r.c0[i] r.c1[i] else (r.c0[i], r.c1[i]))

/-- At a decision `r >= 2048`, both sub-intervals have width at least 2048, CODE stays inside the one
taken, and at most two renormalisation shifts bring it back to `2^24` (41 R184, R187, R188). -/
def Obligations.DecisionKeepsIntervalWide : Prop :=
  ∀ (r : CallRegs) (j : Fin 129), r.coderOk j →
    2048 ≤ r.range.toNat / (r.c0[j].toNat + r.c1[j].toNat) ∧
    2048 ≤ r.split j ∧ 2048 ≤ r.range.toNat - r.split j ∧
    2048 ≤ r.rangeAfter j ∧ r.codeAfter j < r.rangeAfter j ∧ r.shifts j ≤ 2 ∧
    2 ^ 24 ≤ r.rangeAfter j * 256 ^ r.shifts j ∧ r.rangeAfter j * 256 ^ r.shifts j < 2 ^ 32

/-- `DecodeBit(j)` in closed form: the decision, the sub-interval, the update of context `j`, and the
renormalisation that takes the next 0, 1 or 2 bytes of the body, most significant first (41 R184,
R186). -/
def Obligations.DecodeBitClosedForm : Prop :=
  ∀ (s : State) (j : Fin 129), s.decisionReady j →
    s.decodeBit j = .ok (s.call.bit j) (s.afterDecision j)

/-- A step whose decision needs a byte past the body fails CorruptStream(STARVED), whatever the
decision would have raised, with BYTES_USED = H_NBYTES and none of its own writes (41 R183, 60 R283). -/
def Obligations.StarvedDecisionFails : Prop :=
  ∀ (s : State) (i : Instr) (j : Fin 129) (m : Nat), stepContext i s = some j → s.call.coderOk j →
    m < s.call.shifts j → s.rptr.toNat + m = s.handle.nbytes.toNat →
    s.plainRun (s.handle.srcBase + s.rptr) m →
    ∃ t, exec i s = .next t ∧ s.failedAs s.handle.nbytes 5 1 t

/-- A step whose decision needs a byte at an address the memory system does not admit, its first or its
second, is not taken, nor is an RC_INIT with one of its four bytes there: the block is stuck and nothing
else changes (20 R79; that BYTES_USED does not show the bytes fetched before it is the model's choice,
notes/assumptions/8.md). -/
def Obligations.DecisionNotAdmittedIsStuck : Prop :=
  ∀ (s : State) (m : Nat), s.rptr.toNat + m < s.handle.nbytes.toNat →
    s.blockedAt (s.handle.srcBase + s.rptr) m .absent →
    (∀ (i : Instr) (j : Fin 129), stepContext i s = some j → s.call.coderOk j →
      m < s.call.shifts j → exec i s = .next { s with stuck := true }) ∧
    (m < 4 → exec .rcInit s = .next { s with stuck := true })

/-- RC_INIT takes the next four bytes of the body as CODE, most significant first, RANGE starts at
0xFFFFFFFF, and PREDICT is next (41 R189). -/
def Obligations.RcInitLoadsCode : Prop :=
  ∀ s : State, s.bodyReady 4 → s.bodyNat 4 < 0xFFFFFFFF →
    exec .rcInit s = .next { s with
      rptr := s.rptr + 4
      phase := 2
      call := { s.call with range := 0xFFFFFFFF, code := BitVec.ofNat 32 (s.bodyNat 4) } }

/-- RC_INIT raises CODE_RANGE on FF FF FF FF and STARVED on a body of fewer than four bytes (41 R189). -/
def Obligations.RcInitRejectsBadStart : Prop :=
  ∀ s : State,
    (s.bodyReady 4 → s.bodyNat 4 = 0xFFFFFFFF →
      ∃ t, exec .rcInit s = .next t ∧ s.failedAs (s.rptr + 4) 5 2 t) ∧
    (∀ m < 4, s.rptr.toNat + m = s.handle.nbytes.toNat →
      s.plainRun (s.handle.srcBase + s.rptr) m →
      ∃ t, exec .rcInit s = .next t ∧ s.failedAs s.handle.nbytes 5 1 t)

/-- FINAL completes the call when the body is consumed exactly and raises TRAILING otherwise
(41 R192). -/
def Obligations.FinalCompletesExactBody : Prop :=
  ∀ s : State,
    (s.rptr = s.handle.nbytes →
      ∃ t, exec .final s = .next t ∧
        t = { s with callState := .complete, phase := 0, call := t.call, free := t.free }) ∧
    (s.rptr ≠ s.handle.nbytes → ∃ t, exec .final s = .next t ∧ s.failedAs s.rptr 5 6 t)

/-! ## The residual -/

/-- ZERO, in context 0: a decision of 1 makes U the prediction and goes to EMIT, a decision of 0 goes to
SIGN (30 R118, 42 R212). -/
def Obligations.ZeroStepResult : Prop :=
  ∀ s : State, s.decisionReady 0 →
    let d := s.afterDecision 0
    exec .zero s = .next
      (if s.call.bit 0 = true then
        { d with phase := 8, call := { d.call with u := s.call.pred } }
      else { d with phase := 4 })

/-- SIGN, in context 1: the bound of the decoded sign, the top plane and an empty magnitude, or
SIGN_EMPTY when the bound is 0 (30 R118, 42 R213, R214). -/
def Obligations.SignStepResult : Prop :=
  ∀ s : State, s.decisionReady 1 → 1 ≤ s.precision → s.precision ≤ 64 →
    s.call.pred.toNat ≤ 2 ^ s.precision - 1 →
    let d := s.afterDecision 1
    let b := s.call.bit 1
    let bnd := if b = true then s.call.pred.toNat else 2 ^ s.precision - 1 - s.call.pred.toNat
    (bnd ≠ 0 →
      exec .sign s = .next { d with
        phase := 5
        call := { d.call with
          sgn := if b = true then 1 else 0
          bnd := BitVec.ofNat 64 bnd
          plane := BitVec.ofNat 6 (s.precision - 1)
          mag := 0 } }) ∧
    (bnd = 0 → ∃ t, exec .sign s = .next t ∧ s.failedAs d.rptr 5 3 t)

/-- SIG at plane `k`, in context `2 + k`: a 1 fixes the top bit, a 0 goes one plane down; MAG_OVER when
the top bit alone is past the bound, MAG_ZERO when plane 0 decodes 0 (30 R118, 42 R216). -/
def Obligations.SigStepResult : Prop :=
  ∀ (s : State) (j : Fin 129), j.val = 2 + s.call.plane.toNat → s.decisionReady j →
    let k := s.call.plane
    let d := s.afterDecision j
    let b := s.call.bit j
    (b = true → 2 ^ k.toNat ≤ s.call.bnd.toNat →
      exec .sig s = .next { d with
        phase := if k = 0 then 7 else 6
        call := { d.call with
          mag := BitVec.ofNat 64 (2 ^ k.toNat)
          plane := if k = 0 then 0 else k - 1 } }) ∧
    (b = true → s.call.bnd.toNat < 2 ^ k.toNat →
      ∃ t, exec .sig s = .next t ∧ s.failedAs d.rptr 5 5 t) ∧
    (b = false → k ≠ 0 →
      exec .sig s = .next { d with phase := 5, call := { d.call with plane := k - 1 } }) ∧
    (b = false → k = 0 → ∃ t, exec .sig s = .next t ∧ s.failedAs d.rptr 5 4 t)

/-- REF at plane `k`, in context `66 + k`: bit `k` of the magnitude, then RECON or one plane down;
MAG_OVER when the magnitude passes the bound (30 R118, 42 R218). -/
def Obligations.RefStepResult : Prop :=
  ∀ (s : State) (j : Fin 129), j.val = 66 + s.call.plane.toNat → s.decisionReady j →
    let k := s.call.plane
    let d := s.afterDecision j
    let m2 := s.call.mag ||| (if s.call.bit j = true then BitVec.ofNat 64 (2 ^ k.toNat) else 0)
    (m2.toNat ≤ s.call.bnd.toNat →
      exec .ref s = .next { d with
        phase := if k = 0 then 7 else 6
        call := { d.call with mag := m2, plane := if k = 0 then 0 else k - 1 } }) ∧
    (s.call.bnd.toNat < m2.toNat → ∃ t, exec .ref s = .next t ∧ s.failedAs d.rptr 5 5 t)

/-- RECON writes U, which is PRED + MAG or PRED - MAG by the sign, and PHASE, and nothing else; where
the bound holds that sum or difference does not wrap and is a legal encoded value (42 R219, R220). -/
def Obligations.ReconStepResult : Prop :=
  ∀ s : State,
    let u := if s.call.sgn = 0 then s.call.pred + s.call.mag else s.call.pred - s.call.mag
    exec .recon s = .next { s with phase := 8, call := { s.call with u := u } } ∧
    (1 ≤ s.precision → s.precision ≤ 64 → s.call.pred.toNat ≤ 2 ^ s.precision - 1 → s.boundHeld →
      s.call.mag.toNat ≤ s.call.bnd.toNat →
      (s.call.sgn = 0 → u.toNat = s.call.pred.toNat + s.call.mag.toNat) ∧
      (s.call.sgn = 1 → u.toNat + s.call.mag.toNat = s.call.pred.toNat) ∧
      u.toNat ≤ 2 ^ s.precision - 1)

/-! ## The predictor, the value map and the output -/

/-- PREDICT writes PRED and PHASE only, and PRED is the Lorenzo sum over the cell of written
neighbours, clamped to `[0, 2^P - 1]` (43 R242, R243, R247, R248). -/
def Obligations.PredictClampsCellSum : Prop :=
  ∀ s : State, ∃ p : DWord,
    exec .predict s = .next { s with phase := 3, call := { s.call with pred := p } } ∧
    (s.precision ≤ 64 → s.neighboursWritten →
      (p.toNat : Int) = min (max s.cellSum 0) (2 ^ s.precision - 1))

/-- The Lorenzo sum of `P`-bit values lies between `-7*(2^P - 1)` and `8*(2^P - 1)` (43 R246). -/
def Obligations.LorenzoSumFitsAccumulator : Prop :=
  ∀ s : State, s.neighboursWritten → (∀ e ∈ s.call.nb, e.2.toNat ≤ 2 ^ s.precision - 1) →
    -7 * ((2 : Int) ^ s.precision - 1) ≤ s.lorenzoSum ∧
      s.lorenzoSum ≤ 8 * ((2 : Int) ^ s.precision - 1)

/-- Every in-bounds neighbour lies before the voxel and inside the window, and the window is smaller
than the volume (43 R244, R245). -/
def Obligations.WindowCoversNeighbours : Prop :=
  ∀ nx ny nz nf x y z f : Nat, x < nx → y < ny → z < nz → f < nf →
    window nx ny nz nf < nx * ny * nz * nf ∧
    ∀ d ∈ neighbours, d.inBounds x y z f = true →
      1 ≤ d.offset nx ny nz ∧ d.offset nx ny nz ≤ window nx ny nz nf ∧
      d.offset nx ny nz ≤ linearIndex nx ny nz x y z f

/-- `Advance()` goes to the voxel of the next linear index, and after the last one to `VF = nf`
(43 R241, R257). -/
def Obligations.AdvanceVisitsNextIndex : Prop :=
  ∀ (h : Handle) (r : CallRegs), r.vx.toNat < h.nx.toNat → r.vy.toNat < h.ny.toNat →
    r.vz.toNat < h.nz.toNat → r.vf.toNat < h.nf.toNat →
    let a := advance h r
    let next := linearIndex h.nx.toNat h.ny.toNat h.nz.toNat r.vx.toNat r.vy.toNat r.vz.toNat
      r.vf.toNat + 1
    linearIndex h.nx.toNat h.ny.toNat h.nz.toNat a.vx.toNat a.vy.toNat a.vz.toNat a.vf.toNat = next ∧
    a = { r with vx := a.vx, vy := a.vy, vz := a.vz, vf := a.vf } ∧
    (next < h.nx.toNat * h.ny.toNat * h.nz.toNat * h.nf.toNat →
      a.vx.toNat < h.nx.toNat ∧ a.vy.toNat < h.ny.toNat ∧ a.vz.toNat < h.nz.toNat ∧
        a.vf.toNat < h.nf.toNat) ∧
    (h.nx.toNat * h.ny.toNat * h.nz.toNat * h.nf.toNat ≤ next →
      a.vx = 0 ∧ a.vy = 0 ∧ a.vz = 0 ∧ a.vf = h.nf)

/-- The forward and the inverse value map are inverse bijections on `[0, 2^P)`; a full-width value
comes back whole and a shorter one with its low bits cleared; both zeros survive; the `P`-bit value is
the top of the full-width one (43 R251 to R253). -/
def Obligations.ValueMapRoundTrips : Prop :=
  ∀ w p : Nat, 1 ≤ p → p ≤ w →
    (∀ u < 2 ^ p, invMap w p u < 2 ^ w ∧ fwdMap w p (invMap w p u) = u) ∧
    (∀ raw < 2 ^ w, fwdMap w p raw < 2 ^ p ∧
      invMap w p (fwdMap w p raw) = raw / 2 ^ (w - p) * 2 ^ (w - p) ∧
      fwdMap w p raw = fwdMap w w raw / 2 ^ (w - p)) ∧
    fwdMap w p 0 = 2 ^ (p - 1) ∧ fwdMap w p (2 ^ (w - 1)) = 2 ^ (p - 1) - 1

/-- EMIT writes element VI, little-endian, at `C_DST_BASE + VI*E` modulo `2^64`, and no other byte;
stores U in the neighbour store; and moves to the next voxel or to FINAL (20 R74, 43 R256). The model's
own record of overwritten bytes is left open (notes/assumptions/9.md). -/
def Obligations.EmitWritesElement : Prop :=
  ∀ s : State,
    let E := elemBytes s.handle.typ
    let a := s.cDstBase + BitVec.ofNat 64 (s.vi.toNat * E)
    s.mem.wf = true → s.plainRun a E →
    ∃ (m : Memory) (old : List AddrByte),
      exec .emit s = .next { s with
        mem := m
        stale := old
        vi := s.vi + 1
        phase := if s.vi + 1 = s.handle.nvox then 9 else 2
        call := advance s.handle { s.call with nb := s.call.nb.put s.vi.toNat s.call.u } } ∧
      (∀ k < E, m.read (a + BitVec.ofNat 64 k).toNat =
        BitVec.ofNat 8 (invMap (elemWidth s.handle.typ) s.precision s.call.u.toNat / 256 ^ k)) ∧
      (∀ x : DWord, (∀ k < E, x ≠ a + BitVec.ofNat 64 k) → m.read x.toNat = s.mem.read x.toNat)

/-- An EMIT with a byte at an address the memory system does not admit is not taken: the block is stuck
and nothing else changes, memory included (20 R79; that the bytes before it are not written either is
the model's choice, notes/assumptions/8.md). -/
def Obligations.EmitNotAdmittedIsStuck : Prop :=
  ∀ (s : State) (k : Nat), k < elemBytes s.handle.typ →
    (∀ j < k, s.admission (s.cDstBase + BitVec.ofNat 64 (s.vi.toNat * elemBytes s.handle.typ + j)) =
      .memory) →
    s.admission (s.cDstBase + BitVec.ofNat 64 (s.vi.toNat * elemBytes s.handle.typ + k)) = .absent →
    exec .emit s = .next { s with stuck := true }

/-! ## Other agents -/

/-- What the block reads and writes where other agents race with it (20 R77, R85, R86, R87). A body byte
that the host wrote during the call, or that lies in the call's own destination, is any value, whatever
memory holds; one in the destination of one other running call is memory's byte, the one that call has
overwritten or the one its next step writes. A destination byte at a contested address gets any value,
whatever EMIT would write. The free values, the picks and the record of overwritten bytes are the model's
(notes/assumptions/9.md). -/
def Obligations.ContestedAccessIsFree : Prop :=
  ∀ s : State,
    let p := s.handle.srcBase + s.rptr
    (s.rptr.toNat < s.handle.nbytes.toNat → s.admission p = .memory →
      (s.callState = .decoding → p ∈ s.raced ∨ s.inDest p = true →
        ∀ m : Memory, State.fetchByte { s with mem := m } =
          .ok (Config.freeByte s.free)
            { s with mem := m, rptr := s.rptr + 1, free := s.free + 1 }) ∧
      (∀ c : RunningCall, p ∉ s.raced → s.inDest p = false →
        s.foreignCalls.filter (fun c => regionHas c.dest p) = [c] → c.raceOn p = false →
        ∃ v : Byte, (v = s.mem.read p.toNat ∨ (p, v) ∈ c.stale ∨ (p, v) ∈ c.pending) ∧
          s.fetchByte = .ok v { s with rptr := s.rptr + 1, free := s.free + 1 })) ∧
    (∀ (a : DWord) (b : Byte), s.contested a = true →
      s.storeByte a b =
        { s with
          stale := noteStale s.stale a (s.mem.read a.toNat)
          mem := s.mem.write a.toNat (Config.freeByte s.free)
          free := s.free + 1 })

/-- A stream or a destination on device registers is refused at the access that touches them, whichever
byte of the step it is (20 R78; refusing there, and counting every register window as device registers,
is the model's reading, notes/assumptions/16.md). -/
def Obligations.BufferOnDeviceRefused : Prop :=
  (∀ (s : State) (m : Nat),
    (s.rptr.toNat + m < s.handle.nbytes.toNat →
      s.blockedAt (s.handle.srcBase + s.rptr) m .device →
      (∀ (i : Instr) (j : Fin 129), stepContext i s = some j → s.call.coderOk j →
        m < s.call.shifts j → exec i s = .refused .bufferOnDevice) ∧
      (m < 4 → exec .rcInit s = .refused .bufferOnDevice)) ∧
    (m < elemBytes s.handle.typ →
      s.blockedAt (s.cDstBase + BitVec.ofNat 64 (s.vi.toNat * elemBytes s.handle.typ)) m .device →
      exec .emit s = .refused .bufferOnDevice) ∧
    (s.callState ≠ .decoding → 23 ≤ s.regs.srcLen.toNat → m < 23 →
      s.blockedAt s.regs.srcBase m .device → exec .openStream s = .refused .bufferOnDevice)) ∧
  (∀ (s : State) (a : DWord), s.inWindow a = true → s.admission a = .device) ∧
  (∀ (y : System) (n m : Nat) (s p : State) (a : DWord), m ≠ n → y.insts[m]? = some p →
    p.inWindow a = true → (y.view n s).admission a = .device)

/-- Host accesses to memory (20 R77, R82, R85, R86; the lists and the free values are the model's,
notes/assumptions/9.md). A store writes its byte, and to a destination byte of a running call any value;
one to a stream or destination byte of this instance's running call makes the byte contested, and it
stays so while the call runs. A load returns memory's byte; of a destination byte of one running call it
may also return the byte from before the call or the one its next step writes, where nobody raced on
it. -/
def Obligations.HostStoreRacesOnlyDuringCall : Prop :=
  (∀ (s : State) (a : DWord) (b : Byte), s.admission a = .memory →
    (s.hostStore a b = .next { s with
      raced := if s.callState = .decoding ∧ (s.inStream a = true ∨ s.inDest a = true) then
        addRaced s.raced a else s.raced
      mem := s.mem.write a.toNat (if s.ownedByCall a = true then Config.freeByte s.free else b)
      free := if s.ownedByCall a = true then s.free + 1 else s.free }) ∧
    (s.callState = .decoding → s.inStream a = true ∨ s.inDest a = true →
      ∃ t, s.hostStore a b = .next t ∧ t.contested a = true ∧ a ∈ t.raced) ∧
    (s.callState ≠ .decoding ∨ (s.inStream a = false ∧ s.inDest a = false) →
      s.inForeign a = false → s.hostStore a b = .next { s with mem := s.mem.write a.toNat b }) ∧
    ((∀ c ∈ s.calls, regionHas c.dest a = false) →
      s.hostLoad a = .next { s with rdata := (s.mem.read a.toNat).setWidth 32 }) ∧
    (∀ c, s.calls.filter (fun c => regionHas c.dest a) = [c] → c.raceOn a = false →
      ∃ v : Byte, (v = s.mem.read a.toNat ∨ (a, v) ∈ c.stale ∨ (a, v) ∈ c.pending) ∧
        s.hostLoad a = .next { s with rdata := v.setWidth 32, free := s.free + 1 })) ∧
  (∀ (s t : State) (a : DWord), a ∈ s.raced → s.callState = .decoding → step s = .next t →
    t.callState = .decoding → a ∈ t.raced ∧ t.contested a = true)

/-! ## The register window -/

/-- What each register of the window reads as (10 R20). -/
def Obligations.RegisterMapReads : Prop :=
  ∀ s : State,
    s.readReg 0x00 = 0x445A5046 ∧ s.readReg 0x04 = 0 ∧ s.readReg 0x08 = s.statusWord ∧
    s.readReg 0x14 ++ s.readReg 0x10 = s.regs.srcBase ∧
    s.readReg 0x1C ++ s.readReg 0x18 = s.regs.srcLen ∧
    s.readReg 0x24 ++ s.readReg 0x20 = s.regs.dstBase ∧
    s.readReg 0x2C ++ s.readReg 0x28 = s.regs.dstCount ∧
    (s.readReg 0x30).toNat = s.regs.dstType.toNat ∧
    (s.readReg 0x40).toNat = s.handle.typ.toNat ∧ (s.readReg 0x44).toNat = s.handle.prec.toNat ∧
    s.readReg 0x48 = s.handle.nx ∧ s.readReg 0x4C = s.handle.ny ∧ s.readReg 0x50 = s.handle.nz ∧
    s.readReg 0x54 = s.handle.nf ∧
    s.readReg 0x5C ++ s.readReg 0x58 = s.handle.nvox ∧
    s.readReg 0x64 ++ s.readReg 0x60 = s.handle.nbytes ∧
    s.readReg 0x6C ++ s.readReg 0x68 = s.vi ∧ s.readReg 0x74 ++ s.readReg 0x70 = s.rptr ∧
    (s.readReg 0x7C ++ s.readReg 0x78).toNat =
      match s.plat.nbDepth with
      | some d => min d (2 ^ 64 - 1)
      | none => 2 ^ 64 - 1

/-- The offsets of the host-writable registers other than CTRL (10 R20). -/
def writableOffsets : List Nat := [0x10, 0x14, 0x18, 0x1C, 0x20, 0x24, 0x28, 0x2C, 0x30]

/-- A write to a read-only or reserved offset changes nothing, and a reserved offset reads 0 (10 R36). -/
def Obligations.ReadOnlyAndReservedIgnoreWrites : Prop :=
  ∀ (s : State) (off : Nat) (v : Word), off < 0x100 → off % 4 = 0 →
    (off ∉ writableOffsets → off ≠ 0x04 →
      s.access (s.plat.mmioBase + BitVec.ofNat 64 off) 4 (.write v) = .next s) ∧
    (off = 0x0C ∨ (0x34 ≤ off ∧ off ≤ 0x3C) ∨ 0x80 ≤ off → s.readReg off = 0) ∧
    s.access (s.plat.mmioBase + BitVec.ofNat 64 off) 4 .read =
      .next { s with rdata := s.readReg off }

/-- A write to a writable register is read back (DST_TYPE keeps bit 0 only), no other register reads
differently, and nothing but the host's registers changes (10 R25, R26, R38); while the reset input is
applied the write is lost (70 R310, R312). -/
def Obligations.WrittenRegisterReadsBack : Prop :=
  ∀ (s : State) (off : Nat) (v : Word), off ∈ writableOffsets →
    (s.resetApplied = false → ∃ r : HostRegs,
      s.access (s.plat.mmioBase + BitVec.ofNat 64 off) 4 (.write v) = .next { s with regs := r } ∧
      State.readReg { s with regs := r } off = (if off = 0x30 then v &&& 1 else v) ∧
      ∀ off' : Nat, off' ≠ off → State.readReg { s with regs := r } off' = s.readReg off') ∧
    (s.resetApplied = true →
      s.access (s.plat.mmioBase + BitVec.ofNat 64 off) 4 (.write v) = .next s)

/-- The fields of STATUS, with the five codes of STATE and BUSY 1 exactly when STATE = DECODING
(10 R23, R24). -/
def Obligations.StatusWordFields : Prop :=
  ∀ s : State,
    (s.callState = .unopened ↔ s.statusWord.extractLsb' 0 3 = 0) ∧
    (s.callState = .headerParsed ↔ s.statusWord.extractLsb' 0 3 = 1) ∧
    (s.callState = .decoding ↔ s.statusWord.extractLsb' 0 3 = 2) ∧
    (s.callState = .complete ↔ s.statusWord.extractLsb' 0 3 = 3) ∧
    (s.callState = .failed ↔ s.statusWord.extractLsb' 0 3 = 4) ∧
    s.statusWord.getLsbD 3 = decide (s.callState = .decoding) ∧
    s.statusWord.getLsbD 4 = s.hv ∧ s.statusWord.getLsbD 5 = s.ign ∧
    s.statusWord.extractLsb' 6 2 = 0 ∧ s.statusWord.extractLsb' 8 4 = s.err ∧
    s.statusWord.extractLsb' 12 4 = s.sub ∧ s.statusWord.extractLsb' 16 4 = s.phase ∧
    s.statusWord.extractLsb' 20 12 = 0

/-- An access to the window that is not a 32-bit access at an aligned offset is refused (10 R37). -/
def Obligations.OddRegisterAccessRefused : Prop :=
  ∀ (s : State) (off : Nat) (bytes : Nat) (op : BusOp), off < 0x100 → (bytes ≠ 4 ∨ off % 4 ≠ 0) →
    s.access (s.plat.mmioBase + BitVec.ofNat 64 off) bytes op = .refused .registerAccess

/-- `poll` ends when the masked value is the wanted one; until then the block steps and the host reads
again (30 R135; the order is one the interleaving of 70 R330 allows, notes/assumptions/18.md). -/
def Obligations.PollReadsUntilMatch : Prop :=
  ∀ (s : State) (off : Nat) (mask v : Word), off < 0x100 → off % 4 = 0 →
    let a := s.plat.mmioBase + BitVec.ofNat 64 off
    s.poll a mask v =
      if s.readReg off &&& mask = v then .next { s with rdata := s.readReg off }
      else .next { s with
        rdata := s.readReg off
        events := .core :: .poll a mask v :: s.events }

/-! ## Reset -/

/-- Applying the reset input, also during a call, puts every register at the value the spec gives it,
leaves ID and CAP_NB as they read, abandons the call and leaves memory as it is; while it is applied the
registers keep these values, and memory changes only by a host store, in its byte; a system reset applies it to every
instance at once (10 R48, 70 R310, R311). The event list, `stuck` and the platform are the model's own
(notes/assumptions/19.md). -/
def Obligations.ResetLeavesSpecValues : Prop :=
  (∀ (s : State) (rest : List Event), s.events = .applyReset :: rest →
    ∃ t, step s = .next t ∧ t.resetValues ∧ t.resetApplied = true ∧
      t.readReg 0x78 = s.readReg 0x78 ∧ t.readReg 0x7C = s.readReg 0x7C ∧ t.stuck = false ∧
      t.mem = s.mem ∧ t.plat = s.plat ∧ t.events = rest) ∧
  (∀ s t : State, s.resetApplied = true → s.resetValues → step s = .next t →
    t.resetValues ∧ (t.resetApplied = true ∨ s.events.head? = some .releaseReset) ∧
      (t.mem = s.mem ∨ ∃ (a : DWord) (b v : Byte), s.events.head? = some (.store a b) ∧
        t.mem = s.mem.write a.toNat v)) ∧
  (∀ y : System, ∃ z, y.turn .applyReset = .next z ∧ z.mem = y.mem ∧
    z.insts.length = y.insts.length ∧ ∀ s ∈ z.insts, s.resetValues ∧ s.resetApplied = true)

/-- The machine after reset meets every invariant. -/
def Obligations.ResetMeetsInvariants : Prop :=
  State.reset.Inv

/-! ## Invariants every step keeps -/

/-- PHASE is IDLE exactly outside DECODING, ERR and SUB are a pair of 60 R281 in FAILED and 0 elsewhere,
and HV agrees with STATE (10 R23, R40, 40 R158, 60 R281). -/
def Obligations.StatusInvariantKept : Prop :=
  ∀ s t : State, s.statusInv → step s = .next t → t.statusInv

/-- The handle is legal while it is valid and zero while it is not (10 R27 to R32). -/
def Obligations.HandleInvariantKept : Prop :=
  ∀ s t : State, s.handleInv → step s = .next t → t.handleInv

/-- Memory keeps its canonical form (notes/assumptions/4.md), whatever the step. -/
def Obligations.MemoryFormKept : Prop :=
  ∀ s t : State, s.mem.wf = true → step s = .next t → t.mem.wf = true

/-- During a call every counter pair is legal, RANGE is at least `2^24` and above CODE from RC_INIT on,
and RPTR stays inside the stream (41 R182, R187, R188). -/
def Obligations.CoderInvariantKept : Prop :=
  ∀ s t : State, s.statusInv → s.handleInv → s.coderInv → step s = .next t → t.coderInv

/-- During a call VI is the linear index of the position, and the neighbour store holds an entry for
every voxel before it (10 R44, R46, 43 R241, R245). -/
def Obligations.PositionInvariantKept : Prop :=
  ∀ s t : State, s.statusInv → s.handleInv → s.positionInv → step s = .next t → t.positionInv

/-- During a call the prediction, the bound, the magnitude and U are in the ranges of 42 R215 and R219,
phase by phase. -/
def Obligations.ResidualInvariantKept : Prop :=
  ∀ s t : State, s.statusInv → s.handleInv → s.residualInv → step s = .next t → t.residualInv

/-- A call ends: every step the block takes in a call lowers the number of steps it can still take, or
ends the call, or finds the block stuck; and that number is at most `2 + (P + 5) * nvoxels`
(43 R259, 70 R331). -/
def Obligations.CallStepsAreBounded : Prop :=
  ∀ s t : State, s.Inv → s.callState = .decoding → s.stuck = false → s.coreNext →
    s.stepsLeft ≤ 2 + (s.precision + 5) * s.handle.nvox.toNat ∧
    (step s = .next t → t.callState ≠ .decoding ∨ t.stuck = true ∨ t.stepsLeft < s.stepsLeft)

/-! ## Rules of the whole machine -/

/-- The handle and HV change only by an OPEN written to CTRL outside DECODING or by reset (10 R27). -/
def Obligations.HandleChangesOnlyByOpenOrReset : Prop :=
  ∀ s t : State, step s = .next t →
    (t.handle = s.handle ∧ t.hv = s.hv) ∨ s.events.head? = some .applyReset ∨
      (s.callState ≠ .decoding ∧ ∃ v, decodeCtrl v = .openStream ∧ s.ctrlNext v)

/-- System memory changes only by a host store, in the byte stored to (20 R82), or by EMIT, in the bytes
of element VI (20 R74). -/
def Obligations.MemoryWrittenOnlyByEmitAndHost : Prop :=
  ∀ s t : State, s.mem.wf = true → step s = .next t →
    t.mem = s.mem ∨
      (∃ a b, s.events.head? = some (.store a b) ∧
        ∀ x : DWord, x ≠ a → t.mem.read x.toNat = s.mem.read x.toNat) ∨
      (s.coreNext ∧ s.phase = 8 ∧
        ∀ x : DWord,
          (∀ k < elemBytes s.handle.typ,
            x ≠ s.cDstBase + BitVec.ofNat 64 (s.vi.toNat * elemBytes s.handle.typ) +
              BitVec.ofNat 64 k) →
          t.mem.read x.toNat = s.mem.read x.toNat)

/-- A running call does not depend on the host's registers: SRC_* and DST_* are read only when a
command is accepted (10 R25, R26, R41). -/
def Obligations.PhaseStepsIgnoreHostRegisters : Prop :=
  ∀ (i : Instr) (s : State) (r : HostRegs), i.format = .phase →
    exec i { s with regs := r } =
      match exec i s with
      | .next t => .next { t with regs := r }
      | .fault f => .fault f
      | .refused x => .refused x

/-- A step of one instance changes no register of another; they share only system memory (60 R298).
Two fields of the model's own follow other agents (notes/assumptions/26.md): a host store, whichever
instance's event it is, may add its address to the ones raced on in another's running call (20 R85,
R86), and after the step every running call has noted the destinations of the calls that run at once
with it (20 R87). -/
def Obligations.InstancesShareOnlyMemory : Prop :=
  (∀ (y z : System) (n m : Nat) (s : State), y.step n = .next z → m ≠ n → y.insts[m]? = some s →
    ∃ (raced : List DWord) (clash : List Region),
      z.insts[m]? = some { s with raced := raced, clash := clash } ∧
      (raced = s.raced ∨ ∃ a b, raced = addRaced s.raced a ∧
        (y.insts[n]?.bind fun i => i.events.head?) = some (.store a b)) ∧
      (s.callState ≠ .decoding → clash = s.clash) ∧ ∀ r ∈ s.clash, r ∈ clash) ∧
  (∀ (y z : System) (n i j : Nat) (u v : State), y.step n = .next z → n < y.insts.length → i ≠ j →
    z.insts[i]? = some u → z.insts[j]? = some v → u.callState = .decoding →
    v.callState = .decoding → v.asCall.dest ∈ u.clash)

/-! ## Stops -/

/-- The PHASE values 10 to 15, which the spec says are never entered (10 R40, 93 I10), stop by name; the
stop is the model's choice (notes/assumptions/13.md). -/
def Obligations.UnusedPhasesStop : Prop :=
  ∀ (p : BitVec 4) (s : State),
    exec (.unusedLow p) s = .fault .unusedPhase ∧ exec (.unusedHigh p) s = .fault .unusedPhase

/-- REF stops by name exactly at plane 63, which has no context (30 R118); the stop is the model's
reading (notes/assumptions/14.md). -/
def Obligations.RefStopsOnlyAtPlane63 : Prop :=
  ∀ s : State, exec .ref s = .fault .noContext ↔ s.call.plane = 63
end

