-- ==== Sys2Proof/Laws/State.lean ====
section
/-! SUPPORT. One lemma per field per named update of the state, so that no proof unfolds an update. -/

namespace Sys2Proof.Machine

/-! ## endCall -/

@[simp] theorem State.endCall_regs (s : State) (c : CallState) : (s.endCall c).regs = s.regs := rfl
@[simp] theorem State.endCall_handle (s : State) (c : CallState) :
    (s.endCall c).handle = s.handle := rfl
@[simp] theorem State.endCall_callState (s : State) (c : CallState) :
    (s.endCall c).callState = c := rfl
@[simp] theorem State.endCall_hv (s : State) (c : CallState) : (s.endCall c).hv = s.hv := rfl
@[simp] theorem State.endCall_ign (s : State) (c : CallState) : (s.endCall c).ign = s.ign := rfl
@[simp] theorem State.endCall_err (s : State) (c : CallState) : (s.endCall c).err = s.err := rfl
@[simp] theorem State.endCall_sub (s : State) (c : CallState) : (s.endCall c).sub = s.sub := rfl
@[simp] theorem State.endCall_phase (s : State) (c : CallState) : (s.endCall c).phase = 0 := rfl
@[simp] theorem State.endCall_vi (s : State) (c : CallState) : (s.endCall c).vi = s.vi := rfl
@[simp] theorem State.endCall_rptr (s : State) (c : CallState) : (s.endCall c).rptr = s.rptr := rfl
@[simp] theorem State.endCall_cDstBase (s : State) (c : CallState) :
    (s.endCall c).cDstBase = s.cDstBase := rfl
@[simp] theorem State.endCall_call (s : State) (c : CallState) :
    (s.endCall c).call = CallRegs.unspecified s.free := rfl
@[simp] theorem State.endCall_mem (s : State) (c : CallState) : (s.endCall c).mem = s.mem := rfl
@[simp] theorem State.endCall_stuck (s : State) (c : CallState) :
    (s.endCall c).stuck = s.stuck := rfl
@[simp] theorem State.endCall_resetApplied (s : State) (c : CallState) :
    (s.endCall c).resetApplied = s.resetApplied := rfl
@[simp] theorem State.endCall_raced (s : State) (c : CallState) :
    (s.endCall c).raced = s.raced := rfl
@[simp] theorem State.endCall_clash (s : State) (c : CallState) :
    (s.endCall c).clash = s.clash := rfl
@[simp] theorem State.endCall_stale (s : State) (c : CallState) :
    (s.endCall c).stale = s.stale := rfl
@[simp] theorem State.endCall_peers (s : State) (c : CallState) :
    (s.endCall c).peers = s.peers := rfl
@[simp] theorem State.endCall_free (s : State) (c : CallState) :
    (s.endCall c).free = s.free + 1 := rfl
@[simp] theorem State.endCall_events (s : State) (c : CallState) :
    (s.endCall c).events = s.events := rfl
@[simp] theorem State.endCall_rdata (s : State) (c : CallState) :
    (s.endCall c).rdata = s.rdata := rfl
@[simp] theorem State.endCall_plat (s : State) (c : CallState) : (s.endCall c).plat = s.plat := rfl

/-! ## raise -/

@[simp] theorem State.raise_regs (s : State) (e : Cause) : (s.raise e).regs = s.regs := rfl
@[simp] theorem State.raise_handle (s : State) (e : Cause) : (s.raise e).handle = s.handle := rfl
@[simp] theorem State.raise_callState (s : State) (e : Cause) :
    (s.raise e).callState = .failed := rfl
@[simp] theorem State.raise_hv (s : State) (e : Cause) : (s.raise e).hv = s.hv := rfl
@[simp] theorem State.raise_ign (s : State) (e : Cause) : (s.raise e).ign = s.ign := rfl
@[simp] theorem State.raise_err (s : State) (e : Cause) : (s.raise e).err = e.err := rfl
@[simp] theorem State.raise_sub (s : State) (e : Cause) : (s.raise e).sub = e.sub := rfl
@[simp] theorem State.raise_phase (s : State) (e : Cause) : (s.raise e).phase = 0 := rfl
@[simp] theorem State.raise_vi (s : State) (e : Cause) : (s.raise e).vi = s.vi := rfl
@[simp] theorem State.raise_rptr (s : State) (e : Cause) : (s.raise e).rptr = s.rptr := rfl
@[simp] theorem State.raise_cDstBase (s : State) (e : Cause) :
    (s.raise e).cDstBase = s.cDstBase := rfl
@[simp] theorem State.raise_call (s : State) (e : Cause) :
    (s.raise e).call = CallRegs.unspecified s.free := rfl
@[simp] theorem State.raise_mem (s : State) (e : Cause) : (s.raise e).mem = s.mem := rfl
@[simp] theorem State.raise_stuck (s : State) (e : Cause) : (s.raise e).stuck = s.stuck := rfl
@[simp] theorem State.raise_resetApplied (s : State) (e : Cause) :
    (s.raise e).resetApplied = s.resetApplied := rfl
@[simp] theorem State.raise_raced (s : State) (e : Cause) : (s.raise e).raced = s.raced := rfl
@[simp] theorem State.raise_clash (s : State) (e : Cause) : (s.raise e).clash = s.clash := rfl
@[simp] theorem State.raise_stale (s : State) (e : Cause) : (s.raise e).stale = s.stale := rfl
@[simp] theorem State.raise_peers (s : State) (e : Cause) : (s.raise e).peers = s.peers := rfl
@[simp] theorem State.raise_free (s : State) (e : Cause) : (s.raise e).free = s.free + 1 := rfl
@[simp] theorem State.raise_events (s : State) (e : Cause) : (s.raise e).events = s.events := rfl
@[simp] theorem State.raise_rdata (s : State) (e : Cause) : (s.raise e).rdata = s.rdata := rfl
@[simp] theorem State.raise_plat (s : State) (e : Cause) : (s.raise e).plat = s.plat := rfl

/-! ## accept -/

@[simp] theorem State.accept_regs (s : State) : s.accept.regs = s.regs := rfl
@[simp] theorem State.accept_handle (s : State) : s.accept.handle = s.handle := rfl
@[simp] theorem State.accept_callState (s : State) : s.accept.callState = s.callState := rfl
@[simp] theorem State.accept_hv (s : State) : s.accept.hv = s.hv := rfl
@[simp] theorem State.accept_ign (s : State) : s.accept.ign = false := rfl
@[simp] theorem State.accept_err (s : State) : s.accept.err = 0 := rfl
@[simp] theorem State.accept_sub (s : State) : s.accept.sub = 0 := rfl
@[simp] theorem State.accept_phase (s : State) : s.accept.phase = s.phase := rfl
@[simp] theorem State.accept_vi (s : State) : s.accept.vi = s.vi := rfl
@[simp] theorem State.accept_rptr (s : State) : s.accept.rptr = s.rptr := rfl
@[simp] theorem State.accept_cDstBase (s : State) : s.accept.cDstBase = s.cDstBase := rfl
@[simp] theorem State.accept_call (s : State) : s.accept.call = s.call := rfl
@[simp] theorem State.accept_mem (s : State) : s.accept.mem = s.mem := rfl
@[simp] theorem State.accept_stuck (s : State) : s.accept.stuck = s.stuck := rfl
@[simp] theorem State.accept_resetApplied (s : State) :
    s.accept.resetApplied = s.resetApplied := rfl
@[simp] theorem State.accept_raced (s : State) : s.accept.raced = s.raced := rfl
@[simp] theorem State.accept_clash (s : State) : s.accept.clash = s.clash := rfl
@[simp] theorem State.accept_stale (s : State) : s.accept.stale = s.stale := rfl
@[simp] theorem State.accept_peers (s : State) : s.accept.peers = s.peers := rfl
@[simp] theorem State.accept_free (s : State) : s.accept.free = s.free := rfl
@[simp] theorem State.accept_events (s : State) : s.accept.events = s.events := rfl
@[simp] theorem State.accept_rdata (s : State) : s.accept.rdata = s.rdata := rfl
@[simp] theorem State.accept_plat (s : State) : s.accept.plat = s.plat := rfl

/-! ## ignore -/

@[simp] theorem State.ignore_regs (s : State) : s.ignore.regs = s.regs := rfl
@[simp] theorem State.ignore_handle (s : State) : s.ignore.handle = s.handle := rfl
@[simp] theorem State.ignore_callState (s : State) : s.ignore.callState = s.callState := rfl
@[simp] theorem State.ignore_hv (s : State) : s.ignore.hv = s.hv := rfl
@[simp] theorem State.ignore_ign (s : State) : s.ignore.ign = true := rfl
@[simp] theorem State.ignore_err (s : State) : s.ignore.err = s.err := rfl
@[simp] theorem State.ignore_sub (s : State) : s.ignore.sub = s.sub := rfl
@[simp] theorem State.ignore_phase (s : State) : s.ignore.phase = s.phase := rfl
@[simp] theorem State.ignore_vi (s : State) : s.ignore.vi = s.vi := rfl
@[simp] theorem State.ignore_rptr (s : State) : s.ignore.rptr = s.rptr := rfl
@[simp] theorem State.ignore_cDstBase (s : State) : s.ignore.cDstBase = s.cDstBase := rfl
@[simp] theorem State.ignore_call (s : State) : s.ignore.call = s.call := rfl
@[simp] theorem State.ignore_mem (s : State) : s.ignore.mem = s.mem := rfl
@[simp] theorem State.ignore_stuck (s : State) : s.ignore.stuck = s.stuck := rfl
@[simp] theorem State.ignore_resetApplied (s : State) :
    s.ignore.resetApplied = s.resetApplied := rfl
@[simp] theorem State.ignore_raced (s : State) : s.ignore.raced = s.raced := rfl
@[simp] theorem State.ignore_clash (s : State) : s.ignore.clash = s.clash := rfl
@[simp] theorem State.ignore_stale (s : State) : s.ignore.stale = s.stale := rfl
@[simp] theorem State.ignore_peers (s : State) : s.ignore.peers = s.peers := rfl
@[simp] theorem State.ignore_free (s : State) : s.ignore.free = s.free := rfl
@[simp] theorem State.ignore_events (s : State) : s.ignore.events = s.events := rfl
@[simp] theorem State.ignore_rdata (s : State) : s.ignore.rdata = s.rdata := rfl
@[simp] theorem State.ignore_plat (s : State) : s.ignore.plat = s.plat := rfl

/-! ## block -/

@[simp] theorem State.block_regs (s : State) : s.block.regs = s.regs := rfl
@[simp] theorem State.block_handle (s : State) : s.block.handle = s.handle := rfl
@[simp] theorem State.block_callState (s : State) : s.block.callState = s.callState := rfl
@[simp] theorem State.block_hv (s : State) : s.block.hv = s.hv := rfl
@[simp] theorem State.block_ign (s : State) : s.block.ign = s.ign := rfl
@[simp] theorem State.block_err (s : State) : s.block.err = s.err := rfl
@[simp] theorem State.block_sub (s : State) : s.block.sub = s.sub := rfl
@[simp] theorem State.block_phase (s : State) : s.block.phase = s.phase := rfl
@[simp] theorem State.block_vi (s : State) : s.block.vi = s.vi := rfl
@[simp] theorem State.block_rptr (s : State) : s.block.rptr = s.rptr := rfl
@[simp] theorem State.block_cDstBase (s : State) : s.block.cDstBase = s.cDstBase := rfl
@[simp] theorem State.block_call (s : State) : s.block.call = s.call := rfl
@[simp] theorem State.block_mem (s : State) : s.block.mem = s.mem := rfl
@[simp] theorem State.block_stuck (s : State) : s.block.stuck = true := rfl
@[simp] theorem State.block_resetApplied (s : State) : s.block.resetApplied = s.resetApplied := rfl
@[simp] theorem State.block_raced (s : State) : s.block.raced = s.raced := rfl
@[simp] theorem State.block_clash (s : State) : s.block.clash = s.clash := rfl
@[simp] theorem State.block_stale (s : State) : s.block.stale = s.stale := rfl
@[simp] theorem State.block_peers (s : State) : s.block.peers = s.peers := rfl
@[simp] theorem State.block_free (s : State) : s.block.free = s.free := rfl
@[simp] theorem State.block_events (s : State) : s.block.events = s.events := rfl
@[simp] theorem State.block_rdata (s : State) : s.block.rdata = s.rdata := rfl
@[simp] theorem State.block_plat (s : State) : s.block.plat = s.plat := rfl

/-! ## dropHandle -/

@[simp] theorem State.dropHandle_regs (s : State) : s.dropHandle.regs = s.regs := rfl
@[simp] theorem State.dropHandle_handle (s : State) : s.dropHandle.handle = Handle.cleared := rfl
@[simp] theorem State.dropHandle_callState (s : State) : s.dropHandle.callState = s.callState := rfl
@[simp] theorem State.dropHandle_hv (s : State) : s.dropHandle.hv = false := rfl
@[simp] theorem State.dropHandle_ign (s : State) : s.dropHandle.ign = s.ign := rfl
@[simp] theorem State.dropHandle_err (s : State) : s.dropHandle.err = s.err := rfl
@[simp] theorem State.dropHandle_sub (s : State) : s.dropHandle.sub = s.sub := rfl
@[simp] theorem State.dropHandle_phase (s : State) : s.dropHandle.phase = s.phase := rfl
@[simp] theorem State.dropHandle_vi (s : State) : s.dropHandle.vi = s.vi := rfl
@[simp] theorem State.dropHandle_rptr (s : State) : s.dropHandle.rptr = s.rptr := rfl
@[simp] theorem State.dropHandle_cDstBase (s : State) : s.dropHandle.cDstBase = s.cDstBase := rfl
@[simp] theorem State.dropHandle_call (s : State) : s.dropHandle.call = s.call := rfl
@[simp] theorem State.dropHandle_mem (s : State) : s.dropHandle.mem = s.mem := rfl
@[simp] theorem State.dropHandle_stuck (s : State) : s.dropHandle.stuck = s.stuck := rfl
@[simp] theorem State.dropHandle_resetApplied (s : State) :
    s.dropHandle.resetApplied = s.resetApplied := rfl
@[simp] theorem State.dropHandle_raced (s : State) : s.dropHandle.raced = s.raced := rfl
@[simp] theorem State.dropHandle_clash (s : State) : s.dropHandle.clash = s.clash := rfl
@[simp] theorem State.dropHandle_stale (s : State) : s.dropHandle.stale = s.stale := rfl
@[simp] theorem State.dropHandle_peers (s : State) : s.dropHandle.peers = s.peers := rfl
@[simp] theorem State.dropHandle_free (s : State) : s.dropHandle.free = s.free := rfl
@[simp] theorem State.dropHandle_events (s : State) : s.dropHandle.events = s.events := rfl
@[simp] theorem State.dropHandle_rdata (s : State) : s.dropHandle.rdata = s.rdata := rfl
@[simp] theorem State.dropHandle_plat (s : State) : s.dropHandle.plat = s.plat := rfl

/-! ## shiftIn -/

@[simp] theorem State.shiftIn_regs (s : State) (b : Byte) : (s.shiftIn b).regs = s.regs := rfl
@[simp] theorem State.shiftIn_handle (s : State) (b : Byte) : (s.shiftIn b).handle = s.handle := rfl
@[simp] theorem State.shiftIn_callState (s : State) (b : Byte) :
    (s.shiftIn b).callState = s.callState := rfl
@[simp] theorem State.shiftIn_hv (s : State) (b : Byte) : (s.shiftIn b).hv = s.hv := rfl
@[simp] theorem State.shiftIn_ign (s : State) (b : Byte) : (s.shiftIn b).ign = s.ign := rfl
@[simp] theorem State.shiftIn_err (s : State) (b : Byte) : (s.shiftIn b).err = s.err := rfl
@[simp] theorem State.shiftIn_sub (s : State) (b : Byte) : (s.shiftIn b).sub = s.sub := rfl
@[simp] theorem State.shiftIn_phase (s : State) (b : Byte) : (s.shiftIn b).phase = s.phase := rfl
@[simp] theorem State.shiftIn_vi (s : State) (b : Byte) : (s.shiftIn b).vi = s.vi := rfl
@[simp] theorem State.shiftIn_rptr (s : State) (b : Byte) : (s.shiftIn b).rptr = s.rptr := rfl
@[simp] theorem State.shiftIn_cDstBase (s : State) (b : Byte) :
    (s.shiftIn b).cDstBase = s.cDstBase := rfl
@[simp] theorem State.shiftIn_call (s : State) (b : Byte) :
    (s.shiftIn b).call = s.call.shiftIn b := rfl
@[simp] theorem State.shiftIn_mem (s : State) (b : Byte) : (s.shiftIn b).mem = s.mem := rfl
@[simp] theorem State.shiftIn_stuck (s : State) (b : Byte) : (s.shiftIn b).stuck = s.stuck := rfl
@[simp] theorem State.shiftIn_resetApplied (s : State) (b : Byte) :
    (s.shiftIn b).resetApplied = s.resetApplied := rfl
@[simp] theorem State.shiftIn_raced (s : State) (b : Byte) : (s.shiftIn b).raced = s.raced := rfl
@[simp] theorem State.shiftIn_clash (s : State) (b : Byte) : (s.shiftIn b).clash = s.clash := rfl
@[simp] theorem State.shiftIn_stale (s : State) (b : Byte) : (s.shiftIn b).stale = s.stale := rfl
@[simp] theorem State.shiftIn_peers (s : State) (b : Byte) : (s.shiftIn b).peers = s.peers := rfl
@[simp] theorem State.shiftIn_free (s : State) (b : Byte) : (s.shiftIn b).free = s.free := rfl
@[simp] theorem State.shiftIn_events (s : State) (b : Byte) : (s.shiftIn b).events = s.events := rfl
@[simp] theorem State.shiftIn_rdata (s : State) (b : Byte) : (s.shiftIn b).rdata = s.rdata := rfl
@[simp] theorem State.shiftIn_plat (s : State) (b : Byte) : (s.shiftIn b).plat = s.plat := rfl

/-! ## hostRead -/

@[simp] theorem State.hostRead_regs (s : State) (off : Nat) : (s.hostRead off).regs = s.regs := rfl
@[simp] theorem State.hostRead_handle (s : State) (off : Nat) :
    (s.hostRead off).handle = s.handle := rfl
@[simp] theorem State.hostRead_callState (s : State) (off : Nat) :
    (s.hostRead off).callState = s.callState := rfl
@[simp] theorem State.hostRead_hv (s : State) (off : Nat) : (s.hostRead off).hv = s.hv := rfl
@[simp] theorem State.hostRead_ign (s : State) (off : Nat) : (s.hostRead off).ign = s.ign := rfl
@[simp] theorem State.hostRead_err (s : State) (off : Nat) : (s.hostRead off).err = s.err := rfl
@[simp] theorem State.hostRead_sub (s : State) (off : Nat) : (s.hostRead off).sub = s.sub := rfl
@[simp] theorem State.hostRead_phase (s : State) (off : Nat) :
    (s.hostRead off).phase = s.phase := rfl
@[simp] theorem State.hostRead_vi (s : State) (off : Nat) : (s.hostRead off).vi = s.vi := rfl
@[simp] theorem State.hostRead_rptr (s : State) (off : Nat) : (s.hostRead off).rptr = s.rptr := rfl
@[simp] theorem State.hostRead_cDstBase (s : State) (off : Nat) :
    (s.hostRead off).cDstBase = s.cDstBase := rfl
@[simp] theorem State.hostRead_call (s : State) (off : Nat) : (s.hostRead off).call = s.call := rfl
@[simp] theorem State.hostRead_mem (s : State) (off : Nat) : (s.hostRead off).mem = s.mem := rfl
@[simp] theorem State.hostRead_stuck (s : State) (off : Nat) :
    (s.hostRead off).stuck = s.stuck := rfl
@[simp] theorem State.hostRead_resetApplied (s : State) (off : Nat) :
    (s.hostRead off).resetApplied = s.resetApplied := rfl
@[simp] theorem State.hostRead_raced (s : State) (off : Nat) :
    (s.hostRead off).raced = s.raced := rfl
@[simp] theorem State.hostRead_clash (s : State) (off : Nat) :
    (s.hostRead off).clash = s.clash := rfl
@[simp] theorem State.hostRead_stale (s : State) (off : Nat) :
    (s.hostRead off).stale = s.stale := rfl
@[simp] theorem State.hostRead_peers (s : State) (off : Nat) :
    (s.hostRead off).peers = s.peers := rfl
@[simp] theorem State.hostRead_free (s : State) (off : Nat) : (s.hostRead off).free = s.free := rfl
@[simp] theorem State.hostRead_events (s : State) (off : Nat) :
    (s.hostRead off).events = s.events := rfl
@[simp] theorem State.hostRead_rdata (s : State) (off : Nat) :
    (s.hostRead off).rdata = s.readReg off := rfl
@[simp] theorem State.hostRead_plat (s : State) (off : Nat) : (s.hostRead off).plat = s.plat := rfl

/-! ## emitAdvance -/

@[simp] theorem State.emitAdvance_regs (s : State) : s.emitAdvance.regs = s.regs := rfl
@[simp] theorem State.emitAdvance_handle (s : State) : s.emitAdvance.handle = s.handle := rfl
@[simp] theorem State.emitAdvance_callState (s : State) :
    s.emitAdvance.callState = s.callState := rfl
@[simp] theorem State.emitAdvance_hv (s : State) : s.emitAdvance.hv = s.hv := rfl
@[simp] theorem State.emitAdvance_ign (s : State) : s.emitAdvance.ign = s.ign := rfl
@[simp] theorem State.emitAdvance_err (s : State) : s.emitAdvance.err = s.err := rfl
@[simp] theorem State.emitAdvance_sub (s : State) : s.emitAdvance.sub = s.sub := rfl
@[simp] theorem State.emitAdvance_phase (s : State) :
    s.emitAdvance.phase = if s.vi + 1 = s.handle.nvox then 9 else 2 := rfl
@[simp] theorem State.emitAdvance_vi (s : State) : s.emitAdvance.vi = s.vi + 1 := rfl
@[simp] theorem State.emitAdvance_rptr (s : State) : s.emitAdvance.rptr = s.rptr := rfl
@[simp] theorem State.emitAdvance_cDstBase (s : State) : s.emitAdvance.cDstBase = s.cDstBase := rfl
@[simp] theorem State.emitAdvance_call (s : State) :
    s.emitAdvance.call = advance s.handle { s.call with nb := s.call.nb.put s.vi.toNat s.call.u } := rfl
@[simp] theorem State.emitAdvance_mem (s : State) : s.emitAdvance.mem = s.mem := rfl
@[simp] theorem State.emitAdvance_stuck (s : State) : s.emitAdvance.stuck = s.stuck := rfl
@[simp] theorem State.emitAdvance_resetApplied (s : State) :
    s.emitAdvance.resetApplied = s.resetApplied := rfl
@[simp] theorem State.emitAdvance_raced (s : State) : s.emitAdvance.raced = s.raced := rfl
@[simp] theorem State.emitAdvance_clash (s : State) : s.emitAdvance.clash = s.clash := rfl
@[simp] theorem State.emitAdvance_stale (s : State) : s.emitAdvance.stale = s.stale := rfl
@[simp] theorem State.emitAdvance_peers (s : State) : s.emitAdvance.peers = s.peers := rfl
@[simp] theorem State.emitAdvance_free (s : State) : s.emitAdvance.free = s.free := rfl
@[simp] theorem State.emitAdvance_events (s : State) : s.emitAdvance.events = s.events := rfl
@[simp] theorem State.emitAdvance_rdata (s : State) : s.emitAdvance.rdata = s.rdata := rfl
@[simp] theorem State.emitAdvance_plat (s : State) : s.emitAdvance.plat = s.plat := rfl

/-! ## withPhase -/

@[simp] theorem State.withPhase_regs (s : State) (p : BitVec 4) :
    (s.withPhase p).regs = s.regs := rfl
@[simp] theorem State.withPhase_handle (s : State) (p : BitVec 4) :
    (s.withPhase p).handle = s.handle := rfl
@[simp] theorem State.withPhase_callState (s : State) (p : BitVec 4) :
    (s.withPhase p).callState = s.callState := rfl
@[simp] theorem State.withPhase_hv (s : State) (p : BitVec 4) : (s.withPhase p).hv = s.hv := rfl
@[simp] theorem State.withPhase_ign (s : State) (p : BitVec 4) : (s.withPhase p).ign = s.ign := rfl
@[simp] theorem State.withPhase_err (s : State) (p : BitVec 4) : (s.withPhase p).err = s.err := rfl
@[simp] theorem State.withPhase_sub (s : State) (p : BitVec 4) : (s.withPhase p).sub = s.sub := rfl
@[simp] theorem State.withPhase_phase (s : State) (p : BitVec 4) : (s.withPhase p).phase = p := rfl
@[simp] theorem State.withPhase_vi (s : State) (p : BitVec 4) : (s.withPhase p).vi = s.vi := rfl
@[simp] theorem State.withPhase_rptr (s : State) (p : BitVec 4) :
    (s.withPhase p).rptr = s.rptr := rfl
@[simp] theorem State.withPhase_cDstBase (s : State) (p : BitVec 4) :
    (s.withPhase p).cDstBase = s.cDstBase := rfl
@[simp] theorem State.withPhase_call (s : State) (p : BitVec 4) :
    (s.withPhase p).call = s.call := rfl
@[simp] theorem State.withPhase_mem (s : State) (p : BitVec 4) : (s.withPhase p).mem = s.mem := rfl
@[simp] theorem State.withPhase_stuck (s : State) (p : BitVec 4) :
    (s.withPhase p).stuck = false := rfl
@[simp] theorem State.withPhase_resetApplied (s : State) (p : BitVec 4) :
    (s.withPhase p).resetApplied = false := rfl
@[simp] theorem State.withPhase_raced (s : State) (p : BitVec 4) :
    (s.withPhase p).raced = s.raced := rfl
@[simp] theorem State.withPhase_clash (s : State) (p : BitVec 4) :
    (s.withPhase p).clash = s.clash := rfl
@[simp] theorem State.withPhase_stale (s : State) (p : BitVec 4) :
    (s.withPhase p).stale = s.stale := rfl
@[simp] theorem State.withPhase_peers (s : State) (p : BitVec 4) :
    (s.withPhase p).peers = s.peers := rfl
@[simp] theorem State.withPhase_free (s : State) (p : BitVec 4) :
    (s.withPhase p).free = s.free := rfl
@[simp] theorem State.withPhase_events (s : State) (p : BitVec 4) :
    (s.withPhase p).events = .core :: s.events := rfl
@[simp] theorem State.withPhase_rdata (s : State) (p : BitVec 4) :
    (s.withPhase p).rdata = s.rdata := rfl
@[simp] theorem State.withPhase_plat (s : State) (p : BitVec 4) :
    (s.withPhase p).plat = s.plat := rfl

/-! ## withCtrlWord -/

@[simp] theorem State.withCtrlWord_regs (s : State) (v : Word) :
    (s.withCtrlWord v).regs = s.regs := rfl
@[simp] theorem State.withCtrlWord_handle (s : State) (v : Word) :
    (s.withCtrlWord v).handle = s.handle := rfl
@[simp] theorem State.withCtrlWord_callState (s : State) (v : Word) :
    (s.withCtrlWord v).callState = s.callState := rfl
@[simp] theorem State.withCtrlWord_hv (s : State) (v : Word) : (s.withCtrlWord v).hv = s.hv := rfl
@[simp] theorem State.withCtrlWord_ign (s : State) (v : Word) :
    (s.withCtrlWord v).ign = s.ign := rfl
@[simp] theorem State.withCtrlWord_err (s : State) (v : Word) :
    (s.withCtrlWord v).err = s.err := rfl
@[simp] theorem State.withCtrlWord_sub (s : State) (v : Word) :
    (s.withCtrlWord v).sub = s.sub := rfl
@[simp] theorem State.withCtrlWord_phase (s : State) (v : Word) :
    (s.withCtrlWord v).phase = s.phase := rfl
@[simp] theorem State.withCtrlWord_vi (s : State) (v : Word) : (s.withCtrlWord v).vi = s.vi := rfl
@[simp] theorem State.withCtrlWord_rptr (s : State) (v : Word) :
    (s.withCtrlWord v).rptr = s.rptr := rfl
@[simp] theorem State.withCtrlWord_cDstBase (s : State) (v : Word) :
    (s.withCtrlWord v).cDstBase = s.cDstBase := rfl
@[simp] theorem State.withCtrlWord_call (s : State) (v : Word) :
    (s.withCtrlWord v).call = s.call := rfl
@[simp] theorem State.withCtrlWord_mem (s : State) (v : Word) :
    (s.withCtrlWord v).mem = s.mem := rfl
@[simp] theorem State.withCtrlWord_stuck (s : State) (v : Word) :
    (s.withCtrlWord v).stuck = false := rfl
@[simp] theorem State.withCtrlWord_resetApplied (s : State) (v : Word) :
    (s.withCtrlWord v).resetApplied = false := rfl
@[simp] theorem State.withCtrlWord_raced (s : State) (v : Word) :
    (s.withCtrlWord v).raced = s.raced := rfl
@[simp] theorem State.withCtrlWord_clash (s : State) (v : Word) :
    (s.withCtrlWord v).clash = s.clash := rfl
@[simp] theorem State.withCtrlWord_stale (s : State) (v : Word) :
    (s.withCtrlWord v).stale = s.stale := rfl
@[simp] theorem State.withCtrlWord_peers (s : State) (v : Word) :
    (s.withCtrlWord v).peers = s.peers := rfl
@[simp] theorem State.withCtrlWord_free (s : State) (v : Word) :
    (s.withCtrlWord v).free = s.free := rfl
@[simp] theorem State.withCtrlWord_rdata (s : State) (v : Word) :
    (s.withCtrlWord v).rdata = s.rdata := rfl
@[simp] theorem State.withCtrlWord_plat (s : State) (v : Word) :
    (s.withCtrlWord v).plat = s.plat := rfl

/-! ## endReset -/

@[simp] theorem State.endReset_regs (s : State) : s.endReset.regs = s.regs := rfl
@[simp] theorem State.endReset_handle (s : State) : s.endReset.handle = s.handle := rfl
@[simp] theorem State.endReset_callState (s : State) : s.endReset.callState = s.callState := rfl
@[simp] theorem State.endReset_hv (s : State) : s.endReset.hv = s.hv := rfl
@[simp] theorem State.endReset_ign (s : State) : s.endReset.ign = s.ign := rfl
@[simp] theorem State.endReset_err (s : State) : s.endReset.err = s.err := rfl
@[simp] theorem State.endReset_sub (s : State) : s.endReset.sub = s.sub := rfl
@[simp] theorem State.endReset_phase (s : State) : s.endReset.phase = s.phase := rfl
@[simp] theorem State.endReset_vi (s : State) : s.endReset.vi = s.vi := rfl
@[simp] theorem State.endReset_rptr (s : State) : s.endReset.rptr = s.rptr := rfl
@[simp] theorem State.endReset_cDstBase (s : State) : s.endReset.cDstBase = s.cDstBase := rfl
@[simp] theorem State.endReset_call (s : State) : s.endReset.call = s.call := rfl
@[simp] theorem State.endReset_mem (s : State) : s.endReset.mem = s.mem := rfl
@[simp] theorem State.endReset_stuck (s : State) : s.endReset.stuck = s.stuck := rfl
@[simp] theorem State.endReset_resetApplied (s : State) : s.endReset.resetApplied = false := rfl
@[simp] theorem State.endReset_raced (s : State) : s.endReset.raced = s.raced := rfl
@[simp] theorem State.endReset_clash (s : State) : s.endReset.clash = s.clash := rfl
@[simp] theorem State.endReset_stale (s : State) : s.endReset.stale = s.stale := rfl
@[simp] theorem State.endReset_peers (s : State) : s.endReset.peers = s.peers := rfl
@[simp] theorem State.endReset_free (s : State) : s.endReset.free = s.free := rfl
@[simp] theorem State.endReset_events (s : State) : s.endReset.events = s.events := rfl
@[simp] theorem State.endReset_rdata (s : State) : s.endReset.rdata = s.rdata := rfl
@[simp] theorem State.endReset_plat (s : State) : s.endReset.plat = s.plat := rfl

/-! ## park -/

@[simp] theorem State.park_regs (s : State) : s.park.regs = s.regs := rfl
@[simp] theorem State.park_handle (s : State) : s.park.handle = s.handle := rfl
@[simp] theorem State.park_callState (s : State) : s.park.callState = s.callState := rfl
@[simp] theorem State.park_hv (s : State) : s.park.hv = s.hv := rfl
@[simp] theorem State.park_ign (s : State) : s.park.ign = s.ign := rfl
@[simp] theorem State.park_err (s : State) : s.park.err = s.err := rfl
@[simp] theorem State.park_sub (s : State) : s.park.sub = s.sub := rfl
@[simp] theorem State.park_phase (s : State) : s.park.phase = s.phase := rfl
@[simp] theorem State.park_vi (s : State) : s.park.vi = s.vi := rfl
@[simp] theorem State.park_rptr (s : State) : s.park.rptr = s.rptr := rfl
@[simp] theorem State.park_cDstBase (s : State) : s.park.cDstBase = s.cDstBase := rfl
@[simp] theorem State.park_call (s : State) : s.park.call = s.call := rfl
@[simp] theorem State.park_mem (s : State) : s.park.mem = [] := rfl
@[simp] theorem State.park_stuck (s : State) : s.park.stuck = s.stuck := rfl
@[simp] theorem State.park_resetApplied (s : State) : s.park.resetApplied = s.resetApplied := rfl
@[simp] theorem State.park_raced (s : State) : s.park.raced = s.raced := rfl
@[simp] theorem State.park_clash (s : State) : s.park.clash = s.clash := rfl
@[simp] theorem State.park_stale (s : State) : s.park.stale = s.stale := rfl
@[simp] theorem State.park_peers (s : State) : s.park.peers = [] := rfl
@[simp] theorem State.park_free (s : State) : s.park.free = s.free := rfl
@[simp] theorem State.park_events (s : State) : s.park.events = s.events := rfl
@[simp] theorem State.park_rdata (s : State) : s.park.rdata = s.rdata := rfl
@[simp] theorem State.park_plat (s : State) : s.park.plat = s.plat := rfl

/-! ## afterDecision -/

@[simp] theorem State.afterDecision_regs (s : State) (j : Fin Config.nctx) :
    (s.afterDecision j).regs = s.regs := rfl
@[simp] theorem State.afterDecision_handle (s : State) (j : Fin Config.nctx) :
    (s.afterDecision j).handle = s.handle := rfl
@[simp] theorem State.afterDecision_callState (s : State) (j : Fin Config.nctx) :
    (s.afterDecision j).callState = s.callState := rfl
@[simp] theorem State.afterDecision_hv (s : State) (j : Fin Config.nctx) :
    (s.afterDecision j).hv = s.hv := rfl
@[simp] theorem State.afterDecision_ign (s : State) (j : Fin Config.nctx) :
    (s.afterDecision j).ign = s.ign := rfl
@[simp] theorem State.afterDecision_err (s : State) (j : Fin Config.nctx) :
    (s.afterDecision j).err = s.err := rfl
@[simp] theorem State.afterDecision_sub (s : State) (j : Fin Config.nctx) :
    (s.afterDecision j).sub = s.sub := rfl
@[simp] theorem State.afterDecision_phase (s : State) (j : Fin Config.nctx) :
    (s.afterDecision j).phase = s.phase := rfl
@[simp] theorem State.afterDecision_vi (s : State) (j : Fin Config.nctx) :
    (s.afterDecision j).vi = s.vi := rfl
@[simp] theorem State.afterDecision_rptr (s : State) (j : Fin Config.nctx) :
    (s.afterDecision j).rptr = s.rptr + BitVec.ofNat 64 (s.call.shifts j) := rfl
@[simp] theorem State.afterDecision_cDstBase (s : State) (j : Fin Config.nctx) :
    (s.afterDecision j).cDstBase = s.cDstBase := rfl
@[simp] theorem State.afterDecision_mem (s : State) (j : Fin Config.nctx) :
    (s.afterDecision j).mem = s.mem := rfl
@[simp] theorem State.afterDecision_stuck (s : State) (j : Fin Config.nctx) :
    (s.afterDecision j).stuck = s.stuck := rfl
@[simp] theorem State.afterDecision_resetApplied (s : State) (j : Fin Config.nctx) :
    (s.afterDecision j).resetApplied = s.resetApplied := rfl
@[simp] theorem State.afterDecision_raced (s : State) (j : Fin Config.nctx) :
    (s.afterDecision j).raced = s.raced := rfl
@[simp] theorem State.afterDecision_clash (s : State) (j : Fin Config.nctx) :
    (s.afterDecision j).clash = s.clash := rfl
@[simp] theorem State.afterDecision_stale (s : State) (j : Fin Config.nctx) :
    (s.afterDecision j).stale = s.stale := rfl
@[simp] theorem State.afterDecision_peers (s : State) (j : Fin Config.nctx) :
    (s.afterDecision j).peers = s.peers := rfl
@[simp] theorem State.afterDecision_free (s : State) (j : Fin Config.nctx) :
    (s.afterDecision j).free = s.free := rfl
@[simp] theorem State.afterDecision_events (s : State) (j : Fin Config.nctx) :
    (s.afterDecision j).events = s.events := rfl
@[simp] theorem State.afterDecision_rdata (s : State) (j : Fin Config.nctx) :
    (s.afterDecision j).rdata = s.rdata := rfl
@[simp] theorem State.afterDecision_plat (s : State) (j : Fin Config.nctx) :
    (s.afterDecision j).plat = s.plat := rfl

end Sys2Proof.Machine
end

