-- ==== Sys2Proof/Laws/Memory.lean ====
section
/-! SUPPORT. The laws of memory and of the neighbour store: a read after a write, and that every
memory operation keeps the canonical form. -/

namespace Sys2Proof.Machine

/-! ## The canonical form -/

theorem Memory.wfFrom_cons (lo k : Nat) (v : Byte) (m : Memory) :
    Memory.wfFrom lo ((k, v) :: m) = true ↔
      lo ≤ k ∧ k < 2 ^ 64 ∧ v ≠ Memory.unlisted ∧ Memory.wfFrom (k + 1) m = true := by
  simp [Memory.wfFrom, and_assoc]

/-- A lower start of the form is weaker. -/
theorem Memory.wfFrom_mono {lo lo' : Nat} (h : lo' ≤ lo) {m : Memory}
    (hm : Memory.wfFrom lo m = true) : Memory.wfFrom lo' m = true := by
  cases m with
  | nil => rfl
  | cons c m =>
    obtain ⟨k, v⟩ := c
    rw [Memory.wfFrom_cons] at hm ⊢
    exact ⟨h.trans hm.1, hm.2⟩

theorem Memory.wf_nil : Memory.wf [] = true := rfl

theorem Memory.wfFrom_write {lo a : Nat} (b : Byte) {m : Memory} (hlo : lo ≤ a) (ha : a < 2 ^ 64)
    (hm : Memory.wfFrom lo m = true) : Memory.wfFrom lo (m.write a b) = true := by
  induction m generalizing lo with
  | nil =>
    unfold Memory.write
    split
    · rfl
    · rw [Memory.wfFrom_cons]; exact ⟨hlo, ha, ‹_›, rfl⟩
  | cons c m ih =>
    obtain ⟨k, v⟩ := c
    rw [Memory.wfFrom_cons] at hm
    obtain ⟨h1, h2, h3, h4⟩ := hm
    unfold Memory.write
    split
    · split
      · rw [Memory.wfFrom_cons]; exact ⟨h1, h2, h3, h4⟩
      · rw [Memory.wfFrom_cons, Memory.wfFrom_cons]
        exact ⟨hlo, ha, ‹_›, by omega, h2, h3, h4⟩
    · split
      · split
        · exact Memory.wfFrom_mono (by omega) h4
        · rw [Memory.wfFrom_cons]; exact ⟨h1, h2, ‹_›, h4⟩
      · rw [Memory.wfFrom_cons]; exact ⟨h1, h2, h3, ih (by omega) h4⟩

/-- A write keeps the canonical form. -/
theorem Memory.wf_write {m : Memory} (a : DWord) (b : Byte) (hm : m.wf = true) :
    (m.write a.toNat b).wf = true :=
  Memory.wfFrom_write b (Nat.zero_le _) a.isLt hm

/-! ## Reads and writes -/

/-- Below the first listed address every byte is the unlisted one. -/
theorem Memory.read_below {lo a : Nat} {m : Memory} (hm : Memory.wfFrom lo m = true) (ha : a < lo) :
    m.read a = Memory.unlisted := by
  induction m generalizing lo with
  | nil => rfl
  | cons c m ih =>
    obtain ⟨k, v⟩ := c
    rw [Memory.wfFrom_cons] at hm
    have hne : k ≠ a := by omega
    simp only [Memory.read, hne, if_false]
    exact ih hm.2.2.2 (by omega)

theorem Memory.read_write_from {lo a x : Nat} (b : Byte) {m : Memory}
    (hm : Memory.wfFrom lo m = true) :
    (m.write a b).read x = if x = a then b else m.read x := by
  induction m generalizing lo with
  | nil =>
    unfold Memory.write
    split
    · split <;> simp_all [Memory.read]
    · by_cases hx : x = a
      · simp [Memory.read, hx]
      · simp [Memory.read, hx, Ne.symm hx]
  | cons c m ih =>
    obtain ⟨k, v⟩ := c
    rw [Memory.wfFrom_cons] at hm
    obtain ⟨-, -, -, h4⟩ := hm
    unfold Memory.write
    split
    · rename_i hak
      split
      · rename_i hb
        by_cases hx : x = a
        · subst hx
          have hne : k ≠ x := by omega
          simp [Memory.read, hne, hb, Memory.read_below h4 (by omega : x < k + 1)]
        · simp [hx]
      · by_cases hx : x = a
        · simp [Memory.read, hx]
        · simp [Memory.read, hx, Ne.symm hx]
    · split
      · rename_i hak
        subst hak
        split
        · rename_i hb
          by_cases hx : x = a
          · subst hx; simp [hb, Memory.read_below h4 (by omega : x < x + 1)]
          · simp [Memory.read, hx, Ne.symm hx]
        · by_cases hx : x = a
          · simp [Memory.read, hx]
          · simp [Memory.read, hx, Ne.symm hx]
      · by_cases hk : k = x
        · subst hk; simp [Memory.read]; omega
        · simp only [Memory.read, hk, if_false]; exact ih h4

/-- The law of memory: a write changes the one byte it writes. -/
theorem Memory.read_write {m : Memory} (hm : m.wf = true) (a x : Nat) (b : Byte) :
    (m.write a b).read x = if x = a then b else m.read x :=
  Memory.read_write_from b hm

/-! ## The block's and the host's writes -/

@[simp] theorem State.storeByte_mem_wf (s : State) (a : DWord) (b : Byte) (h : s.mem.wf = true) :
    (s.storeByte a b).mem.wf = true := by
  unfold State.storeByte
  split <;> exact Memory.wf_write _ _ h

theorem State.storeBytes_mem_wf (s : State) (a : DWord) (bs : List Byte) (h : s.mem.wf = true) :
    (s.storeBytes a bs).mem.wf = true := by
  induction bs generalizing s a with
  | nil => exact h
  | cons b bs ih => exact ih _ _ (s.storeByte_mem_wf a b h)

/-- Placing bytes keeps the canonical form. -/
theorem Memory.wf_place (m : Memory) (a : DWord) (bs : List Byte) (h : m.wf = true) :
    (m.place a bs).wf = true := by
  induction bs generalizing m a with
  | nil => exact h
  | cons b bs ih => exact ih _ _ (Memory.wf_write a b h)

/-- Reset lists nothing. -/
theorem State.reset_mem_wf : State.reset.mem.wf = true := rfl

/-! ## The neighbour store -/

/-- The indices of a neighbour store fall strictly. -/
def NbStore.wf : NbStore → Bool
  | [] => true
  | [_] => true
  | (k, _) :: (j, w) :: m => decide (j < k) && NbStore.wf ((j, w) :: m)

/-- What a stored entry reads as right after it is stored. -/
theorem NbStore.find_put_same (m : NbStore) (j : Nat) (v : DWord) : (m.put j v).find j = some v := by
  induction m with
  | nil => simp [NbStore.put, NbStore.find]
  | cons c m ih =>
    obtain ⟨k, w⟩ := c
    unfold NbStore.put
    split
    · simp [NbStore.find]
    · split
      · simp [NbStore.find]
      · simp [NbStore.find, *]

/-- Storing one entry leaves every other one. -/
theorem NbStore.find_put_other (m : NbStore) {i j : Nat} (v : DWord) (h : i ≠ j) :
    (m.put j v).find i = m.find i := by
  induction m with
  | nil => simp [NbStore.put, NbStore.find, Ne.symm h]
  | cons c m ih =>
    obtain ⟨k, w⟩ := c
    unfold NbStore.put
    split
    · simp [NbStore.find, Ne.symm h]
    · split
      · rename_i hk
        subst hk
        simp [NbStore.find, Ne.symm h]
      · simp [NbStore.find, ih]

/-- Every entry of a store after a put is the new one or was there. -/
theorem NbStore.mem_put {m : NbStore} {j : Nat} {v : DWord} {e : Nat × DWord}
    (h : e ∈ m.put j v) : e = (j, v) ∨ e ∈ m := by
  induction m with
  | nil => simpa [NbStore.put] using h
  | cons c m ih =>
    obtain ⟨k, w⟩ := c
    unfold NbStore.put at h
    split at h
    · simpa using h
    · split at h
      · rcases List.mem_cons.1 h with h | h
        · exact .inl h
        · exact .inr (List.mem_cons_of_mem _ h)
      · rcases List.mem_cons.1 h with h | h
        · exact .inr (h ▸ List.mem_cons_self)
        · exact (ih h).imp_right (List.mem_cons_of_mem _)

end Sys2Proof.Machine
end

