-- ==== Sys2Proof/Laws/Ops.lean ====
section
/-! SUPPORT. What each shared operation can do, said once: the master port, FetchByte, Renormalize,
DecodeBit, the end of a step. Later proofs cite these and do not unfold the operations. -/

namespace Sys2Proof.Machine

variable {s t u : State} {e : Cause} {r : Refusal}

/-! ## Results -/

@[simp] theorem Res.bind_ok {α β : Type} (a : α) (s : State) (f : α → State → Res β) :
    (Res.ok a s).bind f = f a s := rfl

@[simp] theorem Res.bind_raised {α β : Type} (e : Cause) (s : State) (f : α → State → Res β) :
    (Res.raised e s).bind f = .raised e s := rfl

@[simp] theorem Res.bind_stuck {α β : Type} (f : α → State → Res β) :
    (Res.stuck : Res α).bind f = .stuck := rfl

@[simp] theorem Res.bind_refused {α β : Type} (x : Refusal) (f : α → State → Res β) :
    (Res.refused x : Res α).bind f = .refused x := rfl

/-- A sequence of two operations gives a value exactly when both do. -/
theorem Res.bind_eq_ok {α β : Type} {x : Res α} {f : α → State → Res β} {b : β} :
    x.bind f = .ok b u ↔ ∃ a t, x = .ok a t ∧ f a t = .ok b u := by
  cases x <;> simp

/-- A sequence of two operations raises when the first does, or the first gives a value and the
second raises. -/
theorem Res.bind_eq_raised {α β : Type} {x : Res α} {f : α → State → Res β} :
    x.bind f = .raised e u ↔ x = .raised e u ∨ ∃ a t, x = .ok a t ∧ f a t = .raised e u := by
  cases x <;> simp

/-! ## The master port -/

/-- Other agents' calls share a byte where one of them has it in its destination. -/
theorem sharedRead_eq_none {l : List RunningCall} {m : Memory} {a : DWord} {n : Nat} :
    sharedRead l m a n = none ↔ (l.any fun c => regionHas c.dest a) = false := by
  have e : (l.any fun c => regionHas c.dest a) = false ↔
      l.filter (fun c => regionHas c.dest a) = [] := by
    rw [List.any_eq_false, List.filter_eq_nil_iff]
  rw [e]
  unfold sharedRead
  split <;> [simp_all; (split <;> simp_all); simp_all]

/-- The block reads memory's byte exactly at an address that is not contested. -/
theorem State.portByte_eq_none {a : DWord} : s.portByte a = none ↔ s.contested a = false := by
  unfold State.portByte State.contested State.inForeign
  cases s.busy && s.raceOn a <;> simp [sharedRead_eq_none]

/-- A read gives memory's byte, or what other agents leave of it. -/
theorem State.portRead_eq_ok {a : DWord} {b : Byte} :
    s.portRead a = .ok b t ↔
      s.admission a = .memory ∧
        ((s.portByte a = none ∧ b = s.mem.read a.toNat ∧ t = s) ∨
          (s.portByte a = some b ∧ t = { s with free := s.free + 1 })) := by
  unfold State.portRead
  cases s.admission a <;> cases s.portByte a <;> simp <;> tauto

/-- A read changes at most the counter of free values. -/
theorem State.portRead_frame {a : DWord} {b : Byte} (h : s.portRead a = .ok b t) :
    t = { s with free := t.free } := by
  rcases State.portRead_eq_ok.1 h with ⟨-, ⟨-, -, rfl⟩ | ⟨-, rfl⟩⟩ <;> rfl

theorem State.portRead_not_raised {a : DWord} : s.portRead a ≠ .raised e t := by
  unfold State.portRead
  cases s.admission a <;> simp
  split <;> simp

/-- A read of plain memory. -/
theorem State.portRead_plain {a : DWord} (h : s.plain a) :
    s.portRead a = .ok (s.mem.read a.toNat) s := by
  simp [State.portRead, h.1, State.portByte_eq_none.2 h.2]

/-- Reads in a row change at most the counter of free values. -/
theorem State.portReadBytes_frame {a : DWord} {n : Nat} {bs : List Byte}
    (h : s.portReadBytes a n = .ok bs t) : t = { s with free := t.free } := by
  induction n generalizing s a bs with
  | zero => cases h; rfl
  | succ n ih =>
    obtain ⟨b, s1, h1, h2⟩ := Res.bind_eq_ok.1 h
    obtain ⟨cs, s2, h3, h4⟩ := Res.bind_eq_ok.1 h2
    cases h4
    have e1 := State.portRead_frame h1
    have e2 := ih h3
    rw [e2, e1]

theorem State.portReadBytes_not_raised {a : DWord} {n : Nat} :
    s.portReadBytes a n ≠ .raised e t := by
  induction n generalizing s a with
  | zero => simp [State.portReadBytes]
  | succ n ih =>
    intro h
    rcases Res.bind_eq_raised.1 h with h | ⟨b, s1, -, h⟩
    · exact State.portRead_not_raised h
    · rcases Res.bind_eq_raised.1 h with h | ⟨cs, s2, -, h⟩
      · exact ih h
      · cases h

/-- What the block's writes may change: memory, the record of overwritten bytes, and the counter of
free values. -/
abbrev State.memFrame (s t : State) : Prop :=
  t = { s with mem := t.mem, stale := t.stale, free := t.free }

theorem State.storeByte_frame (s : State) (a : DWord) (b : Byte) : s.memFrame (s.storeByte a b) := by
  unfold State.memFrame State.storeByte
  dsimp only
  split <;> rfl

/-- A byte stored to an uncontested address, in closed form. -/
theorem State.storeByte_plain (a : DWord) (b : Byte) (h : s.contested a = false) :
    s.storeByte a b = { s with
      mem := s.mem.write a.toNat b
      stale := noteStale s.stale a (s.mem.read a.toNat) } := by
  unfold State.storeByte
  rw [h]
  rfl

/-- What a stored byte leaves: the byte, or a free value where the address is contested. -/
theorem State.storeByte_mem (s : State) (a : DWord) (b : Byte) :
    (s.storeByte a b).mem =
      s.mem.write a.toNat (if s.contested a = true then s.freeByte else b) := by
  unfold State.storeByte
  cases s.contested a <;> rfl

/-- A recorded byte is the new one or an old one. -/
theorem noteStale_mem {l : List AddrByte} {a : DWord} {b : Byte} {e : AddrByte}
    (h : e ∈ noteStale l a b) : e = (a, b) ∨ e ∈ l := by
  unfold noteStale at h
  split at h
  · exact .inr h
  · exact List.mem_cons.1 h

/-- Whether an address is contested does not depend on memory, on the record of overwritten bytes or on
the free values drawn. -/
theorem State.contested_of_frame {a : DWord} (m : Memory) (l : List AddrByte) (n : Nat) :
    State.contested { s with mem := m, stale := l, free := n } a = s.contested a := rfl

theorem State.memFrame_trans (h1 : s.memFrame t) (h2 : t.memFrame u) : s.memFrame u := by
  unfold State.memFrame at *
  rw [h1] at h2
  exact h2

theorem State.storeBytes_frame (s : State) (a : DWord) (bs : List Byte) :
    s.memFrame (s.storeBytes a bs) := by
  induction bs generalizing s a with
  | nil => rfl
  | cons b bs ih =>
    exact State.memFrame_trans (s.storeByte_frame a b) (ih (s.storeByte a b) (a + 1))

/-- A write is all or nothing. -/
theorem State.portWrite_eq_ok {a : DWord} {bs : List Byte} :
    s.portWrite a bs = .ok () t ↔
      s.admissionRun a bs.length = .memory ∧ t = s.storeBytes a bs := by
  unfold State.portWrite
  cases s.admissionRun a bs.length <;> simp [eq_comm]

theorem State.portWrite_not_raised {a : DWord} {bs : List Byte} :
    s.portWrite a bs ≠ .raised e t := by
  unfold State.portWrite
  cases s.admissionRun a bs.length <;> simp

/-! ## FetchByte (41 R183) -/

/-- A fetched byte moves RPTR by one, inside the stream, and changes nothing else but the counter of
free values. -/
theorem State.fetchByte_frame {b : Byte} (h : s.fetchByte = .ok b t) :
    s.rptr.toNat < s.handle.nbytes.toNat ∧
      t = { s with rptr := s.rptr + 1, free := t.free } := by
  unfold State.fetchByte at h
  split at h
  · cases h
  · rename_i hlt
    obtain ⟨c, s1, h1, h2⟩ := Res.bind_eq_ok.1 h
    cases h2
    have e1 := State.portRead_frame h1
    refine ⟨by omega, ?_⟩
    rw [e1]

/-- RPTR after a fetch, as a number. -/
theorem State.fetchByte_rptr {b : Byte} (h : s.fetchByte = .ok b t) :
    t.rptr.toNat = s.rptr.toNat + 1 := by
  obtain ⟨h1, h2⟩ := State.fetchByte_frame h
  rw [h2]
  have := s.handle.nbytes.isLt
  have h1' : (1 : DWord).toNat = 1 := rfl
  simp only [BitVec.toNat_add, h1']
  omega

/-- A fetch raises only STARVED, at the end of the body, and has changed nothing. -/
theorem State.fetchByte_eq_raised :
    s.fetchByte = .raised e t ↔
      s.handle.nbytes.toNat ≤ s.rptr.toNat ∧ e = .starved ∧ t = s := by
  unfold State.fetchByte
  split
  · simp_all [eq_comm]
  · rename_i hlt
    constructor
    · intro h
      rcases Res.bind_eq_raised.1 h with h | ⟨b, s1, -, h⟩
      · exact absurd h State.portRead_not_raised
      · cases h
    · intro h
      exact absurd h.1 hlt

/-- A fetch of plain memory inside the body. -/
theorem State.fetchByte_plain (h : s.rptr.toNat < s.handle.nbytes.toNat)
    (hp : s.plain (s.handle.srcBase + s.rptr)) :
    s.fetchByte = .ok (s.mem.read (s.handle.srcBase + s.rptr).toNat) { s with rptr := s.rptr + 1 } := by
  have hn : ¬ s.handle.nbytes.toNat ≤ s.rptr.toNat := by omega
  simp [State.fetchByte, hn, State.portRead_plain hp]

/-! ## Renormalize and DecodeBit (41 R184 to R186) -/

/-- What a decision or its renormalisation may change: RPTR, RANGE and CODE, and the counter of free
values. -/
abbrev State.coderFrame (s t : State) : Prop :=
  t = { s with
    rptr := t.rptr
    free := t.free
    call := { s.call with range := t.call.range, code := t.call.code } }

theorem State.coderFrame_refl (s : State) : s.coderFrame s := rfl

theorem State.coderFrame_trans (h1 : s.coderFrame t) (h2 : t.coderFrame u) : s.coderFrame u := by
  unfold State.coderFrame at *
  rw [h1] at h2
  exact h2

/-- A fetch and the shift it feeds. -/
theorem State.fetch_shift_frame {b : Byte} (h : s.fetchByte = .ok b t) :
    s.coderFrame (t.shiftIn b) := by
  obtain ⟨-, h2⟩ := State.fetchByte_frame h
  rw [h2]
  rfl

/-- A renormalisation that completes: the range is back at `2^24`, and RPTR has moved forward inside
the stream. -/
theorem renormLoop_ok {n : Nat} (hn : n = s.handle.nbytes.toNat - s.rptr.toNat)
    (h : renormLoop n s = .ok () t) :
    s.coderFrame t ∧ Config.rcBot ≤ t.call.range.toNat ∧ s.rptr.toNat ≤ t.rptr.toNat ∧
      (s.rptr.toNat ≤ s.handle.nbytes.toNat → t.rptr.toNat ≤ s.handle.nbytes.toNat) := by
  induction n generalizing s with
  | zero =>
    unfold renormLoop at h
    split at h
    · cases h; exact ⟨rfl, ‹_›, le_rfl, fun h => h⟩
    · obtain ⟨b, s1, h1, -⟩ := Res.bind_eq_ok.1 h
      have := (State.fetchByte_frame h1).1
      omega
  | succ n ih =>
    unfold renormLoop at h
    split at h
    · cases h; exact ⟨rfl, ‹_›, le_rfl, fun h => h⟩
    · obtain ⟨b, s1, h1, h2⟩ := Res.bind_eq_ok.1 h
      have hf := State.fetchByte_frame h1
      have hr := State.fetchByte_rptr h1
      have hb : s1.handle = s.handle := by rw [hf.2]
      obtain ⟨i1, i2, i3, i4⟩ := ih (s := s1.shiftIn b) (by simp [hb, hr]; omega) h2
      simp only [State.shiftIn_rptr, State.shiftIn_handle, hb] at i3 i4
      exact ⟨State.coderFrame_trans (State.fetch_shift_frame h1) i1, i2, by omega,
        fun _ => i4 (by omega)⟩

/-- A renormalisation raises only STARVED, with RPTR at the end of the body or past it. -/
theorem renormLoop_raised {n : Nat} (hn : n = s.handle.nbytes.toNat - s.rptr.toNat)
    (h : renormLoop n s = .raised e t) :
    e = .starved ∧ s.coderFrame t ∧ s.rptr.toNat ≤ t.rptr.toNat ∧
      (s.rptr.toNat ≤ s.handle.nbytes.toNat → t.rptr = s.handle.nbytes) := by
  induction n generalizing s with
  | zero =>
    unfold renormLoop at h
    split at h
    · cases h
    · rcases Res.bind_eq_raised.1 h with h | ⟨b, s1, -, h⟩
      · obtain ⟨h1, rfl, rfl⟩ := State.fetchByte_eq_raised.1 h
        exact ⟨rfl, rfl, le_rfl, fun h2 => BitVec.eq_of_toNat_eq (by omega)⟩
      · cases h
  | succ n ih =>
    unfold renormLoop at h
    split at h
    · cases h
    · rcases Res.bind_eq_raised.1 h with h | ⟨b, s1, h1, h2⟩
      · have := (State.fetchByte_eq_raised.1 h).1
        omega
      · have hf := State.fetchByte_frame h1
        have hr := State.fetchByte_rptr h1
        have hb : s1.handle = s.handle := by rw [hf.2]
        obtain ⟨i0, i1, i2, i3⟩ := ih (s := s1.shiftIn b) (by simp [hb, hr]; omega) h2
        simp only [State.shiftIn_rptr, State.shiftIn_handle, hb] at i2 i3
        exact ⟨i0, State.coderFrame_trans (State.fetch_shift_frame h1) i1, by omega,
          fun _ => i3 (by omega)⟩

/-- A renormalisation that completes (`renormLoop_ok` for `Renormalize()`). -/
theorem State.renormalize_ok (h : s.renormalize = .ok () t) :
    s.coderFrame t ∧ Config.rcBot ≤ t.call.range.toNat ∧ s.rptr.toNat ≤ t.rptr.toNat ∧
      (s.rptr.toNat ≤ s.handle.nbytes.toNat → t.rptr.toNat ≤ s.handle.nbytes.toNat) :=
  renormLoop_ok (s := s) rfl h

/-- A renormalisation that raises (`renormLoop_raised` for `Renormalize()`). -/
theorem State.renormalize_raised (h : s.renormalize = .raised e t) :
    e = .starved ∧ s.coderFrame t ∧ s.rptr.toNat ≤ t.rptr.toNat ∧
      (s.rptr.toNat ≤ s.handle.nbytes.toNat → t.rptr = s.handle.nbytes) :=
  renormLoop_raised (s := s) rfl h

/-- What a decision may change: RPTR, the interval, the two counters of its context, and the counter
of free values. -/
abbrev State.decisionFrame (s t : State) (j : Fin Config.nctx) (b : Bool) : Prop :=
  t = { s with
    rptr := t.rptr
    free := t.free
    call := { (s.call.update j b) with range := t.call.range, code := t.call.code } }

/-- A decision that completes. -/
theorem State.decodeBit_ok {j : Fin Config.nctx} {b : Bool} (h : s.decodeBit j = .ok b t) :
    b = s.call.decision j ∧ s.decisionFrame t j b ∧ Config.rcBot ≤ t.call.range.toNat ∧
      s.rptr.toNat ≤ t.rptr.toNat ∧
      (s.rptr.toNat ≤ s.handle.nbytes.toNat → t.rptr.toNat ≤ s.handle.nbytes.toNat) := by
  obtain ⟨a, s1, h1, h2⟩ := Res.bind_eq_ok.1 h
  cases h2
  obtain ⟨i1, i2, i3, i4⟩ := State.renormalize_ok h1
  refine ⟨rfl, ?_, i2, i3, i4⟩
  unfold State.coderFrame at i1
  unfold State.decisionFrame
  refine i1.trans ?_
  cases s.call.decision j <;> rfl

/-- A decision raises only STARVED, and then the body is exhausted. -/
theorem State.decodeBit_raised {j : Fin Config.nctx} (h : s.decodeBit j = .raised e t) :
    e = .starved ∧ s.rptr.toNat ≤ t.rptr.toNat ∧
      (s.rptr.toNat ≤ s.handle.nbytes.toNat → t.rptr = s.handle.nbytes) := by
  rcases Res.bind_eq_raised.1 h with h | ⟨a, s1, -, h⟩
  · obtain ⟨i1, -, i2, i3⟩ := State.renormalize_raised h
    exact ⟨i1, i2, i3⟩
  · cases h

/-! ## The end of a step -/

/-- A phase step that answers a next state: its writes, the error state, or stuck. -/
theorem State.commit_eq_next {x : Res Unit} :
    s.commit x = .next u ↔
      x = .ok () u ∨
      (∃ e t, x = .raised e t ∧ u = State.raise { s with rptr := t.rptr, free := t.free } e) ∨
      (x = .stuck ∧ u = s.block) := by
  cases x <;> simp [State.commit, eq_comm]

/-- A command that answers a next state was ignored while DECODING or accepted outside it. -/
theorem State.command_eq_next {body : State → Host.Outcome State Fault Refusal} :
    s.command body = .next u ↔
      (s.busy = true ∧ u = s.ignore) ∨ (s.busy = false ∧ body s.accept = .next u) := by
  unfold State.command
  cases s.busy <;> simp [eq_comm]

end Sys2Proof.Machine
end

