-- ==== Sys2Proof/Laws/PerInstr.lean ====
section
/-! SUPPORT. Statements made per instruction, one lemma for each constructor. -/

namespace Sys2Proof.Laws

/-- A CTRL command is four bytes and a PHASE value one byte, whose low four bits are the code
(30_encoding R110, R120). -/
def EncodedForm.Statement (i : Instr) : Prop :=
  (encode i).length = (if i.format = .ctrl then 4 else 1) ∧
    ((encode i).headD 0).setWidth 4 = i.code

theorem EncodedForm.nop : EncodedForm.Statement .nop := ⟨rfl, rfl⟩

theorem EncodedForm.openStream : EncodedForm.Statement .openStream := ⟨rfl, rfl⟩

theorem EncodedForm.decompress : EncodedForm.Statement .decompress := ⟨rfl, rfl⟩

theorem EncodedForm.dekompress : EncodedForm.Statement .dekompress := ⟨rfl, rfl⟩

theorem EncodedForm.reservedLow (cmd : BitVec 4) : EncodedForm.Statement (.reservedLow cmd) := by
  refine ⟨rfl, ?_⟩
  revert cmd
  decide

theorem EncodedForm.reservedHigh (cmd : BitVec 4) : EncodedForm.Statement (.reservedHigh cmd) := by
  refine ⟨rfl, ?_⟩
  revert cmd
  decide

theorem EncodedForm.idle : EncodedForm.Statement .idle := ⟨rfl, rfl⟩

theorem EncodedForm.rcInit : EncodedForm.Statement .rcInit := ⟨rfl, rfl⟩

theorem EncodedForm.predict : EncodedForm.Statement .predict := ⟨rfl, rfl⟩

theorem EncodedForm.zero : EncodedForm.Statement .zero := ⟨rfl, rfl⟩

theorem EncodedForm.sign : EncodedForm.Statement .sign := ⟨rfl, rfl⟩

theorem EncodedForm.sig : EncodedForm.Statement .sig := ⟨rfl, rfl⟩

theorem EncodedForm.ref : EncodedForm.Statement .ref := ⟨rfl, rfl⟩

theorem EncodedForm.recon : EncodedForm.Statement .recon := ⟨rfl, rfl⟩

theorem EncodedForm.emit : EncodedForm.Statement .emit := ⟨rfl, rfl⟩

theorem EncodedForm.final : EncodedForm.Statement .final := ⟨rfl, rfl⟩

theorem EncodedForm.unusedLow (phase : BitVec 4) : EncodedForm.Statement (.unusedLow phase) := by
  refine ⟨rfl, ?_⟩
  revert phase
  decide

theorem EncodedForm.unusedHigh (phase : BitVec 4) : EncodedForm.Statement (.unusedHigh phase) := by
  refine ⟨rfl, ?_⟩
  revert phase
  decide

end Sys2Proof.Laws
end

