-- ==== Sys2Proof/Laws/Step.lean ====
section
/-! SUPPORT. What each step and each event can do, said once as an inversion: if it answers `next t`,
then `t` is one of these. Later proofs cite these and do not unfold the meanings. -/

namespace Sys2Proof.Machine

variable {s t u : State} {e : Cause}

/-! ## The coder -/

/-- A shift keeps CODE below RANGE (41 R186, R187). -/
theorem CallRegs.shiftIn_code_lt {r : CallRegs} (b : Byte) (h : r.code.toNat < r.range.toNat)
    (hr : r.range.toNat < Config.rcBot) : (r.shiftIn b).code.toNat < (r.shiftIn b).range.toNat := by
  have hb := b.isLt
  simp only [Config.rcBot] at hr
  simp only [CallRegs.shiftIn, BitVec.toNat_ofNat]
  omega

/-- A renormalisation keeps CODE below RANGE (41 R187). -/
theorem renormLoop_code_lt {n : Nat} (h : renormLoop n s = .ok () t)
    (hc : s.call.code.toNat < s.call.range.toNat) : t.call.code.toNat < t.call.range.toNat := by
  induction n generalizing s with
  | zero =>
    unfold renormLoop at h
    split at h
    · cases h; exact hc
    · rename_i hr
      obtain ⟨b, s1, h1, h2⟩ := Res.bind_eq_ok.1 h
      cases h2
      have e1 : s1.call = s.call := by rw [(State.fetchByte_frame h1).2]
      have := CallRegs.shiftIn_code_lt b hc (by omega)
      rw [← e1] at this
      exact this
  | succ n ih =>
    unfold renormLoop at h
    split at h
    · cases h; exact hc
    · rename_i hr
      obtain ⟨b, s1, h1, h2⟩ := Res.bind_eq_ok.1 h
      have e1 : s1.call = s.call := by rw [(State.fetchByte_frame h1).2]
      have := CallRegs.shiftIn_code_lt b hc (by omega)
      rw [← e1] at this
      exact ih h2 this

/-- The sub-interval a legal decision takes holds CODE (41 R187, R188). -/
theorem CallRegs.narrow_code_lt {r : CallRegs} {j : Fin Config.nctx} (h : r.coderOk j) :
    (r.narrow j (r.decision j)).code.toNat < (r.narrow j (r.decision j)).range.toNat := by
  obtain ⟨-, -, hc⟩ := h
  have hlt := r.range.isLt
  unfold CallRegs.narrow CallRegs.decision
  by_cases hd : r.split j ≤ r.code.toNat
  · simp only [hd, decide_true, if_true, BitVec.toNat_ofNat]
    omega
  · have hs : r.split j ≤ r.range.toNat := by
      have h1 : r.split j ≤ r.range.toNat / (r.c0[j].toNat + r.c1[j].toNat) *
          (r.c0[j].toNat + r.c1[j].toNat) := Nat.mul_le_mul le_rfl (Nat.le_add_right _ _)
      exact h1.trans (Nat.div_mul_le_self _ _)
    simp only [hd, decide_false, Bool.false_eq_true, if_false, BitVec.toNat_ofNat]
    omega

/-- A decision from a legal coder leaves CODE below RANGE (41 R187). -/
theorem State.decodeBit_code_lt {j : Fin Config.nctx} {b : Bool} (h : s.decodeBit j = .ok b t)
    (hc : s.call.coderOk j) : t.call.code.toNat < t.call.range.toNat := by
  obtain ⟨a, s1, h1, h2⟩ := Res.bind_eq_ok.1 h
  cases h2
  exact renormLoop_code_lt h1 (CallRegs.narrow_code_lt hc)

/-- The update keeps legal counters legal (41 R182, R185). -/
theorem countersAfter_ok (b : Bool) {c0 c1 : BitVec 16} (h : countersOk c0 c1) :
    countersOk (countersAfter b c0 c1).1 (countersAfter b c0 c1).2 := by
  obtain ⟨h0, h1, h2⟩ := h
  simp only [Config.cntLimit] at h2
  unfold countersAfter countersOk
  cases b <;> simp only [Config.cntInc, Config.cntLimit, if_true, if_false, Bool.false_eq_true] <;>
    split <;> simp only [BitVec.toNat_ofNat] <;> omega

/-- Every context is legal after the update of one. -/
theorem CallRegs.update_ok {r : CallRegs} (j : Fin Config.nctx) (b : Bool)
    (h : ∀ i : Fin Config.nctx, countersOk r.c0[i] r.c1[i]) (i : Fin Config.nctx) :
    countersOk (r.update j b).c0[i] (r.update j b).c1[i] := by
  by_cases hij : j.val = i.val
  · have : j = i := Fin.ext hij
    subst this
    simpa [CallRegs.update] using countersAfter_ok b (h j)
  · simpa [CallRegs.update, Vector.getElem_set_ne, hij] using h i

/-! ## The phase steps that decide nothing -/

/-- The four bytes of RC_INIT. -/
theorem fetchCode_ok {n c c' : Nat} (h : fetchCode n c s = .ok c' t) :
    t = { s with rptr := t.rptr, free := t.free } ∧ t.rptr.toNat = s.rptr.toNat + n ∧
      (s.rptr.toNat ≤ s.handle.nbytes.toNat → t.rptr.toNat ≤ s.handle.nbytes.toNat) := by
  induction n generalizing s c with
  | zero => cases h; exact ⟨rfl, rfl, fun h => h⟩
  | succ n ih =>
    obtain ⟨b, s1, h1, h2⟩ := Res.bind_eq_ok.1 h
    have hf := State.fetchByte_frame h1
    have hr := State.fetchByte_rptr h1
    have hh : s1.handle = s.handle := by rw [hf.2]
    obtain ⟨i1, i2, i3⟩ := ih h2
    rw [hh] at i3
    refine ⟨?_, by omega, fun _ => i3 (by omega)⟩
    rw [i1, hf.2]

/-- The fetches of RC_INIT raise only STARVED. -/
theorem fetchCode_raised {n c : Nat} (h : fetchCode n c s = .raised e t) :
    e = .starved ∧ s.rptr.toNat ≤ t.rptr.toNat ∧
      (s.rptr.toNat ≤ s.handle.nbytes.toNat → t.rptr = s.handle.nbytes) := by
  induction n generalizing s c with
  | zero => cases h
  | succ n ih =>
    rcases Res.bind_eq_raised.1 h with h | ⟨b, s1, h1, h2⟩
    · obtain ⟨h1, rfl, rfl⟩ := State.fetchByte_eq_raised.1 h
      exact ⟨rfl, le_rfl, fun h2 => BitVec.eq_of_toNat_eq (by omega)⟩
    · have hf := State.fetchByte_frame h1
      have hr := State.fetchByte_rptr h1
      have hh : s1.handle = s.handle := by rw [hf.2]
      obtain ⟨i0, i1, i2⟩ := ih h2
      rw [hh] at i2
      exact ⟨i0, by omega, fun _ => i2 (by omega)⟩

/-- An error of a phase step: the codes of some cause, with RPTR where the fetches left it. -/
def State.errorStep (s t : State) : Prop :=
  ∃ (e : Cause) (r : DWord) (n : Nat), s.rptr.toNat ≤ r.toNat ∧
    t = State.raise { s with rptr := r, free := n } e

/-- What a phase step other than its own completion can be: stuck, or an error. -/
def State.notTaken (s t : State) : Prop := t = s.block ∨ s.errorStep t

/-- RC_INIT (41 R189). -/
theorem execRcInit_next (h : execRcInit s = .next t) :
    s.notTaken t ∨ ∃ (r : DWord) (n code : Nat), code < 0xFFFFFFFF ∧
      r.toNat = s.rptr.toNat + 4 ∧
      (s.rptr.toNat ≤ s.handle.nbytes.toNat → r.toNat ≤ s.handle.nbytes.toNat) ∧
      t = { s with
        rptr := r
        free := n
        phase := 2
        call := { s.call with range := 0xFFFFFFFF, code := BitVec.ofNat 32 code } } := by
  rcases State.commit_eq_next.1 h with hx | ⟨e, s1, hx, rfl⟩ | ⟨-, rfl⟩
  · right
    obtain ⟨c, s1, h1, h2⟩ := Res.bind_eq_ok.1 hx
    split at h2
    · cases h2
    · rename_i hc
      cases h2
      obtain ⟨i1, i2, i3⟩ := fetchCode_ok h1
      simp only [initRange] at hc
      exact ⟨s1.rptr, s1.free, c, by omega, i2, i3, by rw [i1]; rfl⟩
  · left; right
    rcases Res.bind_eq_raised.1 hx with hy | ⟨c, s2, h1, h2⟩
    · exact ⟨e, _, _, (fetchCode_raised hy).2.1, rfl⟩
    · split at h2
      · cases h2
        have := (fetchCode_ok h1).2.1
        exact ⟨_, _, _, by omega, rfl⟩
      · cases h2
  · left; left; rfl

/-- FINAL (41 R192). -/
theorem execFinal_next (h : execFinal s = .next t) :
    s.notTaken t ∨ (s.rptr = s.handle.nbytes ∧ t = s.endCall .complete) := by
  rcases State.commit_eq_next.1 h with hx | ⟨e, s1, hx, rfl⟩ | ⟨-, rfl⟩
  · right
    unfold State.final at hx
    split at hx
    · cases hx
    · rename_i hc
      cases hx
      exact ⟨not_not.1 hc, rfl⟩
  · left; right
    unfold State.final at hx
    split at hx
    · cases hx; exact ⟨_, _, _, le_rfl, rfl⟩
    · cases hx
  · left; left; rfl

/-- EMIT (43 R256). -/
theorem execEmit_next (h : execEmit s = .next t) :
    t = s.block ∨ t = (s.storeBytes s.emitAddr s.emitBytes).emitAdvance := by
  rcases State.commit_eq_next.1 h with hx | ⟨e, s1, hx, rfl⟩ | ⟨-, rfl⟩
  · right
    obtain ⟨a, s1, h1, h2⟩ := Res.bind_eq_ok.1 hx
    cases h2
    rw [(State.portWrite_eq_ok.1 h1).2]
  · rcases Res.bind_eq_raised.1 hx with hy | ⟨a, s2, -, h2⟩
    · exact absurd hy State.portWrite_not_raised
    · cases h2
  · left; rfl

/-! ## The phase steps that make a decision -/

/-- A decision that does not complete ends its step in an error or stuck. -/
theorem State.commit_decodeBit {j : Fin Config.nctx} {f : Bool → State → Res Unit}
    (hf : ∀ b v e u, f b v = .raised e u → v.rptr.toNat ≤ u.rptr.toNat)
    (h : s.commit ((s.decodeBit j).bind f) = .next t) :
    s.notTaken t ∨ ∃ b v, s.decodeBit j = .ok b v ∧ f b v = .ok () t := by
  rcases State.commit_eq_next.1 h with hx | ⟨e, s1, hx, rfl⟩ | ⟨-, rfl⟩
  · right; exact Res.bind_eq_ok.1 hx
  · left; right
    rcases Res.bind_eq_raised.1 hx with hy | ⟨b, v, h1, h2⟩
    · exact ⟨_, _, _, (State.decodeBit_raised hy).2.1, rfl⟩
    · have h3 := hf _ _ _ _ h2
      have h4 := (State.decodeBit_ok h1).2.2.2.1
      exact ⟨_, _, _, by omega, rfl⟩
  · left; left; rfl

/-- ZERO (42 R212). -/
theorem execZero_next (h : execZero s = .next t) :
    s.notTaken t ∨ ∃ b v, s.decodeBit ctxZero = .ok b v ∧
      t = if b then { v with call := { v.call with u := v.call.pred }, phase := 8 }
        else { v with phase := 4 } := by
  refine (State.commit_decodeBit (fun b v e u h => ?_) h).imp id fun ⟨b, v, h1, h2⟩ => ⟨b, v, h1, ?_⟩
  · cases b <;> cases h
  · cases b <;> cases h2 <;> rfl

/-- SIGN (42 R214). -/
theorem execSign_next (h : execSign s = .next t) :
    s.notTaken t ∨ ∃ b v, s.decodeBit ctxSign = .ok b v ∧
      residualBound v.precision v.call.pred b ≠ 0 ∧
      t = { v with
        call := { v.call with
          sgn := BitVec.ofBool b
          bnd := BitVec.ofNat 64 (residualBound v.precision v.call.pred b)
          plane := BitVec.ofNat 6 (v.precision - 1)
          mag := 0 }
        phase := 5 } := by
  refine (State.commit_decodeBit (fun b v e u h => ?_) h).imp id fun ⟨b, v, h1, h2⟩ => ⟨b, v, h1, ?_⟩
  · dsimp only at h
    split at h
    · cases h; exact le_rfl
    · cases h
  · dsimp only at h2
    split at h2
    · cases h2
    · rename_i hb
      cases h2
      exact ⟨hb, rfl⟩

/-- SIG (42 R216). -/
theorem execSig_next (h : execSig s = .next t) :
    s.notTaken t ∨ ∃ b v, s.decodeBit (ctxSig s.call.plane) = .ok b v ∧
      ((b = true ∧ 2 ^ s.call.plane.toNat ≤ v.call.bnd.toNat ∧ s.call.plane = 0 ∧
        t = { v with
          call := { v.call with mag := BitVec.ofNat 64 (2 ^ s.call.plane.toNat) }, phase := 7 }) ∨
      (b = true ∧ 2 ^ s.call.plane.toNat ≤ v.call.bnd.toNat ∧ s.call.plane ≠ 0 ∧
        t = { v with
          call := { v.call with
            mag := BitVec.ofNat 64 (2 ^ s.call.plane.toNat), plane := s.call.plane - 1 }
          phase := 6 }) ∨
      (b = false ∧ s.call.plane ≠ 0 ∧
        t = { v with call := { v.call with plane := s.call.plane - 1 }, phase := 5 })) := by
  refine (State.commit_decodeBit (fun b v e u h => ?_) h).imp id fun ⟨b, v, h1, h2⟩ => ⟨b, v, h1, ?_⟩
  · cases b <;> dsimp only at h <;> (repeat' split at h) <;> cases h <;> exact le_rfl
  · cases b <;> simp only [Bool.false_eq_true, if_true, if_false] at h2
    · split at h2
      · cases h2
      · rename_i hk; cases h2; exact .inr (.inr ⟨rfl, hk, rfl⟩)
    · split at h2
      · cases h2
      · rename_i hb
        split at h2
        · rename_i hk; cases h2; exact .inl ⟨rfl, by omega, hk, rfl⟩
        · rename_i hk; cases h2; exact .inr (.inl ⟨rfl, by omega, hk, rfl⟩)

/-- REF (42 R218). -/
theorem execRef_next (h : execRef s = .next t) :
    s.notTaken t ∨ ∃ j b v, ctxRef s.call.plane = some j ∧ s.decodeBit j = .ok b v ∧
      (let m2 := v.call.mag.toNat ||| (if b then 2 ^ s.call.plane.toNat else 0)
      m2 ≤ v.call.bnd.toNat ∧
        t = if s.call.plane = 0 then
          { v with call := { v.call with mag := BitVec.ofNat 64 m2 }, phase := 7 }
        else
          { v with
            call := { v.call with mag := BitVec.ofNat 64 m2, plane := s.call.plane - 1 }
            phase := 6 }) := by
  unfold execRef at h
  split at h
  · rename_i j hj
    refine (State.commit_decodeBit (fun b v e u h => ?_) h).imp id
      fun ⟨b, v, h1, h2⟩ => ⟨j, b, v, hj, h1, ?_⟩
    · dsimp only at h; (repeat' split at h) <;> cases h <;> exact le_rfl
    · dsimp only at h2 ⊢
      by_cases hb : v.call.bnd.toNat <
          (v.call.mag.toNat ||| (if b = true then 2 ^ s.call.plane.toNat else 0))
      · rw [if_pos hb] at h2; cases h2
      · rw [if_neg hb] at h2
        refine ⟨Nat.le_of_not_lt hb, ?_⟩
        by_cases hk : s.call.plane = 0
        · rw [if_pos hk] at h2 ⊢; cases h2; rfl
        · rw [if_neg hk] at h2 ⊢; cases h2; rfl
  · cases h

/-! ## The commands -/

/-- OPEN (40 R152, R153): ignored, stuck, failed, or the header latched. -/
theorem execOpen_next (h : execOpen s = .next t) :
    (s.callState = .decoding ∧ t = s.ignore) ∨ (s.callState ≠ .decoding ∧
      (t = s.block ∨
      (∃ (e : Cause) (r : DWord) (n : Nat),
        t = (State.raise { s.accept with vi := 0, rptr := r, free := n } e).dropHandle) ∨
      (∃ (bs : List Byte) (n : Nat), headerError bs = none ∧ Config.hdrLen ≤ s.regs.srcLen.toNat ∧
        t = { s.accept with
          vi := 0
          rptr := 23
          free := n
          handle := headerHandle bs s.regs.srcBase s.regs.srcLen
          hv := true
          callState := .headerParsed }))) := by
  rcases State.command_eq_next.1 h with ⟨hb, rfl⟩ | ⟨hb, hy⟩
  · left; exact ⟨by simpa [State.busy] using hb, rfl⟩
  · right
    refine ⟨by simpa [State.busy] using hb, ?_⟩
    split at hy
    · rename_i x hx
      cases hy
      right; right
      unfold State.openAccepted at hx
      dsimp only at hx
      split at hx
      · cases hx
      · rename_i hl
        obtain ⟨bs, s1, h1, h2⟩ := Res.bind_eq_ok.1 hx
        have e1 := State.portReadBytes_frame h1
        split at h2
        · cases h2
        · rename_i he
          cases h2
          refine ⟨bs, s1.free, he, by simpa using hl, ?_⟩
          rw [e1]
          rfl
    · rename_i e x hx
      cases hy
      right; left
      unfold State.openAccepted at hx
      dsimp only at hx
      split at hx
      · cases hx; exact ⟨_, _, _, rfl⟩
      · rcases Res.bind_eq_raised.1 hx with h1 | ⟨bs, s1, h1, h2⟩
        · exact absurd h1 State.portReadBytes_not_raised
        · have e1 := State.portReadBytes_frame h1
          split at h2
          · cases h2
            refine ⟨e, 23, s1.free, ?_⟩
            rw [e1]
            rfl
          · cases h2
    · cases hy; left; rfl
    · cases hy

/-- DECOMPRESS (40 R154): ignored, failed, or a call started. -/
theorem execDecompress_next (h : execDecompress s = .next t) :
    (s.callState = .decoding ∧ t = s.ignore) ∨ (s.callState ≠ .decoding ∧
      ((∃ (e : Cause) (v r : DWord), t = State.raise { s.accept with vi := v, rptr := r } e) ∨
      (s.hv = true ∧
        t = { s.accept with
          vi := 0
          rptr := 23
          cDstBase := s.regs.dstBase
          call := s.call.start
          raced := []
          clash := []
          stale := []
          callState := .decoding
          phase := 1 }))) := by
  rcases State.command_eq_next.1 h with ⟨hb, rfl⟩ | ⟨hb, hy⟩
  · left; exact ⟨by simpa [State.busy] using hb, rfl⟩
  · right
    refine ⟨by simpa [State.busy] using hb, ?_⟩
    cases hy
    unfold State.decompressAccepted
    split
    · left; exact ⟨.noHandle, _, _, rfl⟩
    · rename_i hv
      dsimp only
      split
      · left; exact ⟨.bufferSizeMismatch, _, _, rfl⟩
      · split
        · left; exact ⟨.typeMismatch, _, _, rfl⟩
        · split
          · left; exact ⟨.capacityExceeded, _, _, rfl⟩
          · right; exact ⟨by simpa using hv, rfl⟩

/-- A reserved command (40 R157): ignored or failed. -/
theorem State.command_reserved_next (h : s.command State.reservedAccepted = .next t) :
    (s.callState = .decoding ∧ t = s.ignore) ∨
      (s.callState ≠ .decoding ∧ t = State.raise s.accept .reservedOpcode) := by
  rcases State.command_eq_next.1 h with ⟨hb, rfl⟩ | ⟨hb, hy⟩
  · left; exact ⟨by simpa [State.busy] using hb, rfl⟩
  · cases hy; right; exact ⟨by simpa [State.busy] using hb, rfl⟩

/-! ## The events -/

/-- What a host access that issues no command may change: the host's registers, but not during reset,
its last read, a byte of memory, the raced addresses, which only grow, and the model's counters. -/
abbrev State.hostFrame (s t : State) : Prop :=
  t = { s with
    regs := t.regs
    mem := t.mem
    raced := t.raced
    free := t.free
    events := t.events
    rdata := t.rdata } ∧
  (s.resetApplied = true → t.regs = s.regs) ∧ ∀ a ∈ s.raced, a ∈ t.raced

/-- An address once raced on stays so. -/
theorem mem_addRaced {l : List DWord} {x a : DWord} (h : x ∈ l) : x ∈ addRaced l a := by
  unfold addRaced
  split
  · exact h
  · exact List.mem_cons_of_mem _ h

/-- A host store marks at most its own address. -/
theorem State.markRaced_eq (s : State) (a : DWord) :
    s.markRaced a = s ∨ s.markRaced a = { s with raced := addRaced s.raced a } := by
  unfold State.markRaced
  split
  · exact .inr rfl
  · exact .inl rfl

/-- A host read or write of memory (20 R82, R85, R86). -/
theorem State.hostStore_next {a : DWord} {b : Byte} (h : s.hostStore a b = .next t) :
    s.hostFrame t ∧ ∃ c : Byte, t.mem = s.mem.write a.toNat c := by
  unfold State.hostStore at h
  split at h
  · dsimp only at h
    rcases s.markRaced_eq a with hm | hm <;> rw [hm] at h <;> split at h <;> cases h
    · exact ⟨⟨rfl, fun _ => rfl, fun _ h => h⟩, _, rfl⟩
    · exact ⟨⟨rfl, fun _ => rfl, fun _ h => h⟩, _, rfl⟩
    · exact ⟨⟨rfl, fun _ => rfl, fun _ h => mem_addRaced h⟩, _, rfl⟩
    · exact ⟨⟨rfl, fun _ => rfl, fun _ h => mem_addRaced h⟩, _, rfl⟩
  · split at h <;> cases h
  · cases h

theorem State.hostLoad_next {a : DWord} (h : s.hostLoad a = .next t) :
    s.hostFrame t ∧ t.mem = s.mem := by
  unfold State.hostLoad at h
  split at h
  · split at h <;> cases h <;> exact ⟨⟨rfl, fun _ => rfl, fun _ h => h⟩, rfl⟩
  · split at h <;> cases h
  · cases h

theorem State.poll_next {a : DWord} {m v : Word} (h : s.poll a m v = .next t) :
    s.hostFrame t ∧ t.mem = s.mem := by
  unfold State.poll at h
  split at h
  · cases h
  · split at h <;> cases h <;> exact ⟨⟨rfl, fun _ => rfl, fun _ h => h⟩, rfl⟩

/-- The offset of a register access says where it is (10 R20, R37). -/
theorem State.regOffset_eq_ok {a : DWord} {n off : Nat} (h : s.regOffset a n = .ok off) :
    n = 4 ∧ a = s.plat.mmioBase + BitVec.ofNat 64 off := by
  unfold State.regOffset at h
  split at h
  · cases h
  · split at h
    · cases h
    · rename_i hn
      cases h
      refine ⟨by tauto, ?_⟩
      rw [BitVec.ofNat_toNat, BitVec.setWidth_eq, add_sub_cancel]

/-- A register access: a read, a write of a register (lost during reset), or a command, which is a write
to CTRL. -/
theorem State.access_next {a : DWord} {n : Nat} {op : BusOp} (h : s.access a n op = .next t) :
    (s.hostFrame t ∧ t.mem = s.mem) ∨
      ∃ v, s.resetApplied = false ∧ n = 4 ∧ a = s.plat.mmioBase + 4 ∧ op = .write v ∧
        exec (decodeCtrl v) s = .next t := by
  unfold State.access at h
  split at h
  · cases h
  · rename_i off ho
    split at h
    · cases h; exact .inl ⟨⟨rfl, fun _ => rfl, fun _ h => h⟩, rfl⟩
    · rename_i v
      unfold State.hostWrite at h
      by_cases hr : s.resetApplied = true
      · rw [if_pos hr] at h
        cases h; exact .inl ⟨⟨rfl, fun _ => rfl, fun _ h => h⟩, rfl⟩
      · rw [if_neg hr] at h
        split at h
        · rename_i hc
          unfold State.ctrlWrite at h
          split at h
          · cases h; exact .inl ⟨⟨rfl, fun _ => rfl, fun _ h => h⟩, rfl⟩
          · obtain ⟨h1, h2⟩ := State.regOffset_eq_ok ho
            rw [hc] at h2
            exact .inr ⟨v, by simpa using hr, h1, h2, rfl, h⟩
        · cases h; exact .inl ⟨⟨rfl, fun h => absurd h hr, fun _ h => h⟩, rfl⟩

/-- The block's own step: none when it is stuck or held in reset. -/
theorem State.coreStep_next (h : s.coreStep = .next t) :
    ((s.stuck = true ∨ s.resetApplied = true) ∧ t = s) ∨
      (s.stuck = false ∧ s.resetApplied = false ∧ exec (decodePhase s.phase) s = .next t) := by
  unfold State.coreStep at h
  split at h
  · rename_i hs; cases h; exact .inl ⟨by simpa using hs, rfl⟩
  · rename_i hs
    simp only [Bool.or_eq_true, not_or, Bool.not_eq_true] at hs
    exact .inr ⟨hs.1, hs.2, h⟩

/-- The inversion of `step`: the block's own step, a command, a host access, or reset; `r` is the rest
of the event list. -/
theorem step_next (h : step s = .next t) : ∃ r : List Event,
    (s.coreNext ∧ s.stuck = false ∧ s.resetApplied = false ∧
      exec (decodePhase s.phase) { s with events := r } = .next t) ∨
    (s.coreNext ∧ (s.stuck = true ∨ s.resetApplied = true) ∧ t = { s with events := r }) ∨
    (∃ v, s.ctrlNext v ∧ s.resetApplied = false ∧
      exec (decodeCtrl v) { s with events := r } = .next t) ∨
    (s.hostFrame t ∧ (t.mem = s.mem ∨
      ∃ a b c, s.events.head? = some (.store a b) ∧ t.mem = s.mem.write a.toNat c)) ∨
    (s.events.head? = some .applyReset ∧ t = State.hardwareReset { s with events := r }) ∨
    (s.events.head? = some .releaseReset ∧ t = State.endReset { s with events := r }) := by
  unfold step State.advanceOne at h
  split at h
  · rename_i he
    refine ⟨[], ?_⟩
    have hs : { s with events := [] } = s := by rw [← he]
    rw [hs]
    rcases State.coreStep_next h with ⟨h1, h2⟩ | ⟨h1, h2, h3⟩
    · exact .inr (.inl ⟨.inl he, h1, h2⟩)
    · exact .inl ⟨.inl he, h1, h2, h3⟩
  · rename_i ev r he
    refine ⟨r, ?_⟩
    have hh : s.events.head? = some ev := by rw [he]; rfl
    cases ev with
    | core =>
      rcases State.coreStep_next h with ⟨h1, h2⟩ | ⟨h1, h2, h3⟩
      · exact .inr (.inl ⟨.inr hh, h1, h2⟩)
      · exact .inl ⟨.inr hh, h1, h2, h3⟩
    | access a n op =>
      rcases State.access_next h with ⟨⟨h1, h1'⟩, h2⟩ | ⟨v, h1, rfl, rfl, rfl, h2⟩
      · exact .inr (.inr (.inr (.inl ⟨⟨h1, h1'⟩, .inl h2⟩)))
      · exact .inr (.inr (.inl ⟨v, hh, h1, h2⟩))
    | load a =>
      obtain ⟨⟨h1, h1'⟩, h2⟩ := State.hostLoad_next h
      exact .inr (.inr (.inr (.inl ⟨⟨h1, h1'⟩, .inl h2⟩)))
    | store a b =>
      obtain ⟨⟨h1, h1'⟩, c, h2⟩ := State.hostStore_next h
      exact .inr (.inr (.inr (.inl ⟨⟨h1, h1'⟩, .inr ⟨a, b, c, hh, h2⟩⟩)))
    | poll a m v =>
      obtain ⟨⟨h1, h1'⟩, h2⟩ := State.poll_next h
      exact .inr (.inr (.inr (.inl ⟨⟨h1, h1'⟩, .inl h2⟩)))
    | applyReset => cases h; exact .inr (.inr (.inr (.inr (.inl ⟨hh, rfl⟩))))
    | releaseReset => cases h; exact .inr (.inr (.inr (.inr (.inr ⟨hh, rfl⟩))))

/-- The command a CTRL word selects, by its meaning (30 R110). -/
theorem exec_decodeCtrl_next {v : Word} (h : exec (decodeCtrl v) s = .next t) :
    (t = s) ∨ (decodeCtrl v = .openStream ∧ execOpen s = .next t) ∨ execDecompress s = .next t ∨
      s.command State.reservedAccepted = .next t := by
  revert h
  unfold decodeCtrl decodeCmd
  split <;> intro h
  · cases h; exact .inl rfl
  · exact .inr (.inl ⟨rfl, h⟩)
  · exact .inr (.inr (.inl h))
  all_goals exact .inr (.inr (.inr h))

/-- The step a PHASE value selects, by its meaning (10 R40). -/
theorem exec_decodePhase_next (h : exec (decodePhase s.phase) u = .next t) :
    (s.phase = 0 ∧ t = u) ∨ (s.phase = 1 ∧ execRcInit u = .next t) ∨
    (s.phase = 2 ∧ execPredict u = .next t) ∨ (s.phase = 3 ∧ execZero u = .next t) ∨
    (s.phase = 4 ∧ execSign u = .next t) ∨ (s.phase = 5 ∧ execSig u = .next t) ∨
    (s.phase = 6 ∧ execRef u = .next t) ∨ (s.phase = 7 ∧ execRecon u = .next t) ∨
    (s.phase = 8 ∧ execEmit u = .next t) ∨ (s.phase = 9 ∧ execFinal u = .next t) := by
  have key : ∀ n, n < 16 → s.phase.toNat = n → s.phase = BitVec.ofNat 4 n := fun n _ hn =>
    BitVec.eq_of_toNat_eq (by rw [hn]; simp only [BitVec.toNat_ofNat]; omega)
  revert h
  unfold decodePhase
  split <;> rename_i hp <;> intro h
  · cases h; exact .inl ⟨key 0 (by omega) hp, rfl⟩
  · exact .inr (.inl ⟨key 1 (by omega) hp, h⟩)
  · exact .inr (.inr (.inl ⟨key 2 (by omega) hp, h⟩))
  · exact .inr (.inr (.inr (.inl ⟨key 3 (by omega) hp, h⟩)))
  · exact .inr (.inr (.inr (.inr (.inl ⟨key 4 (by omega) hp, h⟩))))
  · exact .inr (.inr (.inr (.inr (.inr (.inl ⟨key 5 (by omega) hp, h⟩)))))
  · exact .inr (.inr (.inr (.inr (.inr (.inr (.inl ⟨key 6 (by omega) hp, h⟩))))))
  · exact .inr (.inr (.inr (.inr (.inr (.inr (.inr (.inl ⟨key 7 (by omega) hp, h⟩)))))))
  · exact .inr (.inr (.inr (.inr (.inr (.inr (.inr (.inr (.inl ⟨key 8 (by omega) hp, h⟩))))))))
  · exact .inr (.inr (.inr (.inr (.inr (.inr (.inr (.inr (.inr ⟨key 9 (by omega) hp, h⟩))))))))
  all_goals cases h

end Sys2Proof.Machine
end

