-- ==== Sys2Proof/Laws/Plain.lean ====
section
/-! SUPPORT. What the shared operations do on plain memory, in closed form, how they end at an address
that is no memory, and the laws of register halves, little-endian bytes and window offsets. -/

namespace Sys2Proof.Machine

variable {s : State}

/-! ## Addresses -/

/-- The address `k + 1` after `a` is the address `k` after `a + 1`. -/
theorem addr_succ (a : DWord) (k : Nat) :
    a + BitVec.ofNat 64 (k + 1) = a + 1 + BitVec.ofNat 64 k := by
  rw [BitVec.add_assoc, show (1 : DWord) = BitVec.ofNat 64 1 from rfl, ← BitVec.ofNat_add,
    Nat.add_comm]

/-- RPTR after `n` bytes inside the stream. -/
theorem rptr_add {n : Nat} (h : s.rptr.toNat + n ≤ s.handle.nbytes.toNat) :
    (s.rptr + BitVec.ofNat 64 n).toNat = s.rptr.toNat + n := by
  have := s.handle.nbytes.isLt
  rw [BitVec.toNat_add, BitVec.toNat_ofNat]
  omega

/-! ## The master port on plain memory -/

/-- A fetch of plain memory, by stream offset (41 R183). -/
theorem State.fetchByte_stream (h : s.rptr.toNat < s.handle.nbytes.toNat)
    (hp : s.plain (s.handle.srcBase + s.rptr)) :
    s.fetchByte = .ok (s.streamByte s.rptr.toNat) { s with rptr := s.rptr + 1 } := by
  rw [State.fetchByte_plain h hp]
  have e : s.handle.srcBase + BitVec.ofNat 64 s.rptr.toNat = s.handle.srcBase + s.rptr := by simp
  unfold State.streamByte
  rw [e]

/-- `bodyNat` reads memory, the handle and RPTR only. -/
theorem State.bodyNat_call (s : State) (c : CallRegs) (n : Nat) :
    State.bodyNat { s with call := c } n = s.bodyNat n := by
  induction n with
  | zero => rfl
  | succ n ih => unfold State.bodyNat; rw [ih]; rfl

/-- `n` renormalisation shifts over plain memory, the range below `2^24` before each (41 R186). -/
theorem renormLoop_plain (n : Nat) (s : State) (l : Nat) (hl : n ≤ l) (hb : s.bodyReady n)
    (hr : ∀ k < n, s.call.range.toNat * 256 ^ k < Config.rcBot) :
    renormLoop l s = renormLoop (l - n) { s with
      rptr := s.rptr + BitVec.ofNat 64 n
      call := { s.call with
        range := BitVec.ofNat 32 (s.call.range.toNat * 256 ^ n)
        code := BitVec.ofNat 32 (s.call.code.toNat * 256 ^ n + s.bodyNat n) } } := by
  obtain ⟨h1, h2⟩ := hb
  induction n with
  | zero => simp [State.bodyNat]
  | succ n ih =>
    rw [ih (by omega) (fun k hk => hr k (by omega)) (by omega) (fun k hk => h2 k (by omega))]
    obtain ⟨m, hm⟩ : ∃ m, l - n = m + 1 := ⟨l - n - 1, by omega⟩
    have hlt : s.call.range.toNat * 256 ^ n < Config.rcBot := hr n (by omega)
    have hrp := rptr_add (s := s) (n := n) (by omega)
    rw [hm, show ∀ u, renormLoop (m + 1) u =
      if Config.rcBot ≤ u.call.range.toNat then .ok () u
      else u.fetchByte.bind fun b t => renormLoop m (t.shiftIn b) from fun _ => rfl]
    dsimp only
    rw [if_neg (by rw [BitVec.toNat_ofNat]; omega)]
    rw [State.fetchByte_stream (by dsimp only; rw [hrp]; omega) (by
      have := h2 n (by omega)
      rw [BitVec.add_assoc] at this
      exact this)]
    simp only [Res.bind_ok]
    rw [show l - (n + 1) = m by omega]
    refine congrArg (renormLoop m) ?_
    unfold State.shiftIn CallRegs.shiftIn
    dsimp only
    have e1 : s.rptr + BitVec.ofNat 64 n + 1 = s.rptr + BitVec.ofNat 64 (n + 1) := by
      rw [BitVec.ofNat_add, BitVec.add_assoc]; rfl
    have e2 : BitVec.ofNat 32 ((BitVec.ofNat 32 (s.call.range.toNat * 256 ^ n)).toNat * 256) =
        BitVec.ofNat 32 (s.call.range.toNat * 256 ^ (n + 1)) := by
      apply BitVec.eq_of_toNat_eq
      simp only [BitVec.toNat_ofNat, pow_succ]
      rw [Nat.mod_mul_mod, Nat.mul_assoc]
    have e3 : BitVec.ofNat 32
        ((BitVec.ofNat 32 (s.call.code.toNat * 256 ^ n + s.bodyNat n)).toNat * 256 +
          (s.streamByte (s.rptr.toNat + n)).toNat) =
        BitVec.ofNat 32 (s.call.code.toNat * 256 ^ (n + 1) + s.bodyNat (n + 1)) := by
      apply BitVec.eq_of_toNat_eq
      simp only [BitVec.toNat_ofNat, pow_succ, State.bodyNat]
      rw [Nat.add_mod, Nat.mod_mul_mod, ← Nat.add_mod]
      congr 1
      ring
    rw [e1, e2, hrp, ← e3]
    rfl

/-- Reads in a row of plain memory. -/
theorem State.portReadBytes_plain (s : State) (a : DWord) (n : Nat) (h : s.plainRun a n) :
    s.portReadBytes a n =
      .ok ((List.range n).map fun k => s.mem.read (a + BitVec.ofNat 64 k).toNat) s := by
  induction n generalizing a with
  | zero => rfl
  | succ n ih =>
    have h0 := h 0 (by omega)
    rw [show a + BitVec.ofNat 64 0 = a by simp] at h0
    unfold State.portReadBytes
    rw [State.portRead_plain h0, Res.bind_ok, ih (a + 1) (fun k hk => by
      have := h (k + 1) (by omega)
      rw [addr_succ] at this
      exact this), Res.bind_ok, List.range_succ_eq_map, List.map_cons, List.map_map]
    congr 2
    · simp
    · apply List.map_congr_left
      intro k _
      show _ = s.mem.read (a + BitVec.ofNat 64 (k + 1)).toNat
      rw [addr_succ]

/-- A run of addresses that are all memory. -/
theorem State.admissionRun_memory {n : Nat} {a : DWord}
    (h : ∀ k < n, s.admission (a + BitVec.ofNat 64 k) = .memory) :
    s.admissionRun a n = .memory := by
  induction n generalizing a with
  | zero => rfl
  | succ n ih =>
    have h0 := h 0 (by omega)
    rw [show a + BitVec.ofNat 64 0 = a by simp] at h0
    unfold State.admissionRun
    rw [h0]
    exact ih fun k hk => by
      have := h (k + 1) (by omega)
      rwa [addr_succ] at this

/-- Bytes written to plain memory: each byte, and no other address. -/
theorem State.storeBytes_plain (s : State) (a : DWord) (bs : List Byte) (hl : bs.length < 2 ^ 64)
    (hw : s.mem.wf = true) (hc : ∀ k < bs.length, s.contested (a + BitVec.ofNat 64 k) = false) :
    ∃ (m : Memory) (old : List AddrByte), s.storeBytes a bs = { s with mem := m, stale := old } ∧
      (∀ (k : Nat) (hk : k < bs.length), m.read (a + BitVec.ofNat 64 k).toNat = bs[k]) ∧
      (∀ x : DWord, (∀ k < bs.length, x ≠ a + BitVec.ofNat 64 k) →
        m.read x.toNat = s.mem.read x.toNat) := by
  induction bs generalizing s a with
  | nil => exact ⟨s.mem, s.stale, rfl, fun k hk => absurd hk (by simp), fun _ _ => rfl⟩
  | cons b bs ih =>
    have e0 : a + BitVec.ofNat 64 0 = a := by simp
    have c0 := hc 0 (by simp)
    rw [e0] at c0
    have hl' : bs.length + 1 < 2 ^ 64 := hl
    unfold State.storeBytes
    rw [State.storeByte_plain a b c0]
    obtain ⟨m, old, h1, h2, h3⟩ := ih { s with
      mem := s.mem.write a.toNat b
      stale := noteStale s.stale a (s.mem.read a.toNat) } (a + 1) (by omega)
      (Memory.wf_write _ _ hw) (by
        intro k hk
        have := hc (k + 1) (by simp; omega)
        rw [addr_succ] at this
        exact this)
    refine ⟨m, old, h1, ?_, ?_⟩
    · intro k hk
      rcases k with _ | k
      · rw [e0, h3 a, Memory.read_write hw, if_pos rfl]
        · rfl
        intro i hi he
        have := congrArg BitVec.toNat he
        rw [BitVec.toNat_add, BitVec.toNat_add, BitVec.toNat_ofNat,
          show (1 : DWord).toNat = 1 from rfl] at this
        have := a.isLt
        omega
      · rw [addr_succ]
        exact h2 k (by simpa using hk)
    · intro x hx
      rw [h3 x (fun k hk => by
        have := hx (k + 1) (by simp; omega)
        rw [addr_succ] at this
        exact this)]
      dsimp only
      rw [Memory.read_write hw, if_neg]
      intro he
      have := hx 0 (by simp)
      rw [e0] at this
      exact this (BitVec.eq_of_toNat_eq he)

/-! ## An access that meets an address that is no memory -/

/-- How an operation ends at an address that is no memory (20 R78, R79). -/
def Res.stopped {α : Type} (x : Admission) : Res α :=
  match x with
  | .device => .refused .bufferOnDevice
  | _ => .stuck

@[simp] theorem Res.bind_stopped {α β : Type} (x : Admission) (f : α → State → Res β) :
    (Res.stopped x : Res α).bind f = .stopped x := by
  cases x <;> rfl

/-- The first address of a run, and the rest of it. -/
theorem State.blockedAt_succ {a : DWord} {n : Nat} {x : Admission} (h : s.blockedAt a (n + 1) x) :
    s.admission a = .memory ∧ s.blockedAt (a + 1) n x := by
  refine ⟨by simpa using h.1 0 (by omega), fun k hk => ?_, ?_⟩
  · rw [← addr_succ]; exact h.1 (k + 1) (by omega)
  · rw [← addr_succ]; exact h.2

theorem State.portRead_blocked {a : DWord} {x : Admission} (hx : x ≠ .memory)
    (h : s.admission a = x) : s.portRead a = .stopped x := by
  unfold State.portRead
  rw [h]
  cases x <;> first | rfl | exact absurd rfl hx

/-- A read of memory gives some byte. -/
theorem State.portRead_memory {a : DWord} (h : s.admission a = .memory) :
    ∃ (b : Byte) (f : Nat), s.portRead a = .ok b { s with free := f } := by
  unfold State.portRead
  rw [h]
  dsimp only
  split
  · exact ⟨_, _, rfl⟩
  · exact ⟨_, s.free, rfl⟩

theorem State.portReadBytes_blocked {a : DWord} {n k : Nat} {x : Admission} (hx : x ≠ .memory)
    (hk : k < n) (h : s.blockedAt a k x) : s.portReadBytes a n = .stopped x := by
  induction n generalizing s a k with
  | zero => omega
  | succ n ih =>
    unfold State.portReadBytes
    rcases k with _ | k
    · rw [State.portRead_blocked hx (by simpa using h.2), Res.bind_stopped]
    · obtain ⟨h1, h2⟩ := State.blockedAt_succ h
      obtain ⟨b, f, e⟩ := State.portRead_memory h1
      rw [e, Res.bind_ok, ih (s := { s with free := f }) (k := k) (by omega) h2, Res.bind_stopped]

theorem State.admissionRun_blocked {a : DWord} {n k : Nat} {x : Admission} (hx : x ≠ .memory)
    (hk : k < n) (h : s.blockedAt a k x) : s.admissionRun a n = x := by
  induction n generalizing a k with
  | zero => omega
  | succ n ih =>
    unfold State.admissionRun
    rcases k with _ | k
    · have h2 := h.2
      rw [show a + BitVec.ofNat 64 0 = a by simp] at h2
      rw [h2]
      cases x <;> first | rfl | exact absurd rfl hx
    · obtain ⟨h1, h2⟩ := State.blockedAt_succ h
      rw [h1]
      exact ih (k := k) (by omega) h2

/-- A write with a byte that is no memory does not happen. -/
theorem State.portWrite_blocked {a : DWord} {bs : List Byte} {k : Nat} {x : Admission}
    (hx : x ≠ .memory) (hk : k < bs.length) (h : s.blockedAt a k x) :
    s.portWrite a bs = .stopped x := by
  unfold State.portWrite
  rw [State.admissionRun_blocked hx hk h]
  cases x <;> first | rfl | exact absurd rfl hx

/-- A fetch inside the body from memory. -/
theorem State.fetchByte_memory (h : s.rptr.toNat < s.handle.nbytes.toNat)
    (ha : s.admission (s.handle.srcBase + s.rptr) = .memory) :
    ∃ (b : Byte) (f : Nat), s.fetchByte = .ok b { s with rptr := s.rptr + 1, free := f } := by
  obtain ⟨b, f, e⟩ := State.portRead_memory ha
  refine ⟨b, f, ?_⟩
  unfold State.fetchByte
  rw [if_neg (by omega), e]
  rfl

theorem State.fetchByte_blocked {x : Admission} (hx : x ≠ .memory)
    (h : s.rptr.toNat < s.handle.nbytes.toNat)
    (ha : s.admission (s.handle.srcBase + s.rptr) = x) : s.fetchByte = .stopped x := by
  unfold State.fetchByte
  rw [if_neg (by omega), State.portRead_blocked hx ha, Res.bind_stopped]

/-- The body byte `n` fetches from now is at an address that is no memory, those before it are in it. -/
abbrev State.bodyBlocked (s : State) (n : Nat) (x : Admission) : Prop :=
  s.rptr.toNat + n < s.handle.nbytes.toNat ∧ s.blockedAt (s.handle.srcBase + s.rptr) n x

/-- After one fetch the blocked byte is one nearer. -/
theorem State.bodyBlocked_succ {n f : Nat} {x : Admission} (c : CallRegs)
    (h : s.bodyBlocked (n + 1) x) :
    s.admission (s.handle.srcBase + s.rptr) = .memory ∧
      State.bodyBlocked { s with rptr := s.rptr + 1, free := f, call := c } n x := by
  obtain ⟨h1, h2⟩ := h
  obtain ⟨h3, h4⟩ := State.blockedAt_succ h2
  have hr := rptr_add (s := s) (n := 1) (by omega)
  rw [BitVec.add_assoc] at h4
  refine ⟨h3, ?_, h4⟩
  change (s.rptr + BitVec.ofNat 64 1).toNat + n < s.handle.nbytes.toNat
  omega

/-- RC_INIT with one of its bytes blocked. -/
theorem fetchCode_blocked {n l c : Nat} {x : Admission} (hx : x ≠ .memory) (hl : n < l)
    (h : s.bodyBlocked n x) : fetchCode l c s = .stopped x := by
  induction n generalizing s l c with
  | zero =>
    obtain ⟨l, rfl⟩ : ∃ k, l = k + 1 := ⟨l - 1, by omega⟩
    unfold fetchCode
    rw [State.fetchByte_blocked hx (by have := h.1; omega) (by simpa using h.2.2), Res.bind_stopped]
  | succ n ih =>
    obtain ⟨l, rfl⟩ : ∃ k, l = k + 1 := ⟨l - 1, by omega⟩
    unfold fetchCode
    obtain ⟨b, f, e⟩ := State.fetchByte_memory (by have := h.1; omega)
      (State.bodyBlocked_succ (f := 0) s.call h).1
    rw [e, Res.bind_ok]
    exact ih (by omega) (State.bodyBlocked_succ s.call h).2

/-- A renormalisation that needs a blocked byte. -/
theorem renormLoop_blocked {n l : Nat} {x : Admission} (hx : x ≠ .memory) (hl : n < l)
    (h : s.bodyBlocked n x) (hr : ∀ k ≤ n, s.call.range.toNat * 256 ^ k < Config.rcBot) :
    renormLoop l s = .stopped x := by
  have h0 := hr 0 (by omega)
  induction n generalizing s l with
  | zero =>
    obtain ⟨l, rfl⟩ : ∃ k, l = k + 1 := ⟨l - 1, by omega⟩
    unfold renormLoop
    rw [if_neg (by omega),
      State.fetchByte_blocked hx (by have := h.1; omega) (by simpa using h.2.2), Res.bind_stopped]
  | succ n ih =>
    obtain ⟨l, rfl⟩ : ∃ k, l = k + 1 := ⟨l - 1, by omega⟩
    unfold renormLoop
    obtain ⟨b, f, e⟩ := State.fetchByte_memory (by have := h.1; omega)
      (State.bodyBlocked_succ (f := 0) s.call h).1
    rw [if_neg (by omega), e, Res.bind_ok]
    have hs : ∀ k ≤ n, (s.call.shiftIn b).range.toNat * 256 ^ k < Config.rcBot := by
      intro k hk
      have h1 := hr (k + 1) (by omega)
      rw [pow_succ, Nat.mul_comm (256 ^ k), ← Nat.mul_assoc] at h1
      refine lt_of_le_of_lt (Nat.mul_le_mul_right _ ?_) h1
      exact Nat.mod_le _ _
    exact ih (by omega) (State.bodyBlocked_succ (s.call.shiftIn b) h).2 hs
      (by have := hs 0 (by omega); simpa using this)

/-- The sub-interval a decision takes, by its width in closed form. -/
theorem CallRegs.narrow_range_le (r : CallRegs) (j : Fin Config.nctx) :
    (r.narrow j (r.decision j)).range.toNat ≤ r.rangeAfter j := by
  unfold CallRegs.narrow CallRegs.rangeAfter
  change (if r.bit j = true then _ else _ : CallRegs).range.toNat ≤ _
  dsimp only
  split
  · exact Nat.mod_le _ _
  · exact Nat.mod_le _ _

/-- A decision that needs a blocked byte. -/
theorem State.decodeBit_blocked {j : Fin Config.nctx} {n : Nat} {x : Admission} (hx : x ≠ .memory)
    (hn : n < s.call.shifts j) (h : s.bodyBlocked n x) : s.decodeBit j = .stopped x := by
  have hr : ∀ k ≤ n, s.call.rangeAfter j * 256 ^ k < Config.rcBot := by
    intro k hk
    unfold CallRegs.shifts shiftsFor at hn
    simp only [Config.rcBot]
    have : k = 0 ∨ k = 1 := by split at hn <;> [omega; (split at hn <;> omega)]
    rcases this with rfl | rfl <;> (split at hn <;> [omega; (split at hn <;> omega)])
  unfold State.decodeBit State.renormalize
  dsimp only
  have key := renormLoop_blocked (l := s.handle.nbytes.toNat - s.rptr.toNat) (n := n)
    (s := { s with call := (s.call.narrow j (s.call.decision j)).update j (s.call.decision j) })
    hx (by have := h.1; omega) h fun k hk =>
      lt_of_le_of_lt (Nat.mul_le_mul_right _ (s.call.narrow_range_le j)) (hr k hk)
  rw [key, Res.bind_stopped]

/-! ## Bytes, halves and offsets -/

@[simp] theorem leBytes_length (n v : Nat) : (leBytes n v).length = n := by
  induction n generalizing v with
  | zero => rfl
  | succ n ih => simp [leBytes, ih]

/-- Byte `k` of a little-endian number (00 R13). -/
theorem leBytes_getElem (n v k : Nat) (h : k < (leBytes n v).length) :
    (leBytes n v)[k] = BitVec.ofNat 8 (v / 256 ^ k) := by
  induction n generalizing v k with
  | zero => simp [leBytes] at h
  | succ n ih =>
    rcases k with _ | k
    · simp [leBytes]
    · simp only [leBytes, List.getElem_cons_succ]
      rw [ih, Nat.div_div_eq_div_mul, pow_succ, Nat.mul_comm]

@[simp] theorem lowHalf_setLow (v : DWord) (w : Word) : lowHalf (setLow v w) = w := by
  unfold lowHalf setLow
  rw [BitVec.extractLsb'_append_eq_right]

@[simp] theorem highHalf_setHigh (v : DWord) (w : Word) : highHalf (setHigh v w) = w := by
  unfold highHalf setHigh
  rw [BitVec.extractLsb'_append_eq_left]

@[simp] theorem lowHalf_setHigh (v : DWord) (w : Word) : lowHalf (setHigh v w) = lowHalf v := by
  unfold setHigh
  conv_lhs => unfold lowHalf
  rw [BitVec.extractLsb'_append_eq_right]
  rfl

@[simp] theorem highHalf_setLow (v : DWord) (w : Word) : highHalf (setLow v w) = highHalf v := by
  unfold setLow
  conv_lhs => unfold highHalf
  rw [BitVec.extractLsb'_append_eq_left]
  rfl

/-- The register at an aligned offset of the window (10 R20, R37). -/
theorem State.regOffset_window (s : State) {off : Nat} (h : off < 0x100) (h4 : off % 4 = 0) :
    s.regOffset (s.plat.mmioBase + BitVec.ofNat 64 off) 4 = .ok off := by
  have e : (s.plat.mmioBase + BitVec.ofNat 64 off - s.plat.mmioBase).toNat = off := by
    rw [add_sub_cancel_left, BitVec.toNat_ofNat]
    omega
  unfold State.regOffset State.inWindow inRange
  rw [e]
  simp [Config.windowSize, h, h4]

end Sys2Proof.Machine
end

