-- ==== Sys2Proof/Laws/System.lean ====
section
/-! SUPPORT. What a read of a running call's bytes can return, and what a turn of the system can
do. Later proofs cite these and do not unfold the operations. -/

namespace Sys2Proof.Machine

variable {s t : State} {y z : System}

/-! ## Reads of a running call's bytes (20 R77, R86) -/

/-- A byte that a list gives for an address stands in the list. -/
theorem mem_of_bytesAt {l : List AddrByte} {a : DWord} {b : Byte} (h : b ∈ bytesAt l a) :
    (a, b) ∈ l := by
  unfold bytesAt at h
  obtain ⟨⟨k, v⟩, h1, h2⟩ := List.mem_filterMap.1 h
  dsimp only at h2
  split at h2
  · rename_i hk
    cases h2
    rw [← hk]
    exact h1
  · cases h2

/-- A choice is one of the bytes it is made among. -/
theorem pickByte_mem {b : Byte} {l : List Byte} (n : Nat) : pickByte (b :: l) n ∈ b :: l := by
  unfold pickByte
  have h : Config.freePick n % (b :: l).length < (b :: l).length := Nat.mod_lt _ (by simp)
  rw [List.getD_eq_getElem _ _ h]
  exact List.getElem_mem h

/-- The byte picked is memory's, one the call has overwritten, or one it is about to write. -/
theorem RunningCall.pick_cases (c : RunningCall) (m : Memory) (a : DWord) (n : Nat) :
    let v := pickByte (c.byteChoices m a) n
    v = m.read a.toNat ∨ (a, v) ∈ c.stale ∨ (a, v) ∈ c.pending := by
  dsimp only
  have h := pickByte_mem (b := m.read a.toNat) (l := bytesAt c.stale a ++ bytesAt c.pending a) n
  rcases List.mem_cons.1 h with h | h
  · exact .inl h
  · rcases List.mem_append.1 h with h | h
    · exact .inr (.inl (mem_of_bytesAt h))
    · exact .inr (.inr (mem_of_bytesAt h))

/-- Outside every running call's destination a host read returns memory's byte. -/
theorem State.sharedByte_none {a : DWord} (h : ∀ c ∈ s.calls, regionHas c.dest a = false) :
    s.sharedByte a = none := by
  refine sharedRead_eq_none.2 ?_
  rw [Bool.eq_false_iff, Ne, List.any_eq_true]
  rintro ⟨c, hc, hd⟩
  rw [h c hc] at hd
  cases hd

/-! ## The System layer (20 R87, R91, 60 R298) -/

/-- A turn of one instance that answers a next system. -/
theorem System.step_next {n : Nat} (h : y.step n = .next z) :
    (y.insts[n]? = none ∧ z = y) ∨
      ∃ s t, y.insts[n]? = some s ∧ Sys2Proof.Machine.step (y.view n s) = .next t ∧
        z = y.afterTurn n s t := by
  unfold System.step at h
  split at h
  · rename_i hn
    cases h
    exact .inl ⟨hn, rfl⟩
  · rename_i s hs
    split at h
    · rename_i t ht
      cases h
      exact .inr ⟨s, t, hs, ht, rfl⟩
    · cases h
    · cases h

/-- Noting the others' destinations changes `clash` only, which grows, and only during a call. -/
theorem State.noteClash_eq (s : State) (l : List Region) :
    ∃ c : List Region, s.noteClash l = { s with clash := c } ∧
      (s.busy = false → c = s.clash) ∧ (∀ r ∈ s.clash, r ∈ c) ∧
      (s.busy = true → ∀ r ∈ l, r ∈ c) := by
  unfold State.noteClash
  split
  · rename_i hb
    refine ⟨addRegions s.clash l, rfl, fun h => absurd hb (by simp [h]),
      fun r hr => List.mem_append_left _ hr, fun _ r hr => ?_⟩
    by_cases hc : r ∈ s.clash
    · exact List.mem_append_left _ hc
    · exact List.mem_append_right _ (List.mem_filter.2 ⟨hr, by simpa using hc⟩)
  · rename_i hb
    exact ⟨s.clash, rfl, fun _ => rfl, fun _ h => h, fun h => absurd h hb⟩

@[simp] theorem State.noteClash_busy (s : State) (l : List Region) :
    (s.noteClash l).busy = s.busy := by
  unfold State.noteClash
  split <;> rfl

@[simp] theorem State.noteClash_runningDest (s : State) (l : List Region) :
    (s.noteClash l).asCall.dest = s.asCall.dest := by
  unfold State.noteClash
  split <;> rfl

/-- An instance after all have noted each other. -/
theorem getElem?_noteClashes (l : List State) (n : Nat) :
    (noteClashes l)[n]? =
      l[n]?.map fun s => s.noteClash ((l.eraseIdx n).flatMap State.runningDest) := by
  unfold noteClashes
  rw [List.getElem?_mapIdx]

/-- A host store adds its address to the ones raced on, and nothing else is seen of a turn. -/
theorem System.getElem?_seen (y : System) (e : Option Event) (m : Nat) :
    ((y.seen e)[m]? = y.insts[m]?) ∨
      ∃ a b, e = some (.store a b) ∧ (y.seen e)[m]? = y.insts[m]?.map (·.markRaced a) := by
  unfold System.seen
  split
  · exact .inr ⟨_, _, rfl, by rw [List.getElem?_map]⟩
  · exact .inl rfl

/-- Memory keeps its canonical form where overlaps become any value. -/
theorem freeOverlap_wf (r : Region) (l : List AddrByte) {m : Memory} (n : Nat) (h : m.wf = true) :
    (freeOverlap r l m n).1.wf = true := by
  induction l generalizing m n with
  | nil => exact h
  | cons e l ih =>
    obtain ⟨a, b⟩ := e
    unfold freeOverlap
    split
    · exact ih _ (Memory.wf_write a _ h)
    · exact ih _ h

/-- On its turn an instance has every other instance's window as device registers (20 R78). -/
theorem System.view_admission {n m : Nat} {p : State} (s : State) {a : DWord} (hm : m ≠ n)
    (hp : y.insts[m]? = some p) (h : p.inWindow a = true) :
    (y.view n s).admission a = .device := by
  have hin : p.asPeer ∈ (y.view n s).peers := by
    refine List.mem_map_of_mem ?_
    rw [List.mem_eraseIdx_iff_getElem?]
    exact ⟨m, hm, hp⟩
  have hw : (y.view n s).inPeerWindow a = true := List.any_eq_true.2 ⟨_, hin, h⟩
  unfold State.admission
  rw [hw]
  simp

end Sys2Proof.Machine
end

