-- ==== Sys2Proof/Tests/Slice0.lean ====
section
/-! SUPPORT. The model's own tests: the refusals of WellFormed, words written out from the spec's
encodings, single steps whose expected results are the vectors of 95_test_vectors, and for every
obligation with hypotheses a state and operands that meet them. -/

namespace Sys2Proof.Tests

open Sys2Proof Sys2Proof.Machine

set_option Elab.async false

/-! ## WellFormed refuses ill-formed terms -/

theorem test_wf_reservedLow_below : (Instr.reservedLow 3).wf = false := by decide
theorem test_wf_reservedLow_above : (Instr.reservedLow 8).wf = false := by decide
theorem test_wf_reservedHigh_below : (Instr.reservedHigh 7).wf = false := by decide
theorem test_wf_unusedLow_below : (Instr.unusedLow 9).wf = false := by decide
theorem test_wf_unusedLow_above : (Instr.unusedLow 12).wf = false := by decide
theorem test_wf_unusedHigh_below : (Instr.unusedHigh 11).wf = false := by decide

/-! ## Decoding: words written out from 30_encoding R110 and R120 -/

theorem test_decode_nop : decode [0x00, 0x00, 0x00, 0x00] = .ok .nop := by decide
theorem test_decode_nop_high_bits : decode [0xF0, 0xFF, 0xFF, 0xFF] = .ok .nop := by decide
theorem test_decode_open : decode [0x01, 0x00, 0x00, 0x00] = .ok .openStream := by decide
/-- 95 section 2.1: 0xFFFFFFF2 is DECOMPRESS. -/
theorem test_decode_decompress : decode [0xF2, 0xFF, 0xFF, 0xFF] = .ok .decompress := by decide
theorem test_decode_dekompress : decode [0x03, 0x00, 0x00, 0x00] = .ok .dekompress := by decide
theorem test_decode_reserved_low : decode [0x04, 0x00, 0x00, 0x00] = .ok (.reservedLow 4) := by
  decide
theorem test_decode_reserved_high : decode [0x08, 0x00, 0x00, 0x00] = .ok (.reservedHigh 8) := by
  decide
theorem test_decode_idle : decode [0x00] = .ok .idle := by decide
theorem test_decode_rc_init : decode [0x01] = .ok .rcInit := by decide
theorem test_decode_predict : decode [0x02] = .ok .predict := by decide
theorem test_decode_zero : decode [0x03] = .ok .zero := by decide
theorem test_decode_sign : decode [0x04] = .ok .sign := by decide
theorem test_decode_sig : decode [0x05] = .ok .sig := by decide
theorem test_decode_ref : decode [0x06] = .ok .ref := by decide
theorem test_decode_recon : decode [0x07] = .ok .recon := by decide
theorem test_decode_emit : decode [0x08] = .ok .emit := by decide
theorem test_decode_final : decode [0x09] = .ok .final := by decide
theorem test_decode_unused_low : decode [0x0A] = .ok (.unusedLow 10) := by decide
theorem test_decode_unused_high : decode [0x0F] = .ok (.unusedHigh 15) := by decide
theorem test_decode_refuses_two_bytes : decode [0x01, 0x00] = .error (.length 2) := by decide

/-! ## States the tests start from -/

/-- Scenario A's stream (95 section 1.1). -/
def streamA : List Byte :=
  [0x46, 0x50, 0x5A, 0x00, 0x01, 0x00, 0x20, 0x02, 0x00, 0x00, 0x00, 0x02, 0x00, 0x00, 0x00,
   0x01, 0x00, 0x00, 0x00, 0x01, 0x00, 0x00, 0x00,
   0x2F, 0xDF, 0xFF, 0xFF, 0x00, 0x03, 0x6F, 0xC6, 0x32, 0xA0, 0xB5, 0x80]

/-- Scenario A's handle (95 section 1.1), the stream at 0x1000. -/
def handleA : Handle where
  typ := 0
  prec := 32
  nx := 2
  ny := 2
  nz := 1
  nf := 1
  nvox := 4
  nbytes := 35
  srcBase := 0x1000

/-- Scenario A before OPEN, with one byte of the header replaced. -/
def placed (k : Nat) (b : Byte) : State :=
  { State.reset with
    mem := Memory.place [] 0x1000 (streamA.set k b)
    regs := {
      srcBase := 0x1000
      srcLen := 35
      dstBase := 0x2000
      dstCount := 4
      dstType := 0 } }

/-- Scenario A after OPEN. -/
def opened : State :=
  { placed 0 0x46 with handle := handleA, hv := true, callState := .headerParsed, rptr := 23 }

/-- Scenario A in a call, at a phase. -/
def calling (p : BitVec 4) : State :=
  { opened with callState := .decoding, phase := p, cDstBase := 0x2000 }

/-- A call whose next decision in context 0 has the interval and counters given, over body bytes
`AB CD`; `len` body bytes are left (95 section 2.2). -/
def deciding (range code : Word) (c0 c1 : BitVec 16) (len : DWord) : State :=
  { calling 3 with
    mem := Memory.place [] 0x1017 [0xAB, 0xCD]
    handle := { handleA with nbytes := 23 + len }
    call := { CallRegs.atReset with
      range := range
      code := code
      c0 := CallRegs.atReset.c0.set 0 c0
      c1 := CallRegs.atReset.c1.set 0 c1
      pred := 0x1234 } }

/-- A call at a residual step: every decision of this interval takes no byte and decodes `b`. -/
def atStep (p : BitVec 4) (b : Bool) (r : CallRegs) : State :=
  { calling p with
    call := { r with
      range := 0xFFFFFFFF
      code := if b then 0x7FFFFFFF else 0x7FFFFFFE } }

/-- What an outcome shows, where it is a next state. -/
def see {α : Type} (f : State → α) : Host.Outcome State Fault Refusal → Option α
  | .next t => some (f t)
  | .fault _ => none
  | .refused _ => none

/-- The interval and the counters of context 0. -/
def coderOf (s : State) : Word × Word × BitVec 16 × BitVec 16 × DWord :=
  (s.call.range, s.call.code, s.call.c0[0], s.call.c1[0], s.rptr)

/-- The reference encoder makes scenario A's stream (95 section 1.1; 30 R131). -/
theorem test_reference_scenarioA :
    encStream handleA [0x3F800000, 0x40000000, 0x40400000, 0x40800000] = streamA := by
  decide +kernel

/-! ## Commands (95 section 2.1) -/

theorem test_nop_keeps_ign :
    see State.ign (exec .nop { calling 3 with ign := true }) = some true := by decide

theorem test_open_scenarioA :
    see (fun t => (t.statusWord, t.handle, t.rptr)) (exec .openStream (placed 0 0x46)) =
      some (0x00000011, handleA, 23) := by decide +kernel

theorem test_open_bad_magic_first :
    see (fun t => (t.statusWord, t.handle)) (exec .openStream (placed 0 0x47)) =
      some (0x00002104, Handle.cleared) := by decide +kernel

theorem test_decompress_accepted :
    see (fun t => (t.statusWord, t.vi, t.rptr)) (exec .decompress opened) =
      some (0x0001001A, 0, 23) := by decide +kernel

/-- 95 section 2.1: 64-bit compare of DST_COUNT. -/
theorem test_decompress_count_64 :
    see State.statusWord
      (exec .decompress { opened with regs := { opened.regs with dstCount := 0x100000004 } }) =
      some 0x00000314 := by decide +kernel

theorem test_dekompress_reserved :
    see (fun t => (t.statusWord, t.handle)) (exec .dekompress opened) =
      some (0x00001714, handleA) := by decide +kernel

theorem test_reservedLow_while_decoding :
    see (fun t => (t.ign, t.phase, t.err)) (exec (.reservedLow 4) (calling 3)) =
      some (true, 3, 0) := by decide

theorem test_reservedHigh_fails :
    see State.statusWord (exec (.reservedHigh 15) opened) = some 0x00001714 := by decide +kernel

theorem test_idle_waits : see State.phase (exec .idle opened) = some 0 := by decide

/-! ## The range decoder (95 section 2.2) -/

theorem test_rc_init_first_bytes :
    see (fun t => (t.call.code, t.call.range, t.rptr, t.phase)) (exec .rcInit (calling 1)) =
      some (0x2FDFFFFF, 0xFFFFFFFF, 27, 2) := by decide +kernel

theorem test_rc_init_starved :
    see (fun t => (t.statusWord, t.rptr))
      (exec .rcInit { calling 1 with handle := { handleA with nbytes := 25 } }) =
      some (0x00001514, 25) := by decide +kernel

/-- Vector 3 of `DecodeBit`: CODE = split decodes 1, the remainder goes to 1. -/
theorem test_zero_vector3 :
    see coderOf (exec .zero (deciding 0xFFFFFFFF 0x7FFFFFFF 1 1 0)) =
      some (0x80000000, 0, 1, 17, 23) := by decide +kernel

/-- Vector 4 of `DecodeBit`: halving, and two bytes fetched. -/
theorem test_zero_vector4 :
    see coderOf (exec .zero (deciding 0x01000000 0x00FFF800 8191 1 2)) =
      some (0x08000000, 0x0000ABCD, 4096, 9, 25) := by decide +kernel

theorem test_final_trailing :
    see (fun t => (t.statusWord, t.rptr))
      (exec .final { calling 9 with rptr := 35, handle := { handleA with nbytes := 36 } }) =
      some (0x00006514, 35) := by decide +kernel

theorem test_final_complete :
    see State.statusWord (exec .final { calling 9 with rptr := 35 }) = some 0x00000013 := by
  decide +kernel

/-! ## The residual (95 section 2.3) -/

theorem test_sign_empty :
    see State.statusWord (exec .sign (atStep 4 true CallRegs.atReset)) = some 0x00003514 := by
  decide +kernel

theorem test_sign_bound :
    see (fun t => (t.call.sgn, t.call.bnd, t.call.plane, t.phase))
      (exec .sign (atStep 4 true { CallRegs.atReset with pred := 0xFFFFFFFF, mag := 7 })) =
      some (1, 0xFFFFFFFF, 31, 5) := by decide +kernel

theorem test_sig_top_bit :
    see (fun t => (t.call.mag, t.call.plane, t.phase))
      (exec .sig (atStep 5 true { CallRegs.atReset with plane := 30, bnd := 0x40800000 })) =
      some (0x40000000, 29, 6) := by decide +kernel

theorem test_sig_mag_over :
    see State.statusWord
      (exec .sig (atStep 5 true { CallRegs.atReset with plane := 31, bnd := 0x40800000 })) =
      some 0x00005514 := by decide +kernel

theorem test_ref_last_plane :
    see (fun t => (t.call.mag, t.phase))
      (exec .ref (atStep 6 true { CallRegs.atReset with plane := 0, mag := 4, bnd := 5 })) =
      some (5, 7) := by decide +kernel

theorem test_ref_mag_over :
    see State.statusWord
      (exec .ref (atStep 6 true { CallRegs.atReset with plane := 1, mag := 4, bnd := 5 })) =
      some 0x00005514 := by decide +kernel

theorem test_recon_minus :
    see (fun t => (t.call.u, t.phase))
      (exec .recon { calling 7 with
        call := { CallRegs.atReset with pred := 0xC0C00000, sgn := 1, mag := 0x00400000 } }) =
      some (0xC0800000, 8) := by decide +kernel

theorem test_recon_plus :
    see (fun t => t.call.u)
      (exec .recon { calling 7 with
        call := { CallRegs.atReset with pred := 0x7FFFFFFF, sgn := 0, mag := 1 } }) =
      some 0x80000000 := by decide +kernel

/-! ## The predictor and the output (95 sections 2.4 and 2.6) -/

/-- Voxel (1,1,0,0) of a (2,2,1,1) volume with three values decoded. -/
def predicting (v0 v1 v2 : DWord) : State :=
  { calling 2 with
    vi := 3
    call := { CallRegs.atReset with vx := 1, vy := 1, nb := [(2, v2), (1, v1), (0, v0)] } }

theorem test_predict_sum :
    see (fun t => (t.call.pred, t.phase))
      (exec .predict (predicting 0xBF800000 0xC0000000 0xC0400000)) =
      some (0xC0C00000, 3) := by decide +kernel

theorem test_predict_clamped_at_zero :
    see (fun t => t.call.pred) (exec .predict (predicting 10 0 5)) = some 0 := by decide +kernel

/-- EMIT of 2.0 at VI = 1. -/
theorem test_emit_element :
    see (fun t => ([0x2003, 0x2004, 0x2005, 0x2006, 0x2007].map t.mem.read, t.vi, t.phase))
      (exec .emit { calling 8 with vi := 1, call := { CallRegs.atReset with u := 0xC0000000 } }) =
      some ([0x00, 0x00, 0x00, 0x00, 0x40], 2, 2) := by decide +kernel

/-- EMIT of an element that wraps past the last address; addresses 0 to 3 held `FF`. -/
theorem test_emit_wraps :
    see (fun t => ([0, 1, 2, 3, 4].map t.mem.read, t.vi))
      (exec .emit { calling 8 with
        mem := [(0, 0xFF), (1, 0xFF), (2, 0xFF), (3, 0xFF), (4, 0xFF)]
        cDstBase := 0xFFFFFFFFFFFFFFFC
        vi := 1
        call := { CallRegs.atReset with u := 0x80000000 } }) =
      some ([0x00, 0x00, 0x00, 0x00, 0xFF], 2) := by decide +kernel

theorem test_unused_low : exec (.unusedLow 10) State.reset = .fault .unusedPhase := rfl
theorem test_unused_high : exec (.unusedHigh 12) State.reset = .fault .unusedPhase := rfl

/-! ## The register window -/

theorem test_status_reset : State.reset.readReg 0x08 = 0 := by decide
theorem test_read_id : State.reset.readReg 0x00 = 0x445A5046 := by decide
/-- 95 section 2.5: the raw pattern of 0.1 at P = 20. -/
theorem test_value_map_f64 : invMap 64 20 0xBFB99 = 0x3FB9900000000000 := by decide +kernel

/-! ## Other agents and the reset input -/

/-- 20 R77: a reader of the element that EMIT is about to write gets old or new bytes, and so does one
after it. -/
theorem test_element_read_old_or_new :
    (let s : State := { calling 8 with vi := 1, call := { CallRegs.atReset with u := 0xC0000000 } };
      s.asCall.byteChoices s.mem 0x2007 = [0x00, 0x40] ∧
        see (fun t => t.asCall.byteChoices t.mem 0x2007) (exec .emit s) = some [0x40, 0x00]) := by
  decide +kernel

/-- 70 R310: a register write in reset is lost. -/
theorem test_write_in_reset_is_lost :
    see (fun t => t.regs.srcLen)
      ((calling 3).hardwareReset.access (Config.platform.mmioBase + 0x18) 4 (.write 7)) =
      some 0 := by decide +kernel

/-! ## Witnesses: hypotheses of the obligations that a state and operands meet

Each theorem is named after the obligation it serves; several clauses stand together. -/

theorem witness_DecodeOfEncodeIsIdentity :
    (Instr.reservedLow 7).wf = true ∧ (Instr.unusedHigh 15).wf = true := by decide

/-- A write of an OPEN word to CTRL is the next event. -/
def ctrlPending (s : State) : State :=
  { s with events := [.access (s.plat.mmioBase + 4) 4 (.write 0x10000001)] }

theorem witness_StepRunsDecodedInstruction :
    (Instr.zero.wf = true ∧ decode [(calling 3).phase.setWidth 8] = .ok .zero ∧
      (calling 3).resetApplied = false ∧ (calling 3).stuck = false ∧ (calling 3).events = []) ∧
    (let s := ctrlPending opened;
      Instr.openStream.wf = true ∧ decode (bytesOfWord 0x10000001) = .ok .openStream ∧
        s.events = [.access (s.plat.mmioBase + 4) 4 (.write 0x10000001)] ∧
        s.resetApplied = false ∧ s.stuck = false) ∧
    ({ ctrlPending (calling 3) with stuck := true } : State).callState = .decoding ∧
    (let s := ctrlPending { placed 0 0x46 with stuck := true };
      s.stuck = true ∧ s.callState ≠ .decoding) ∧
    (ctrlPending (calling 3).hardwareReset).resetApplied = true := by decide +kernel

theorem witness_PlacedWordRunsNext :
    decodeTableWord 8 5 = some .sig ∧ decodeTableWord 32 1 = some .openStream := by decide

theorem witness_CommandWhileDecodingSetsIgnOnly :
    Instr.openStream.format = .ctrl ∧ Instr.openStream ≠ .nop ∧
      (calling 9).callState = .decoding := by decide

/-- Also for DecompressStartsCall and DecompressReportsFirstError, whose state this is. -/
theorem witness_ReservedCommandFails : opened.callState ≠ .decoding := by decide

theorem headerReady_placed (k : Nat) (b : Byte) : (placed k b).headerReady := by
  refine ⟨(by decide : CallState.unopened ≠ .decoding), ?_, ?_⟩
  · show (23 : Nat) ≤ 35
    decide
  · show ∀ i < 23, State.admission State.reset (0x1000 + BitVec.ofNat 64 i) = .memory ∧
      State.contested State.reset (0x1000 + BitVec.ofNat 64 i) = false
    decide +kernel

theorem witness_OpenLatchesLegalHeader :
    (placed 0 0x46).headerReady ∧ (placed 0 0x46).sourceMagic ∧ (placed 0 0x46).sourceByte 4 = 1 ∧
      ((placed 0 0x46).sourceByte 5).toNat ≤ 1 ∧ ¬ (placed 0 0x46).sourceZeroDim ∧
      (placed 0 0x46).sourceCount < 2 ^ 64 ∧ (placed 0 0x46).sourceByte 6 ≠ 0 ∧
      ((placed 0 0x46).sourceByte 6).toNat ≤ (placed 0 0x46).sourceWidth :=
  ⟨headerReady_placed _ _, by decide +kernel⟩

theorem witness_OpenShortStreamFails :
    let s : State := { State.reset with regs := { HostRegs.cleared with srcLen := 22 } }
    s.callState ≠ .decoding ∧ s.regs.srcLen.toNat < 23 := by decide

/-- A header whose four dimensions are 65536 (95 section 2.1). -/
def hugeHeader : List Byte :=
  [0x46, 0x50, 0x5A, 0x00, 0x01, 0x00, 0x20, 0x00, 0x00, 0x01, 0x00, 0x00, 0x00, 0x01, 0x00,
   0x00, 0x00, 0x01, 0x00, 0x00, 0x00, 0x01, 0x00]

theorem witness_OpenReportsFirstHeaderError :
    (placed 0 0x47).headerReady ∧
      firstError (placed 0 0x47).openChecks = some (1, 2) ∧
      firstError (placed 4 0x02).openChecks = some (1, 3) ∧
      firstError (placed 5 0x02).openChecks = some (1, 4) ∧
      firstError (placed 15 0x00).openChecks = some (1, 5) ∧
      firstError (State.openChecks { placed 0 0x46 with mem := Memory.place [] 0x1000 hugeHeader }) =
        some (1, 6) ∧
      firstError (placed 6 0x00).openChecks = some (2, 1) ∧
      firstError (placed 6 0x21).openChecks = some (2, 2) :=
  ⟨headerReady_placed _ _, by decide +kernel⟩

/-- The platform has a hole at this address. -/
def holed (s : State) (a : DWord) : State :=
  { s with plat := { s.plat with holes := [⟨a, 1⟩] } }

theorem witness_OpenNotAdmittedIsStuck :
    let s := holed (placed 0 0x46) 0x1016
    s.callState ≠ .decoding ∧ 23 ≤ s.regs.srcLen.toNat ∧ 22 < 23 ∧
      (∀ j < 22, s.admission (s.regs.srcBase + BitVec.ofNat 64 j) = .memory) ∧
      s.admission (s.regs.srcBase + BitVec.ofNat 64 22) = .absent := by decide +kernel

/-- The window of scenario A is 3, so `NB_DEPTH = 3` is just enough. -/
theorem witness_DecompressStartsCall :
    let s : State := { opened with plat := { Config.platform with nbDepth := some 3 } }
    s.callState ≠ .decoding ∧ s.hv = true ∧ firstError s.decompressChecks = none := by
  decide +kernel

theorem witness_DecompressReportsFirstError :
    (placed 0 0x46).hv = false ∧
    firstError (State.decompressChecks { opened with
      regs := { opened.regs with dstCount := 3, dstType := 1 } }) = some (3, 0) ∧
    firstError (State.decompressChecks { opened with
      regs := { opened.regs with dstType := 1 } }) = some (4, 0) ∧
    firstError (State.decompressChecks { opened with
      plat := { Config.platform with nbDepth := some 2 } }) = some (6, 0) := by
  refine ⟨rfl, ?_, ?_, ?_⟩ <;> decide +kernel

theorem witness_UpdateKeepsCountersLegal :
    countersOk 8191 1 ∧ countersOk 1 1 ∧ countersOk 8175 1 := by decide

theorem witness_DecisionKeepsIntervalWide :
    (deciding 0x01000000 0x00FFFFFF 8191 1 0).call.coderOk 0 ∧
      (deciding 0xFFFFFFFF 0 1 1 0).call.coderOk 0 := by decide +kernel

/-- Decisions that fetch 2, 1 and 0 bytes; also for ZeroStepResult. -/
theorem witness_DecodeBitClosedForm :
    (deciding 0x01000000 0x00FFF800 8191 1 2).decisionReady 0 ∧
      (deciding 0x01000000 0x00FFF800 8191 1 2).call.shifts 0 = 2 ∧
      (deciding 0x01000000 0x00FFF7FF 8191 1 1).decisionReady 0 ∧
      (deciding 0x01000000 0x00FFF7FF 8191 1 1).call.shifts 0 = 1 ∧
      (deciding 0xFFFFFFFF 0x7FFFFFFE 1 1 0).decisionReady 0 := by
  refine ⟨?_, ?_, ?_, ?_, ?_⟩ <;> decide +kernel

/-- Vector 6 of `DecodeBit`: the second of two bytes is missing. -/
theorem witness_StarvedDecisionFails :
    let s := deciding 0x01000000 0x00FFF800 8191 1 1
    stepContext .zero s = some 0 ∧ s.call.coderOk 0 ∧ 1 < s.call.shifts 0 ∧
      s.rptr.toNat + 1 = s.handle.nbytes.toNat ∧
      s.plainRun (s.handle.srcBase + s.rptr) 1 := by
  refine ⟨?_, ?_, ?_, ?_, ?_⟩ <;> decide +kernel

/-- A hole at the first byte of a decision, at its second, and at the last byte of RC_INIT. -/
theorem witness_DecisionNotAdmittedIsStuck :
    (let s := holed (deciding 0x01000000 0x00FFF800 8191 1 2) 0x1017;
      s.rptr.toNat + 0 < s.handle.nbytes.toNat ∧
        s.blockedAt (s.handle.srcBase + s.rptr) 0 .absent ∧
        stepContext .zero s = some 0 ∧ s.call.coderOk 0 ∧ 0 < s.call.shifts 0) ∧
    (let s := holed (deciding 0x01000000 0x00FFF800 8191 1 2) 0x1018;
      s.rptr.toNat + 1 < s.handle.nbytes.toNat ∧
        s.blockedAt (s.handle.srcBase + s.rptr) 1 .absent ∧
        stepContext .zero s = some 0 ∧ s.call.coderOk 0 ∧ 1 < s.call.shifts 0) ∧
    (let s := holed (calling 1) 0x101A;
      s.rptr.toNat + 3 < s.handle.nbytes.toNat ∧
        s.blockedAt (s.handle.srcBase + s.rptr) 3 .absent) := by
  refine ⟨⟨?_, ?_, ?_, ?_, ?_⟩, ⟨?_, ?_, ?_, ?_, ?_⟩, ?_, ?_⟩ <;> decide +kernel

theorem witness_RcInitLoadsCode :
    (calling 1).bodyReady 4 ∧ (calling 1).bodyNat 4 = 0x2FDFFFFF := by decide +kernel

theorem witness_RcInitRejectsBadStart :
    (let s : State := { calling 1 with
        mem := Memory.place [] 0x1017 [0xFF, 0xFF, 0xFF, 0xFF] };
      s.bodyReady 4 ∧ s.bodyNat 4 = 0xFFFFFFFF) ∧
    (let s : State := { calling 1 with handle := { handleA with nbytes := 26 } };
      s.rptr.toNat + 3 = s.handle.nbytes.toNat ∧
        s.plainRun (s.handle.srcBase + s.rptr) 3) := by decide +kernel

theorem witness_FinalCompletesExactBody :
    ({ calling 9 with rptr := 35 } : State).rptr = (calling 9).handle.nbytes ∧
      ({ calling 9 with rptr := 34 } : State).rptr ≠ (calling 9).handle.nbytes := by decide

/-- A sign with a bound, at P = 32. -/
theorem witness_SignStepResult :
    let s := atStep 4 true { CallRegs.atReset with pred := 0xFFFFFFFF }
    s.decisionReady 1 ∧ 1 ≤ s.precision ∧ s.precision ≤ 64 ∧
      s.call.pred.toNat ≤ 2 ^ s.precision - 1 ∧ s.call.bit 1 = true ∧ s.call.pred.toNat ≠ 0 := by
  refine ⟨?_, ?_, ?_, ?_, ?_, ?_⟩ <;> decide +kernel

theorem witness_SignStepResult_empty :
    let s := atStep 4 false { CallRegs.atReset with pred := 0xFFFFFFFF }
    s.decisionReady 1 ∧ s.call.pred.toNat ≤ 2 ^ s.precision - 1 ∧ s.call.bit 1 = false ∧
      2 ^ s.precision - 1 - s.call.pred.toNat = 0 := by
  refine ⟨?_, ?_, ?_, ?_⟩ <;> decide +kernel

/-- SIG at planes 0 and 63, with both decisions, at the bound and past it. -/
theorem witness_SigStepResult :
    (let s := atStep 5 true { CallRegs.atReset with plane := 63, bnd := 0x8000000000000000 };
      (65 : Fin 129).val = 2 + s.call.plane.toNat ∧ s.decisionReady 65 ∧ s.call.bit 65 = true ∧
        2 ^ s.call.plane.toNat ≤ s.call.bnd.toNat) ∧
    (let s := atStep 5 true { CallRegs.atReset with plane := 63, bnd := 0x7FFFFFFFFFFFFFFF };
      (65 : Fin 129).val = 2 + s.call.plane.toNat ∧ s.decisionReady 65 ∧ s.call.bit 65 = true ∧
        s.call.bnd.toNat < 2 ^ s.call.plane.toNat) ∧
    (let s := atStep 5 false { CallRegs.atReset with plane := 1, bnd := 1 };
      (3 : Fin 129).val = 2 + s.call.plane.toNat ∧ s.decisionReady 3 ∧ s.call.bit 3 = false ∧
        s.call.plane ≠ 0) ∧
    (let s := atStep 5 false { CallRegs.atReset with plane := 0, bnd := 1 };
      (2 : Fin 129).val = 2 + s.call.plane.toNat ∧ s.decisionReady 2 ∧ s.call.bit 2 = false ∧
        s.call.plane = 0) := by
  refine ⟨⟨?_, ?_, ?_, ?_⟩, ⟨?_, ?_, ?_, ?_⟩, ⟨?_, ?_, ?_, ?_⟩, ?_, ?_, ?_, ?_⟩ <;> decide +kernel

/-- REF at planes 62 and 0, at the bound and past it. -/
theorem witness_RefStepResult :
    (let s := atStep 6 false { CallRegs.atReset with
        plane := 62, mag := 0x8000000000000000, bnd := 0x8000000000000000 };
      (128 : Fin 129).val = 66 + s.call.plane.toNat ∧ s.decisionReady 128 ∧
        s.call.bit 128 = false ∧ s.call.mag.toNat ≤ s.call.bnd.toNat) ∧
    (let s := atStep 6 true { CallRegs.atReset with plane := 0, mag := 4, bnd := 4 };
      (66 : Fin 129).val = 66 + s.call.plane.toNat ∧ s.decisionReady 66 ∧ s.call.bit 66 = true ∧
        s.call.bnd.toNat < (s.call.mag ||| 1).toNat) := by
  refine ⟨⟨?_, ?_, ?_, ?_⟩, ?_, ?_, ?_, ?_⟩ <;> decide +kernel

theorem witness_ReconStepResult :
    (let s : State := { calling 7 with
        call := { CallRegs.atReset with pred := 5, bnd := 0xFFFFFFFA, mag := 0xFFFFFFFA } };
      1 ≤ s.precision ∧ s.precision ≤ 64 ∧ s.call.pred.toNat ≤ 2 ^ s.precision - 1 ∧
        s.boundHeld ∧ s.call.mag.toNat ≤ s.call.bnd.toNat ∧ s.call.sgn = 0) ∧
    (let s : State := { calling 7 with
        call := { CallRegs.atReset with pred := 5, bnd := 5, mag := 5, sgn := 1 } };
      s.boundHeld ∧ s.call.mag.toNat ≤ s.call.bnd.toNat ∧ s.call.sgn = 1) := by
  refine ⟨⟨?_, ?_, ?_, ?_, ?_, ?_⟩, ?_, ?_, ?_⟩ <;> decide +kernel

/-- Also for LorenzoSumFitsAccumulator. -/
theorem witness_PredictClampsCellSum :
    let s := predicting 0xFFFFFFFF 0 0xFFFFFFFF
    s.precision ≤ 64 ∧ s.neighboursWritten ∧
      ∀ e ∈ s.call.nb, e.2.toNat ≤ 2 ^ s.precision - 1 := by
  refine ⟨?_, ?_, ?_⟩ <;> decide +kernel

theorem witness_WindowCoversNeighbours :
    (1 < 2 ∧ 1 < 2 ∧ 1 < 2 ∧ 1 < 2) ∧
      (⟨1, 1, 1, 1⟩ : Neighbour) ∈ neighbours ∧
      Neighbour.inBounds ⟨1, 1, 1, 1⟩ 1 1 1 1 = true := by decide

/-- The last voxel, and one with a successor in the volume. -/
theorem witness_AdvanceVisitsNextIndex :
    (let r : CallRegs := { CallRegs.atReset with vx := 1, vy := 1 };
      r.vx.toNat < handleA.nx.toNat ∧ r.vy.toNat < handleA.ny.toNat ∧
        r.vz.toNat < handleA.nz.toNat ∧ r.vf.toNat < handleA.nf.toNat ∧
        2 * 2 * 1 * 1 ≤ linearIndex 2 2 1 1 1 0 0 + 1) ∧
      linearIndex 2 2 1 1 0 0 0 + 1 < 2 * 2 * 1 * 1 := by decide

theorem witness_ValueMapRoundTrips :
    (1 ≤ 1 ∧ 1 ≤ 64) ∧ (1 ≤ 64 ∧ 64 ≤ 64) ∧ (1 < 2 ^ 1) ∧ 0xFFFFFFFF < 2 ^ 32 := by decide

theorem witness_EmitWritesElement :
    let s : State := { calling 8 with vi := 3 }
    s.mem.wf = true ∧ s.plainRun (s.cDstBase + BitVec.ofNat 64 (3 * 4)) 4 := by
  refine ⟨?_, ?_⟩ <;> decide +kernel

theorem witness_EmitNotAdmittedIsStuck :
    let s := holed (calling 8) 0x2003
    3 < elemBytes s.handle.typ ∧
      (∀ j < 3, s.admission (s.cDstBase +
        BitVec.ofNat 64 (s.vi.toNat * elemBytes s.handle.typ + j)) = .memory) ∧
      s.admission (s.cDstBase +
        BitVec.ofNat 64 (s.vi.toNat * elemBytes s.handle.typ + 3)) = .absent := by decide +kernel

/-- A stream byte the host wrote during the call, one in the destination of another running call, and a
destination byte that overlaps it. -/
theorem witness_ContestedAccessIsFree :
    (let s : State := { calling 3 with raced := [0x1017] };
      s.rptr.toNat < s.handle.nbytes.toNat ∧
        s.admission (s.handle.srcBase + s.rptr) = .memory ∧ s.callState = .decoding ∧
        s.handle.srcBase + s.rptr ∈ s.raced ∧ s.contested 0x1017 = true) ∧
    (let c : RunningCall := { (calling 8).asCall with src := ⟨0x3000, 35⟩, dest := ⟨0x1017, 16⟩ };
      let s : State := { calling 3 with peers := [⟨⟨0x9000000000000000, 256⟩, some c⟩] };
      s.handle.srcBase + s.rptr ∉ s.raced ∧ s.inDest (s.handle.srcBase + s.rptr) = false ∧
        s.foreignCalls.filter (fun c => regionHas c.dest (s.handle.srcBase + s.rptr)) = [c] ∧
        c.raceOn (s.handle.srcBase + s.rptr) = false) := by
  refine ⟨⟨?_, ?_, ?_, ?_, ?_⟩, ?_, ?_, rfl, ?_⟩ <;> decide +kernel

/-- A second instance, its register window after this one's. -/
def twoWindows : System :=
  System.reset [Config.platform, { Config.platform with mmioBase := 0x8000000000000100 }]

/-- The stream, the destination and the source on the block's own registers, at the first byte a step
needs and at its last, and the window of another instance. -/
theorem witness_BufferOnDeviceRefused :
    (∀ m < 2,
      let d := deciding 0x01000000 0x00FFF800 8191 1 2
      let s : State :=
        { d with handle := { d.handle with srcBase := 0x8000000000000000 - 23 - BitVec.ofNat 64 m } }
      s.rptr.toNat + m < s.handle.nbytes.toNat ∧
        s.blockedAt (s.handle.srcBase + s.rptr) m .device ∧
        stepContext .zero s = some 0 ∧ s.call.coderOk 0 ∧ m < s.call.shifts 0) ∧
    (let s : State := { calling 1 with handle := { handleA with srcBase := 0x8000000000000000 - 26 } };
      s.rptr.toNat + 3 < s.handle.nbytes.toNat ∧
        s.blockedAt (s.handle.srcBase + s.rptr) 3 .device) ∧
    (∀ m < 4,
      let s : State := { calling 8 with cDstBase := 0x8000000000000000 - BitVec.ofNat 64 m }
      m < elemBytes s.handle.typ ∧
        s.blockedAt (s.cDstBase + BitVec.ofNat 64 (s.vi.toNat * elemBytes s.handle.typ)) m
          .device) ∧
    (∀ m < 23,
      let p := placed 0 0x46
      let s : State :=
        { p with regs := { p.regs with srcBase := 0x8000000000000000 - BitVec.ofNat 64 m } }
      s.callState ≠ .decoding ∧ 23 ≤ s.regs.srcLen.toNat ∧
        s.blockedAt s.regs.srcBase m .device) ∧
    opened.inWindow 0x80000000000000FF = true ∧
    (∃ p, 1 ≠ 0 ∧ twoWindows.insts[1]? = some p ∧ p.inWindow 0x8000000000000100 = true) := by
  refine ⟨?_, ?_, ?_, ?_, ?_, _, Nat.one_ne_zero, rfl, ?_⟩ <;> decide +kernel

/-- A stream byte, the last destination byte and the first address past the stream, outside a call and
in one; a destination byte nobody raced on, and a step that stays in the call. -/
theorem witness_HostStoreRacesOnlyDuringCall :
    ((calling 3).admission 0x1022 = .memory ∧ (calling 3).callState = .decoding ∧
      (calling 3).inStream 0x1022 = true) ∧
    ((calling 3).inDest 0x200F = true ∧ (calling 3).inStream 0x1023 = false ∧
      (calling 3).inDest 0x1023 = false ∧ (calling 3).inForeign 0x1023 = false) ∧
    opened.callState ≠ .decoding ∧
    (∀ c ∈ (calling 8).calls, regionHas c.dest 0x2010 = false) ∧
    ((calling 8).calls.filter (fun c => regionHas c.dest 0x200F) = [(calling 8).asCall] ∧
      (calling 8).asCall.raceOn 0x200F = false) ∧
    (let s : State := { calling 7 with raced := [0x1022] };
      (0x1022 : DWord) ∈ s.raced ∧ s.callState = .decoding ∧
        ∃ t, step s = .next t ∧ t.callState = .decoding) := by
  refine ⟨?_, ?_, ?_, ?_, ?_, ?_, rfl, _, rfl, rfl⟩ <;> decide +kernel

theorem witness_ReadOnlyAndReservedIgnoreWrites :
    (0xFC < 0x100 ∧ 0xFC % 4 = 0 ∧ 0x80 ≤ 0xFC) ∧ (0x34 ≤ 0x34 ∧ 0x3C ≤ 0x3C) := by decide

theorem witness_OddRegisterAccessRefused :
    (0xFF < 0x100 ∧ 0xFF % 4 ≠ 0) ∧ (0x08 < 0x100 ∧ 1 ≠ 4) := by decide

/-- Also for PollReadsUntilMatch: both cases, on STATUS and its BUSY bit. -/
theorem witness_PollReadsUntilMatch :
    (0x08 < 0x100 ∧ 0x08 % 4 = 0) ∧ opened.readReg 0x08 &&& 8 = 0 ∧
      (calling 3).readReg 0x08 &&& 8 ≠ 0 := by decide +kernel

/-- Reset applied in a call, an instance held in reset, and a step it takes. -/
theorem witness_ResetLeavesSpecValues :
    ({ calling 3 with events := [.applyReset] } : State).events = .applyReset :: [] ∧
    (let s := (calling 3).hardwareReset;
      s.resetApplied = true ∧ s.resetValues ∧ ∃ t, step s = .next t) :=
  ⟨rfl, rfl, by decide +kernel, _, rfl⟩

/-- Scenario A in its call, before the second voxel's ZERO decision: every register holds a value of
that run (95 section 1.1). -/
def mid : State :=
  { calling 3 with
    vi := 1
    rptr := 31
    call := { CallRegs.atReset with
      range := 0x20000000
      code := 0x0FE00000
      vx := 1
      pred := 0xBF800000
      nb := [(0, 0xBF800000)] } }

theorem mid_statusInv : mid.statusInv := by decide +kernel
theorem mid_handleInv : mid.handleInv := by decide +kernel
theorem mid_memInv : mid.mem.wf = true := by decide +kernel
theorem mid_coderInv : mid.coderInv := fun _ => by
  refine ⟨?_, ?_, ?_, ?_⟩ <;> decide +kernel
theorem mid_positionInv : mid.positionInv := fun _ => by
  refine ⟨?_, ?_, ?_⟩ <;> decide +kernel
theorem mid_residualInv : mid.residualInv := fun _ => by
  refine ⟨?_, ?_, ?_, ?_, ?_, ?_⟩ <;> decide +kernel

/-- Serves StatusInvariantKept, HandleInvariantKept, MemoryFormKept, CoderInvariantKept,
PositionInvariantKept, ResidualInvariantKept, CallStepsAreBounded, HandleChangesOnlyByOpenOrReset and
MemoryWrittenOnlyByEmitAndHost: a state in a call that meets all of them, and its next state. -/
theorem witness_mid :
    mid.Inv ∧ mid.callState = .decoding ∧ mid.stuck = false ∧ mid.coreNext ∧
      ∃ t, step mid = .next t :=
  ⟨⟨mid_statusInv, mid_handleInv, mid_memInv, mid_coderInv, mid_positionInv, mid_residualInv⟩,
    rfl, rfl, .inl rfl, _, rfl⟩

theorem witness_WrittenRegisterReadsBack :
    (0x10 ∈ writableOffsets ∧ 0x2C ∈ writableOffsets ∧ 0x30 ∈ writableOffsets) ∧
      (calling 3).resetApplied = false ∧ (calling 3).hardwareReset.resetApplied = true := by decide

theorem witness_PhaseStepsIgnoreHostRegisters : Instr.emit.format = .phase := rfl

/-- Two instances: the first stores to the stream of the second's call, and the first takes a step of its
call while the second's runs. -/
theorem witness_InstancesShareOnlyMemory :
    (let y : System := ⟨[{ State.reset with events := [.store 0x1022 5] }, calling 3], [], 0⟩;
      (∃ z, y.step 0 = .next z) ∧ y.insts[1]? = some (calling 3) ∧
        (y.insts[0]?.bind fun i => i.events.head?) = some (.store 0x1022 5)) ∧
    (∃ z u v, System.step ⟨[calling 7, calling 3], [], 0⟩ 0 = .next z ∧ z.insts[0]? = some u ∧
      z.insts[1]? = some v ∧ u.callState = .decoding ∧ v.callState = .decoding) :=
  ⟨⟨⟨_, rfl⟩, rfl, rfl⟩, _, _, _, rfl, rfl, rfl, rfl, rfl⟩

end Sys2Proof.Tests
end

section
/-! SUPPORT. One step of the machine as a case distinction with named cases, made of the inversions
of Laws/Step: the outcomes of a phase step, of a command and of `step`. An invariant is then kept
if each case keeps it. -/

namespace Sys2Proof.Machine

variable {s t u v : State}

/-! ## What a step of a call leaves unchanged -/

/-- `t` is `s` after a decision: RPTR, the interval and the counters may differ, nothing else but
the number of the next free value (41 R184). -/
def State.coderStep (s t : State) : Prop :=
  ∃ (rptr : DWord) (free : Nat) (range code : Word) (c0 c1 : Vector (BitVec 16) Config.nctx),
    t = { s with
      rptr := rptr
      free := free
      call := { s.call with range := range, code := code, c0 := c0, c1 := c1 } }

theorem State.decodeBit_coderStep {j : Fin Config.nctx} {b : Bool} (h : s.decodeBit j = .ok b v) :
    s.coderStep v := by
  obtain ⟨-, hframe, -⟩ := State.decodeBit_ok h
  exact ⟨v.rptr, v.free, v.call.range, v.call.code, _, _, hframe⟩

/-- Two register files have the same position and the same neighbour store (10 R44, R46). -/
abbrev CallRegs.samePosition (c d : CallRegs) : Prop :=
  c.vx = d.vx ∧ c.vy = d.vy ∧ c.vz = d.vz ∧ c.vf = d.vf ∧ c.nb = d.nb

/-- `t` is `s` after a step inside a voxel, before its EMIT: the coder and the residual registers
may differ, and PHASE is one of PREDICT to EMIT. -/
def State.voxelStep (s t : State) : Prop :=
  ∃ (rptr : DWord) (free : Nat) (phase : BitVec 4) (c : CallRegs),
    t = { s with rptr := rptr, free := free, phase := phase, call := c } ∧
      2 ≤ phase.toNat ∧ phase.toNat ≤ 8 ∧ c.samePosition s.call

/-- A step that makes a decision and then sets a phase and residual registers. -/
theorem State.voxelStep_of_coderStep (h : s.coderStep v) {phase : BitVec 4} {c : CallRegs}
    (h2 : 2 ≤ phase.toNat) (h8 : phase.toNat ≤ 8) (hc : c.samePosition v.call) :
    s.voxelStep { v with phase := phase, call := c } := by
  obtain ⟨r, n, range, code, c0, c1, rfl⟩ := h
  exact ⟨r, n, phase, c, rfl, h2, h8, hc⟩

theorem execRcInit_voxelStep (h : execRcInit s = .next t) : s.notTaken t ∨ s.voxelStep t := by
  refine (execRcInit_next h).imp_right ?_
  rintro ⟨r, n, code, -, -, -, rfl⟩
  exact ⟨r, n, 2, _, rfl, by decide, by decide, rfl, rfl, rfl, rfl, rfl⟩

theorem execPredict_voxelStep (h : execPredict s = .next t) : s.voxelStep t := by
  cases h
  exact ⟨_, _, 3, _, rfl, by decide, by decide, rfl, rfl, rfl, rfl, rfl⟩

theorem execZero_voxelStep (h : execZero s = .next t) : s.notTaken t ∨ s.voxelStep t := by
  refine (execZero_next h).imp_right ?_
  rintro ⟨b, v, hdec, rfl⟩
  have hv := State.decodeBit_coderStep hdec
  cases b
  · exact State.voxelStep_of_coderStep hv (by decide) (by decide) ⟨rfl, rfl, rfl, rfl, rfl⟩
  · exact State.voxelStep_of_coderStep hv (by decide) (by decide) ⟨rfl, rfl, rfl, rfl, rfl⟩

theorem execSign_voxelStep (h : execSign s = .next t) : s.notTaken t ∨ s.voxelStep t := by
  refine (execSign_next h).imp_right ?_
  rintro ⟨b, v, hdec, -, rfl⟩
  exact State.voxelStep_of_coderStep (State.decodeBit_coderStep hdec) (by decide) (by decide)
    ⟨rfl, rfl, rfl, rfl, rfl⟩

theorem execSig_voxelStep (h : execSig s = .next t) : s.notTaken t ∨ s.voxelStep t := by
  refine (execSig_next h).imp_right ?_
  rintro ⟨b, v, hdec, ⟨-, -, -, rfl⟩ | ⟨-, -, -, rfl⟩ | ⟨-, -, rfl⟩⟩
  all_goals
    exact State.voxelStep_of_coderStep (State.decodeBit_coderStep hdec) (by decide) (by decide)
      ⟨rfl, rfl, rfl, rfl, rfl⟩

theorem execRef_voxelStep (h : execRef s = .next t) : s.notTaken t ∨ s.voxelStep t := by
  refine (execRef_next h).imp_right ?_
  rintro ⟨j, b, v, -, hdec, -, rfl⟩
  have hv := State.decodeBit_coderStep hdec
  split
  · exact State.voxelStep_of_coderStep hv (by decide) (by decide) ⟨rfl, rfl, rfl, rfl, rfl⟩
  · exact State.voxelStep_of_coderStep hv (by decide) (by decide) ⟨rfl, rfl, rfl, rfl, rfl⟩

theorem execRecon_voxelStep (h : execRecon s = .next t) : s.voxelStep t := by
  cases h
  exact ⟨_, _, 8, _, rfl, by decide, by decide, rfl, rfl, rfl, rfl, rfl⟩

/-! ## The outcomes of a phase step -/

/-- The next states of the step PHASE selects (10 R40). -/
inductive State.PhaseStep (s : State) : State → Prop where
  | idle (hp : s.phase = 0) : State.PhaseStep s s
  /-- The step is not taken: stuck, or an error (20 R79, 60 R285). -/
  | failed {t : State} (hp : s.phase ≠ 0) (h : s.notTaken t) : State.PhaseStep s t
  | voxel {t : State} (h1 : 1 ≤ s.phase.toNat) (h7 : s.phase.toNat ≤ 7) (h : s.voxelStep t) :
      State.PhaseStep s t
  | emit (hp : s.phase = 8) :
      State.PhaseStep s (s.storeBytes s.emitAddr s.emitBytes).emitAdvance
  | final (hp : s.phase = 9) : State.PhaseStep s (s.endCall .complete)

/-- A step of the phases 1 to 7 is not taken or stays inside its voxel. -/
theorem State.PhaseStep.of_voxelStep (h1 : 1 ≤ s.phase.toNat) (h7 : s.phase.toNat ≤ 7)
    (h : s.notTaken t ∨ s.voxelStep t) : s.PhaseStep t := by
  have hp : s.phase ≠ 0 := fun h0 => by rw [h0] at h1; exact absurd h1 (by decide)
  exact h.elim (.failed hp) (.voxel h1 h7)

theorem phaseStep_of_exec (h : exec (decodePhase s.phase) s = .next t) : s.PhaseStep t := by
  rcases exec_decodePhase_next h with ⟨hp, rfl⟩ | ⟨hp, h⟩ | ⟨hp, h⟩ | ⟨hp, h⟩ | ⟨hp, h⟩ | ⟨hp, h⟩ |
    ⟨hp, h⟩ | ⟨hp, h⟩ | ⟨hp, h⟩ | ⟨hp, h⟩
  · exact .idle hp
  · exact .of_voxelStep (by simp [hp]) (by simp [hp]) (execRcInit_voxelStep h)
  · exact .of_voxelStep (by simp [hp]) (by simp [hp]) (.inr (execPredict_voxelStep h))
  · exact .of_voxelStep (by simp [hp]) (by simp [hp]) (execZero_voxelStep h)
  · exact .of_voxelStep (by simp [hp]) (by simp [hp]) (execSign_voxelStep h)
  · exact .of_voxelStep (by simp [hp]) (by simp [hp]) (execSig_voxelStep h)
  · exact .of_voxelStep (by simp [hp]) (by simp [hp]) (execRef_voxelStep h)
  · exact .of_voxelStep (by simp [hp]) (by simp [hp]) (.inr (execRecon_voxelStep h))
  · rcases execEmit_next h with hb | rfl
    · exact .failed (by simp [hp]) (.inl hb)
    · exact .emit hp
  · rcases execFinal_next h with hf | ⟨-, rfl⟩
    · exact .failed (by simp [hp]) hf
    · exact .final hp

/-! ## The outcomes of a command -/

/-- The state an accepted DECOMPRESS leaves (40 R154). -/
def State.startCall (s : State) : State :=
  { s.accept with
    vi := 0
    rptr := 23
    cDstBase := s.regs.dstBase
    call := s.call.start
    raced := []
    clash := []
    stale := []
    callState := .decoding
    phase := 1 }

@[simp] theorem State.startCall_callState (s : State) : s.startCall.callState = .decoding := rfl
@[simp] theorem State.startCall_phase (s : State) : s.startCall.phase = 1 := rfl
@[simp] theorem State.startCall_err (s : State) : s.startCall.err = 0 := rfl
@[simp] theorem State.startCall_sub (s : State) : s.startCall.sub = 0 := rfl

/-- The next states of the command of a CTRL word (40 R150 to R157). -/
inductive State.CommandStep (v : Word) (s : State) : State → Prop where
  | nop : State.CommandStep v s s
  | ignored (hd : s.callState = .decoding) : State.CommandStep v s s.ignore
  /-- An OPEN with an access that is not admitted (20 R79). -/
  | openStuck (hd : s.callState ≠ .decoding) : State.CommandStep v s s.block
  | openFailed (hd : s.callState ≠ .decoding) (ho : decodeCtrl v = .openStream)
      (e : Cause) (rptr : DWord) (free : Nat) : State.CommandStep v s
        (State.raise { s.accept with vi := 0, rptr := rptr, free := free } e).dropHandle
  | opened (hd : s.callState ≠ .decoding) (ho : decodeCtrl v = .openStream)
      (bs : List Byte) (free : Nat) (he : headerError bs = none)
      (hl : Config.hdrLen ≤ s.regs.srcLen.toNat) : State.CommandStep v s
        { s.accept with
          vi := 0
          rptr := 23
          free := free
          handle := headerHandle bs s.regs.srcBase s.regs.srcLen
          hv := true
          callState := .headerParsed }
  | rejected (hd : s.callState ≠ .decoding) (e : Cause) (vi rptr : DWord) :
      State.CommandStep v s (State.raise { s.accept with vi := vi, rptr := rptr } e)
  | started (hd : s.callState ≠ .decoding) (hv : s.hv = true) : State.CommandStep v s s.startCall

theorem commandStep_of_exec {w : Word} (h : exec (decodeCtrl w) s = .next t) :
    s.CommandStep w t := by
  rcases exec_decodeCtrl_next h with rfl | ⟨ho, h⟩ | h | h
  · exact .nop
  · rcases execOpen_next h with ⟨hd, rfl⟩ | ⟨hd, rfl | ⟨e, r, n, rfl⟩ | ⟨bs, n, he, hl, rfl⟩⟩
    · exact .ignored hd
    · exact .openStuck hd
    · exact .openFailed hd ho e r n
    · exact .opened hd ho bs n he hl
  · rcases execDecompress_next h with ⟨hd, rfl⟩ | ⟨hd, ⟨e, vi, r, rfl⟩ | ⟨hv, rfl⟩⟩
    · exact .ignored hd
    · exact .rejected hd e vi r
    · exact .started hd hv
  · rcases State.command_reserved_next h with ⟨hd, rfl⟩ | ⟨hd, rfl⟩
    · exact .ignored hd
    · exact .rejected hd .reservedOpcode s.vi s.rptr

/-! ## The outcomes of a step -/

/-- The next states of one step of the machine; `r` is the rest of the event list (20 R82, 70
R330). -/
inductive State.StepCase (s : State) : State → Prop where
  | phase {t : State} (r : List Event) (hr : s.resetApplied = false)
      (h : exec (decodePhase s.phase) { s with events := r } = .next t) : State.StepCase s t
  | command {t : State} (r : List Event) (v : Word) (hc : s.ctrlNext v)
      (hr : s.resetApplied = false) (h : State.CommandStep v { s with events := r } t) :
      State.StepCase s t
  /-- A host access that issues no command, or a step of a block that is stuck or held in reset. -/
  | host {t : State} (h : s.hostFrame t) (hm : t.mem = s.mem ∨
      ∃ a b c, s.events.head? = some (.store a b) ∧ t.mem = s.mem.write a.toNat c) :
      State.StepCase s t
  | reset (r : List Event) (he : s.events.head? = some .applyReset) :
      State.StepCase s (State.hardwareReset { s with events := r })
  | release (r : List Event) (he : s.events.head? = some .releaseReset) :
      State.StepCase s (State.endReset { s with events := r })

theorem stepCase_of_step (h : step s = .next t) : s.StepCase t := by
  obtain ⟨r, h⟩ := step_next h
  rcases h with ⟨-, -, hr, h⟩ | ⟨-, -, rfl⟩ | ⟨v, hc, hr, h⟩ | ⟨hf, hm⟩ | ⟨he, rfl⟩ | ⟨he, rfl⟩
  · exact .phase r hr h
  · exact .host ⟨rfl, fun _ => rfl, fun _ ha => ha⟩ (.inl rfl)
  · exact .command r v hc hr (commandStep_of_exec h)
  · exact .host hf hm
  · exact .reset r he
  · exact .release r he

/-- The induction step of an invariant, packaged once: what a phase step, a command, a host access
and reset keep, every step keeps. -/
theorem step_keeps {I : State → Prop}
    (hphase : ∀ s t : State, I s → s.resetApplied = false →
      exec (decodePhase s.phase) s = .next t → I t)
    (hcommand : ∀ (s t : State) (w : Word), I s → s.resetApplied = false → s.CommandStep w t → I t)
    (hhost : ∀ s t : State, I s → s.hostFrame t → I t)
    (hreset : ∀ s : State, I s → I s.hardwareReset) (hrelease : ∀ s : State, I s → I s.endReset)
    (hs : I s) (h : step s = .next t) : I t := by
  have hevents (r : List Event) : I { s with events := r } :=
    hhost s _ hs ⟨rfl, fun _ => rfl, fun _ ha => ha⟩
  cases stepCase_of_step h with
  | phase r hr h => exact hphase _ _ (hevents r) hr h
  | command r w _ hr h => exact hcommand _ _ w (hevents r) hr h
  | host h _ => exact hhost _ _ hs h
  | reset r _ => exact hreset _ (hevents r)
  | release r _ => exact hrelease _ (hevents r)

end Sys2Proof.Machine
end

section
/-! SUPPORT. STATUS and the handle over a step: what keeps them, and the handle of a legal header.
Here O48, O49 and O55 are settled. -/

namespace Sys2Proof.Machine

variable {s t : State}

/-! ## STATUS (10 R23, R40, 60 R281) -/

theorem Cause.codes_mem (e : Cause) : (e.err, e.sub) ∈ errorCodes := by
  cases e <;> decide

/-- An error state is a legal one, whatever HV is. -/
theorem State.statusInv_raise (e : Cause) (hr : s.resetApplied = false) :
    (s.raise e).statusInv := by
  refine ⟨by simp, by simp, ?_, by simp, by simp, by simp [hr]⟩
  rw [if_pos (State.raise_callState s e)]
  exact e.codes_mem

theorem State.statusInv_notTaken (hs : s.statusInv) (hr : s.resetApplied = false)
    (h : s.notTaken t) : t.statusInv := by
  rcases h with rfl | ⟨e, r, n, -, rfl⟩
  · exact hs
  · exact State.statusInv_raise e hr

/-- A block whose PHASE is not IDLE runs a call (10 R40). -/
theorem State.statusInv.decoding (hs : s.statusInv) (hp : s.phase ≠ 0) : s.callState = .decoding :=
  not_not.1 fun hd => hp (hs.1.2 hd)

/-- A running call may move on to any other phase of a call. -/
theorem State.statusInv_setPhase (hs : s.statusInv) (hd : s.callState = .decoding) {p : BitVec 4}
    (hp : p ≠ 0) (h9 : p.toNat ≤ 9) : State.statusInv { s with phase := p } := by
  obtain ⟨-, -, herr, hhv⟩ := hs
  exact ⟨iff_of_false hp (not_not.2 hd), h9, herr, hhv⟩

theorem phase_ne_zero {p : BitVec 4} {n : Nat} (h : n ≤ p.toNat) (hn : 0 < n) : p ≠ 0 := by
  rintro rfl
  simp at h
  omega

/-- A call that has written its last element leaves STATUS without an error. -/
theorem State.statusInv_complete (hs : s.statusInv) (hd : s.callState = .decoding) :
    (s.endCall .complete).statusInv := by
  obtain ⟨-, -, herr, -, hhv, hreset⟩ := hs
  rw [hd] at herr
  refine ⟨by simp, by simp, ?_, by simp, fun _ => hhv (.inr (.inl hd)), fun hr => ?_⟩
  · simpa using herr
  · rw [hreset hr] at hd
    cases hd

/-- After EMIT comes FINAL or the next voxel's PREDICT (43 R256). -/
theorem State.emitAdvance_phase_legal (s : State) :
    s.emitAdvance.phase ≠ 0 ∧ s.emitAdvance.phase.toNat ≤ 9 := by
  rw [State.emitAdvance_phase]
  split <;> decide

theorem State.statusInv_phaseStep (hs : s.statusInv) (hr : s.resetApplied = false)
    (h : s.PhaseStep t) : t.statusInv := by
  cases h with
  | idle _ => exact hs
  | failed _ h => exact State.statusInv_notTaken hs hr h
  | voxel h1 _ h =>
    obtain ⟨r, n, p, c, rfl, h2, h8, -⟩ := h
    exact State.statusInv_setPhase hs (hs.decoding (phase_ne_zero h1 (by decide)))
      (phase_ne_zero h2 (by decide)) (by omega)
  | emit hp =>
    have hd := hs.decoding (by simp [hp])
    have hstore : (s.storeBytes s.emitAddr s.emitBytes).statusInv := by
      rw [State.storeBytes_frame s s.emitAddr s.emitBytes]
      exact hs
    have hd' : (s.storeBytes s.emitAddr s.emitBytes).callState = .decoding := by
      rw [State.storeBytes_frame s s.emitAddr s.emitBytes]
      exact hd
    obtain ⟨hne, hle⟩ := State.emitAdvance_phase_legal (s.storeBytes s.emitAddr s.emitBytes)
    exact State.statusInv_setPhase hstore hd' hne hle
  | final hp => exact State.statusInv_complete hs (hs.decoding (by simp [hp]))

theorem State.statusInv_command {v : Word} (hs : s.statusInv) (hr : s.resetApplied = false)
    (h : s.CommandStep v t) : t.statusInv := by
  have hr' : ¬ s.resetApplied = true := by simp [hr]
  cases h with
  | nop => exact hs
  | ignored _ => exact hs
  | openStuck _ => exact hs
  | openFailed _ _ e r n =>
    obtain ⟨hphase, hle, hcodes, -, -, -⟩ :=
      State.statusInv_raise (s := { s.accept with vi := 0, rptr := r, free := n }) e hr
    exact ⟨hphase, hle, hcodes, by simp, by simp, fun h => absurd h hr'⟩
  | opened hd _ bs n _ _ =>
    have hp : s.phase = 0 := hs.1.2 hd
    exact ⟨by simp [hp], by simp [hp], by simp, by simp, by simp, fun h => absurd h hr'⟩
  | rejected _ e vi r =>
    exact State.statusInv_raise (s := { s.accept with vi := vi, rptr := r }) e hr
  | started _ hv =>
    exact ⟨by simp, by simp, by simp, by simp, fun _ => hv, fun h => absurd h hr'⟩

theorem State.statusInv_hostFrame (hs : s.statusInv) (hf : s.hostFrame t) : t.statusInv := by
  rw [hf.1]
  exact hs

theorem State.hardwareReset_statusInv (s : State) : s.hardwareReset.statusInv := by
  change State.statusInv { State.reset with resetApplied := true }
  decide

theorem State.endReset_statusInv (hs : s.statusInv) : s.endReset.statusInv := by
  obtain ⟨hphase, hle, hcodes, hun, hhv, -⟩ := hs
  exact ⟨hphase, hle, hcodes, hun, hhv, by simp⟩

theorem step_keeps_statusInv (hs : s.statusInv) (h : step s = .next t) : t.statusInv :=
  step_keeps (I := State.statusInv)
    (fun _ _ hs hr h => State.statusInv_phaseStep hs hr (phaseStep_of_exec h))
    (fun _ _ _ hs hr h => State.statusInv_command hs hr h)
    (fun _ _ hs hf => State.statusInv_hostFrame hs hf)
    (fun s _ => s.hardwareReset_statusInv) (fun _ hs => State.endReset_statusInv hs) hs h

/-! ## The handle (10 R27 to R32) -/

/-- The handle and HV of two states are the same. -/
abbrev State.sameHandle (s t : State) : Prop := t.handle = s.handle ∧ t.hv = s.hv

/-- No step of a call changes the handle. -/
theorem State.sameHandle_phaseStep (h : s.PhaseStep t) : s.sameHandle t := by
  cases h with
  | idle _ => exact ⟨rfl, rfl⟩
  | failed _ h => rcases h with rfl | ⟨e, r, n, -, rfl⟩ <;> exact ⟨rfl, rfl⟩
  | voxel _ _ h =>
    obtain ⟨r, n, p, c, rfl, -, -, -⟩ := h
    exact ⟨rfl, rfl⟩
  | emit _ =>
    rw [State.storeBytes_frame s s.emitAddr s.emitBytes]
    exact ⟨rfl, rfl⟩
  | final _ => exact ⟨rfl, rfl⟩

/-- OPEN alone changes the handle: it drops it, or latches that of a legal header (40 R152, R153).
-/
theorem State.handle_command {v : Word} (h : s.CommandStep v t) :
    s.sameHandle t ∨ (s.callState ≠ .decoding ∧ decodeCtrl v = .openStream ∧
      ((t.hv = false ∧ t.handle = Handle.cleared) ∨
      (t.hv = true ∧ ∃ bs, headerError bs = none ∧ Config.hdrLen ≤ s.regs.srcLen.toNat ∧
        t.handle = headerHandle bs s.regs.srcBase s.regs.srcLen))) := by
  cases h with
  | nop | ignored | openStuck | rejected | started => exact .inl ⟨rfl, rfl⟩
  | openFailed hd ho => exact .inr ⟨hd, ho, .inl ⟨rfl, rfl⟩⟩
  | opened hd ho bs _ he hl => exact .inr ⟨hd, ho, .inr ⟨rfl, bs, he, hl, rfl⟩⟩

theorem State.hostFrame.sameHandle (h : s.hostFrame t) : s.sameHandle t := by
  rw [h.1]
  exact ⟨rfl, rfl⟩

/-- A chain of checks reports nothing when its first check passes and the rest reports nothing. -/
theorem ite_some_eq_none {α : Type} {c : Prop} [Decidable c] {e : α} {x : Option α} :
    (if c then some e else x) = none ↔ ¬ c ∧ x = none := by
  split <;> simp_all

/-- The checks a legal header has passed (30 R101, 40 R152). -/
theorem headerError_eq_none {bs : List Byte} (h : headerError bs = none) :
    (headerByte bs 5).toNat ≤ 1 ∧
    (headerWord bs 7 ≠ 0 ∧ headerWord bs 11 ≠ 0 ∧ headerWord bs 15 ≠ 0 ∧ headerWord bs 19 ≠ 0) ∧
    (headerWord bs 7).toNat * (headerWord bs 11).toNat * (headerWord bs 15).toNat *
      (headerWord bs 19).toNat < 2 ^ 64 ∧
    headerByte bs 6 ≠ 0 ∧
    (headerByte bs 6).toNat ≤ elemWidth ((headerByte bs 5).setWidth 1) := by
  unfold headerError at h
  simp only [ite_some_eq_none, not_or] at h
  obtain ⟨-, -, htype, hdim, hcount, hprec, hwide, -⟩ := h
  exact ⟨Nat.le_of_not_lt htype, hdim, Nat.lt_of_not_le hcount, hprec, Nat.le_of_not_lt hwide⟩

theorem one_le_toNat {w : Nat} {x : BitVec w} (h : x ≠ 0) : 1 ≤ x.toNat :=
  Nat.one_le_iff_ne_zero.2 fun h0 => h (BitVec.eq_of_toNat_eq (by simpa using h0))

/-- A valid handle with the registers of a legal header is legal. -/
theorem State.handleInv_of_header {bs : List Byte} {base len : DWord} (he : headerError bs = none)
    (hl : Config.hdrLen ≤ len.toNat) (hh : t.handle = headerHandle bs base len) (hv : t.hv = true) :
    t.handleInv := by
  obtain ⟨-, ⟨hx, hy, hz, hf⟩, hcount, hprec, hwide⟩ := headerError_eq_none he
  unfold State.handleInv
  rw [if_pos hv, hh]
  exact ⟨one_le_toNat hprec, hwide, one_le_toNat hx, one_le_toNat hy, one_le_toNat hz,
    one_le_toNat hf, by simpa [headerHandle] using Nat.mod_eq_of_lt hcount, hl⟩

theorem State.handleInv_of_cleared (hv : t.hv = false) (hh : t.handle = Handle.cleared) :
    t.handleInv := by
  unfold State.handleInv
  rwa [if_neg (by simp [hv])]

theorem State.handleInv_of_sameHandle (hs : s.handleInv) (h : s.sameHandle t) : t.handleInv := by
  obtain ⟨hhandle, hhv⟩ := h
  unfold State.handleInv
  rw [hhandle, hhv]
  exact hs

theorem State.handleInv_command {v : Word} (hs : s.handleInv) (h : s.CommandStep v t) :
    t.handleInv := by
  rcases State.handle_command h with hsame | ⟨-, -, ⟨hv, hh⟩ | ⟨hv, bs, he, hl, hh⟩⟩
  · exact State.handleInv_of_sameHandle hs hsame
  · exact State.handleInv_of_cleared hv hh
  · exact State.handleInv_of_header he hl hh hv

theorem step_keeps_handleInv (hs : s.handleInv) (h : step s = .next t) : t.handleInv :=
  step_keeps (I := State.handleInv)
    (fun _ _ hs _ h =>
      State.handleInv_of_sameHandle hs (State.sameHandle_phaseStep (phaseStep_of_exec h)))
    (fun _ _ _ hs _ h => State.handleInv_command hs h)
    (fun _ _ hs hf => State.handleInv_of_sameHandle hs hf.sameHandle)
    (fun _ _ => State.handleInv_of_cleared rfl rfl) (fun _ hs => hs) hs h

/-! ## Invariants of a running call -/

/-- The volume of a valid handle (10 R31). -/
theorem State.handleInv.nvox (hh : s.handleInv) (hv : s.hv = true) :
    s.handle.nvox.toNat =
      s.handle.nx.toNat * s.handle.ny.toNat * s.handle.nz.toNat * s.handle.nf.toNat := by
  unfold State.handleInv at hh
  rw [if_pos hv] at hh
  obtain ⟨-, -, -, -, -, -, hn, -⟩ := hh
  exact hn

/-- HV is set during a call (40 R158). -/
theorem State.statusInv.hv_of_decoding (hs : s.statusInv) (hd : s.callState = .decoding) :
    s.hv = true := by
  obtain ⟨-, -, -, -, hhv, -⟩ := hs
  exact hhv (.inr (.inl hd))

theorem State.callState_errorStep (h : s.errorStep t) : t.callState = .failed := by
  obtain ⟨e, r, n, -, rfl⟩ := h
  rfl

/-- What a host access, an ignored command, an access that is not admitted and the release of reset
may change; STATE, the handle and every register of the call are as they were. -/
abbrev State.sameCall (s t : State) : Prop :=
  t = { s with
    regs := t.regs
    ign := t.ign
    mem := t.mem
    stuck := t.stuck
    resetApplied := t.resetApplied
    raced := t.raced
    free := t.free
    events := t.events
    rdata := t.rdata }

theorem State.hostFrame.sameCall (h : s.hostFrame t) : s.sameCall t := by
  unfold State.sameCall
  rw [h.1]

/-- The induction step of an invariant of a running call: it holds outside a call and where a call
starts, and the steps of a call keep it. -/
theorem step_keeps_callInv {J : State → Prop}
    (hidle : ∀ s : State, s.callState ≠ .decoding → J s)
    (hsame : ∀ s t : State, J s → s.sameCall t → J t)
    (hstart : ∀ s : State, s.handleInv → s.hv = true → J s.startCall)
    (hphase : ∀ s t : State, s.statusInv → s.handleInv → J s →
      exec (decodePhase s.phase) s = .next t → J t)
    (hs : s.statusInv) (hh : s.handleInv) (hj : J s) (h : step s = .next t) : J t := by
  have hcommand (s t : State) (v : Word) (hh : s.handleInv) (hj : J s) (h : s.CommandStep v t) :
      J t := by
    cases h with
    | nop => exact hj
    | ignored _ => exact hsame _ _ hj rfl
    | openStuck _ => exact hsame _ _ hj rfl
    | openFailed | opened | rejected => exact hidle _ (by simp)
    | started _ hv => exact hstart s hh hv
  have key : t.statusInv ∧ t.handleInv ∧ J t :=
    step_keeps (I := fun s => s.statusInv ∧ s.handleInv ∧ J s)
      (fun s t ⟨hs, hh, hj⟩ hr h => ⟨State.statusInv_phaseStep hs hr (phaseStep_of_exec h),
        State.handleInv_of_sameHandle hh (State.sameHandle_phaseStep (phaseStep_of_exec h)),
        hphase s t hs hh hj h⟩)
      (fun s t v ⟨hs, hh, hj⟩ hr h => ⟨State.statusInv_command hs hr h,
        State.handleInv_command hh h, hcommand s t v hh hj h⟩)
      (fun s t ⟨hs, hh, hj⟩ hf => ⟨State.statusInv_hostFrame hs hf,
        State.handleInv_of_sameHandle hh hf.sameHandle, hsame s t hj hf.sameCall⟩)
      (fun s _ => ⟨s.hardwareReset_statusInv, State.handleInv_of_cleared rfl rfl,
        hidle _ (by simp [State.hardwareReset, State.reset])⟩)
      (fun s ⟨hs, hh, hj⟩ => ⟨State.endReset_statusInv hs, hh, hsame _ _ hj rfl⟩) ⟨hs, hh, hj⟩ h
  exact key.2.2

end Sys2Proof.Machine

open Sys2Proof Sys2Proof.Machine

/-- Settles O48: an error state is legal by the table of causes; every other step of a call leaves
ERR, SUB and HV alone, and the commands set STATE with what STATE needs. -/
theorem statusInvariantKept : Obligations.StatusInvariantKept := fun _ _ hs h =>
  step_keeps_statusInv hs h

/-- Settles O49: only OPEN and reset change the handle, and OPEN latches it after all its checks. -/
theorem handleInvariantKept : Obligations.HandleInvariantKept := fun _ _ hs h =>
  step_keeps_handleInv hs h

/-- Settles O55, by the outcomes of a step. -/
theorem handleChangesOnlyByOpenOrReset : Obligations.HandleChangesOnlyByOpenOrReset := by
  intro s t h
  cases stepCase_of_step h with
  | phase r _ h =>
    have hsame := State.sameHandle_phaseStep (phaseStep_of_exec (s := { s with events := r }) h)
    exact .inl hsame
  | command r v hc _ h =>
    rcases State.handle_command h with hsame | ⟨hd, ho, -⟩
    · exact .inl hsame
    · exact .inr (.inr ⟨hd, v, ho, hc⟩)
  | host h _ => exact .inl h.sameHandle
  | reset _ he => exact .inr (.inl he)
  | release _ _ => exact .inl ⟨rfl, rfl⟩

end

section
/-! SUPPORT. The position of a call: `Advance()` and EMIT over the linear index (43 R241, R257).
Here O52 is settled. -/

namespace Sys2Proof.Machine

variable {s t : State}

/-! ## The linear index and `Advance()` -/

theorem toNat_add_one {w m : Nat} {x : BitVec w} (h : x.toNat < m) (hm : m < 2 ^ w) :
    (x + 1).toNat = x.toNat + 1 := by
  change (x + BitVec.ofNat w 1).toNat = _
  rw [BitVec.toNat_add, BitVec.toNat_ofNat, Nat.add_mod_mod,
    Nat.mod_eq_of_lt (by omega)]

theorem toNat_zero_word : (0 : Word).toNat = 0 := rfl

/-- `Advance()` moves the counters only. -/
theorem advance_frame (h : Handle) (r : CallRegs) :
    advance h r = { r with
      vx := (advance h r).vx, vy := (advance h r).vy, vz := (advance h r).vz,
      vf := (advance h r).vf } := by
  unfold advance
  split_ifs <;> rfl

@[simp] theorem advance_nb (h : Handle) (r : CallRegs) : (advance h r).nb = r.nb := by
  rw [advance_frame]

/-- The counters are a voxel of the handle's volume (10 R44). -/
abbrev CallRegs.inVolume (r : CallRegs) (h : Handle) : Prop :=
  r.vx.toNat < h.nx.toNat ∧ r.vy.toNat < h.ny.toNat ∧ r.vz.toNat < h.nz.toNat ∧
    r.vf.toNat < h.nf.toNat

/-- The linear index of the counters (43 R241). -/
abbrev CallRegs.index (r : CallRegs) (h : Handle) : Nat :=
  linearIndex h.nx.toNat h.ny.toNat h.nz.toNat r.vx.toNat r.vy.toNat r.vz.toNat r.vf.toNat

/-- `Advance()` adds one to the linear index (43 R257). -/
theorem advance_index {h : Handle} {r : CallRegs} (hr : r.inVolume h) :
    (advance h r).index h = r.index h + 1 := by
  obtain ⟨hx, hy, hz, hf⟩ := hr
  unfold advance CallRegs.index linearIndex
  split_ifs with hx' hy' hz'
  · simp only [toNat_add_one hx h.nx.isLt]
    omega
  · have ex : h.nx.toNat = r.vx.toNat + 1 := by omega
    simp only [toNat_add_one hy h.ny.isLt, toNat_zero_word, ex]
    ring
  · have ex : h.nx.toNat = r.vx.toNat + 1 := by omega
    have ey : h.ny.toNat = r.vy.toNat + 1 := by omega
    simp only [toNat_add_one hz h.nz.isLt, toNat_zero_word, ex, ey]
    ring
  · have ex : h.nx.toNat = r.vx.toNat + 1 := by omega
    have ey : h.ny.toNat = r.vy.toNat + 1 := by omega
    have ez : h.nz.toNat = r.vz.toNat + 1 := by omega
    simp only [toNat_add_one hf h.nf.isLt, toNat_zero_word, ex, ey, ez]
    ring

/-- Past the last voxel of the last field the index is the number of voxels or more. -/
theorem volume_le_index {nx ny nz nf x y z f : Nat} (hf : nf ≤ f) :
    nx * ny * nz * nf ≤ linearIndex nx ny nz x y z f :=
  calc nx * ny * nz * nf = nx * (ny * (nz * nf)) := by ring
    _ ≤ nx * (ny * (nz * f)) := by gcongr
    _ ≤ x + nx * (y + ny * (z + nz * f)) :=
      le_add_of_nonneg_of_le (Nat.zero_le x) <| Nat.mul_le_mul le_rfl <|
        le_add_of_nonneg_of_le (Nat.zero_le y) <| Nat.mul_le_mul le_rfl <|
          Nat.le_add_left (nz * f) z

/-- `Advance()` from a voxel that is not the last one goes to a voxel of the volume (43 R257). -/
theorem advance_inVolume {h : Handle} {r : CallRegs} (hr : r.inVolume h)
    (hlast : r.index h + 1 < h.nx.toNat * h.ny.toNat * h.nz.toNat * h.nf.toNat) :
    (advance h r).inVolume h := by
  have hindex := advance_index hr
  obtain ⟨hx, hy, hz, hf⟩ := hr
  have hlt : (advance h r).vf.toNat < h.nf.toNat := by
    by_contra hge
    have := volume_le_index (nx := h.nx.toNat) (ny := h.ny.toNat) (nz := h.nz.toNat)
      (x := (advance h r).vx.toNat) (y := (advance h r).vy.toNat) (z := (advance h r).vz.toNat)
      (Nat.le_of_not_lt hge)
    unfold CallRegs.index at hindex hlast
    omega
  revert hlt
  unfold advance CallRegs.inVolume
  split_ifs with hx' hy' hz' <;> intro hlt
  · exact ⟨by rwa [toNat_add_one hx h.nx.isLt], hy, hz, hf⟩
  · exact ⟨by simp; omega, by rwa [toNat_add_one hy h.ny.isLt], hz, hf⟩
  · exact ⟨by simp; omega, by simp; omega, by rwa [toNat_add_one hz h.nz.isLt], hf⟩
  · exact ⟨by simp; omega, by simp; omega, by simp; omega, hlt⟩

/-! ## The neighbour store -/

/-- After the entry of `n` is stored, every entry up to `n` is there (10 R46). -/
theorem NbStore.filled_put {m : NbStore} {n : Nat} (v : DWord)
    (h : ∀ i < n, (m.find i).isSome = true) : ∀ i < n + 1, ((m.put n v).find i).isSome = true := by
  intro i hi
  rcases eq_or_ne i n with rfl | hne
  · simp [NbStore.find_put_same]
  · rw [NbStore.find_put_other m v hne]
    exact h i (by omega)

/-! ## The position over a step -/

theorem State.positionInv_of_not_decoding (hd : s.callState ≠ .decoding) : s.positionInv :=
  fun h => absurd h hd

/-- A step inside a voxel leaves VI, the counters and the neighbour store. -/
theorem State.positionInv_voxelStep (hp : s.positionInv) (h7 : s.phase.toNat ≤ 7)
    (h : s.voxelStep t) : t.positionInv := by
  obtain ⟨r, n, p, c, rfl, h2, h8, hx, hy, hz, hf, hnb⟩ := h
  intro hd
  obtain ⟨-, hfilled, hpos⟩ := hp hd
  have h9 : s.phase ≠ 9 := fun h9 => by rw [h9] at h7; exact absurd h7 (by decide)
  have h9' : p ≠ 9 := fun h9 => by rw [h9] at h8; exact absurd h8 (by decide)
  have h1' : p ≠ 1 := fun h1 => by rw [h1] at h2; exact absurd h2 (by decide)
  rw [if_neg h9] at hpos
  refine ⟨fun h1 => absurd h1 h1', ?_, ?_⟩
  · dsimp only
    rw [hnb]
    exact hfilled
  · dsimp only
    rw [if_neg h9', hx, hy, hz, hf]
    exact hpos

theorem State.emitAdvance_phase_last (h : s.vi + 1 = s.handle.nvox) : s.emitAdvance.phase = 9 :=
  if_pos h

theorem State.emitAdvance_phase_next (h : s.vi + 1 ≠ s.handle.nvox) : s.emitAdvance.phase = 2 :=
  if_neg h

/-- EMIT stores the entry of VI and goes to the next voxel, or to FINAL after the last (43 R256). -/
theorem State.positionInv_emitAdvance (hs : s.statusInv) (hh : s.handleInv) (hp : s.positionInv)
    (h8 : s.phase = 8) : s.emitAdvance.positionInv := by
  intro hd
  rw [State.emitAdvance_callState] at hd
  obtain ⟨-, hfilled, hpos⟩ := hp hd
  rw [if_neg (by rw [h8]; decide)] at hpos
  obtain ⟨hlt, hx, hy, hz, hf, hindex⟩ := hpos
  have hnvox := hh.nvox (hs.hv_of_decoding hd)
  have hvi : (s.vi + 1).toNat = s.vi.toNat + 1 := toNat_add_one hlt s.handle.nvox.isLt
  let r : CallRegs := { s.call with nb := s.call.nb.put s.vi.toNat s.call.u }
  have hr : r.inVolume s.handle := ⟨hx, hy, hz, hf⟩
  have hindex' : (advance s.handle r).index s.handle = r.index s.handle + 1 := advance_index hr
  have hne1 : s.emitAdvance.phase ≠ 1 := by
    rw [State.emitAdvance_phase]
    split <;> decide
  have hfilled' : ∀ i < s.emitAdvance.vi.toNat, (s.emitAdvance.call.nb.find i).isSome = true := by
    rw [State.emitAdvance_vi, hvi, State.emitAdvance_call, advance_nb]
    exact NbStore.filled_put _ hfilled
  refine ⟨fun h1 => absurd h1 hne1, hfilled', ?_⟩
  by_cases hend : s.vi + 1 = s.handle.nvox
  · rw [if_pos (State.emitAdvance_phase_last hend)]
    exact hend
  · have hne : (s.vi + 1).toNat ≠ s.handle.nvox.toNat := fun h => hend (BitVec.eq_of_toNat_eq h)
    rw [if_neg (by rw [State.emitAdvance_phase_next hend]; decide), State.emitAdvance_vi, hvi]
    have hri : s.vi.toNat = r.index s.handle := hindex
    obtain ⟨ax, ay, az, af⟩ := advance_inVolume hr (by omega)
    exact ⟨by rw [State.emitAdvance_handle]; omega, ax, ay, az, af, hri ▸ hindex'.symm⟩

theorem State.positionInv_phaseStep (hs : s.statusInv) (hh : s.handleInv) (hp : s.positionInv)
    (h : s.PhaseStep t) : t.positionInv := by
  cases h with
  | idle _ => exact hp
  | failed _ h =>
    rcases h with rfl | herr
    · exact hp
    · exact State.positionInv_of_not_decoding (by rw [State.callState_errorStep herr]; decide)
  | voxel _ h7 h => exact State.positionInv_voxelStep hp h7 h
  | emit h8 =>
    have hframe := State.storeBytes_frame s s.emitAddr s.emitBytes
    refine State.positionInv_emitAdvance ?_ ?_ ?_ ?_ <;> rw [hframe] <;> assumption
  | final _ => exact State.positionInv_of_not_decoding (by simp)

/-- A call starts at voxel 0 of a volume that is not empty (40 R154). -/
theorem State.positionInv_startCall (hh : s.handleInv) (hv : s.hv = true) :
    s.startCall.positionInv := by
  intro _
  have hn := hh.nvox hv
  unfold State.handleInv at hh
  rw [if_pos hv] at hh
  obtain ⟨-, -, hx, hy, hz, hf, -, -⟩ := hh
  have hpos : 0 < s.handle.nvox.toNat := by
    rw [hn]
    positivity
  exact ⟨fun _ => rfl, fun _ hi => absurd hi (Nat.not_lt_zero _), hpos, hx, hy, hz, hf, rfl⟩

end Sys2Proof.Machine

open Sys2Proof Sys2Proof.Machine

/-- Settles O52: EMIT alone moves the position, to the next linear index and with its entry stored;
a call starts at index 0. -/
theorem positionInvariantKept : Obligations.PositionInvariantKept := fun _ _ hs hh hp h =>
  step_keeps_callInv (J := State.positionInv) (fun _ hd => State.positionInv_of_not_decoding hd)
    (fun _ _ hp hf => by rw [hf]; exact hp)
    (fun _ hh hv => State.positionInv_startCall hh hv)
    (fun _ _ hs hh hp h => State.positionInv_phaseStep hs hh hp (phaseStep_of_exec h)) hs hh hp h

end

section
/-! SUPPORT. The residual registers of a call, phase by phase (42 R212 to R220). Here O53 is
settled. -/

namespace Sys2Proof.Machine

variable {s t : State}

/-! ## Ranges -/

theorem elemWidth_le (typ : BitVec 1) : elemWidth typ ≤ 64 := by
  unfold elemWidth
  split <;> decide

/-- The precision of a valid handle (10 R29). -/
theorem State.handleInv_precision (hh : s.handleInv) (hv : s.hv = true) :
    1 ≤ s.precision ∧ s.precision ≤ 64 := by
  unfold State.handleInv at hh
  rw [if_pos hv] at hh
  obtain ⟨h1, hw, -⟩ := hh
  exact ⟨h1, hw.trans (elemWidth_le _)⟩

/-- An encoded-domain value fits its 64-bit register (10 R29). -/
theorem maxEnc_lt {p : Nat} (hp : p ≤ 64) : maxEnc p < 2 ^ 64 := by
  have hpos := Nat.two_pow_pos p
  have hle : 2 ^ p ≤ 2 ^ 64 := Nat.pow_le_pow_right (by decide) hp
  unfold maxEnc
  omega

/-- The prediction is an encoded-domain value (43 R247). -/
theorem clampEnc_le (p : Nat) (acc : Int) : clampEnc p acc ≤ maxEnc p := by
  unfold clampEnc
  omega

/-- The bound of a residual is an encoded-domain value (42 R213). -/
theorem residualBound_le {p : Nat} {pred : DWord} (h : pred.toNat ≤ maxEnc p) (sgn : Bool) :
    residualBound p pred sgn ≤ maxEnc p := by
  unfold residualBound
  cases sgn
  · exact Nat.sub_le _ _
  · exact h

theorem ofBool_beq_one (b : Bool) : (BitVec.ofBool b == 1) = b := by
  cases b <;> rfl

/-- The next lower plane. -/
theorem plane_pred {k : BitVec 6} (hk : k ≠ 0) : (k - 1).toNat + 1 = k.toNat := by
  have hpos : 1 ≤ k.toNat := one_le_toNat hk
  have hlt := k.isLt
  rw [BitVec.toNat_sub]
  change (2 ^ 6 - 1 + k.toNat) % 2 ^ 6 + 1 = k.toNat
  omega

/-- A refined magnitude still has no bit below the plane (42 R218). -/
theorem refined_mod {m k : Nat} (h : m % 2 ^ (k + 1) = 0) (b : Bool) :
    (m ||| (if b then 2 ^ k else 0)) % 2 ^ k = 0 := by
  have hm : m % 2 ^ k = 0 :=
    Nat.mod_eq_zero_of_dvd ((pow_dvd_pow 2 k.le_succ).trans (Nat.dvd_of_mod_eq_zero h))
  rw [Nat.or_mod_two_pow, hm]
  cases b <;> simp

/-- RECON stays in the encoded domain while the magnitude is within its bound (42 R219, R220). -/
theorem CallRegs.reconstructed_le {r : CallRegs} {p : Nat} (hp : p ≤ 64)
    (hpred : r.pred.toNat ≤ maxEnc p)
    (hbnd : r.bnd.toNat = residualBound p r.pred (r.sgn == 1)) (hmag : r.mag.toNat ≤ r.bnd.toNat) :
    r.reconstructed.toNat ≤ maxEnc p := by
  have hmax := maxEnc_lt hp
  unfold CallRegs.reconstructed
  by_cases hs : r.sgn = 0
  · have hb : (r.sgn == 1) = false := by rw [hs]; rfl
    rw [hb] at hbnd
    simp only [residualBound, Bool.false_eq_true, if_false] at hbnd
    rw [if_pos hs, BitVec.toNat_add, Nat.mod_eq_of_lt (by omega)]
    omega
  · have hb : (r.sgn == 1) = true := by
      rw [beq_iff_eq]
      exact (BitVec.eq_zero_or_eq_one r.sgn).resolve_left hs
    rw [hb] at hbnd
    simp only [residualBound, if_true] at hbnd
    rw [if_neg hs, BitVec.toNat_sub_of_le (BitVec.le_def.2 (by omega))]
    omega

/-! ## Phase by phase -/

theorem State.residualInv_of_not_decoding (hd : s.callState ≠ .decoding) : s.residualInv :=
  fun h => absurd h hd

theorem State.residualInv_notTaken (hp : s.residualInv) (h : s.notTaken t) : t.residualInv := by
  rcases h with rfl | herr
  · exact hp
  · exact State.residualInv_of_not_decoding (by rw [State.callState_errorStep herr]; decide)

/-- Between two voxels only the neighbour store has to be in range. -/
theorem State.residualInv_of_nb (hnb : ∀ e ∈ s.call.nb, e.2.toNat ≤ maxEnc s.precision)
    (hphase : s.phase = 1 ∨ s.phase = 2 ∨ s.phase = 9) : s.residualInv := by
  intro _
  refine ⟨hnb, fun h => ?_, fun h => ?_, fun h => ?_, fun h => ?_, fun h => ?_⟩ <;>
    rcases hphase with e | e | e <;> rw [e] at h <;> exact absurd h (by decide)

theorem residualInv_execRcInit (hd : s.callState = .decoding) (hp : s.residualInv)
    (h : execRcInit s = .next t) : t.residualInv := by
  obtain ⟨hnb, -⟩ := hp hd
  rcases execRcInit_next h with h | ⟨r, n, code, -, -, -, rfl⟩
  · exact State.residualInv_notTaken hp h
  · exact State.residualInv_of_nb hnb (.inr (.inl rfl))

theorem residualInv_execPredict (hd : s.callState = .decoding) (hp : s.residualInv)
    (h : execPredict s = .next t) : t.residualInv := by
  obtain ⟨hnb, -⟩ := hp hd
  cases h
  intro _
  refine ⟨hnb, fun _ => ?_, by simp, by simp, by simp, by simp⟩
  exact (Nat.mod_le _ _).trans (clampEnc_le _ _)

theorem residualInv_execZero (hd : s.callState = .decoding) (hp : s.residualInv) (h3 : s.phase = 3)
    (h : execZero s = .next t) : t.residualInv := by
  obtain ⟨hnb, hpred, -⟩ := hp hd
  have hpred := hpred (by rw [h3]; decide)
  rcases execZero_next h with h | ⟨b, v, hdec, rfl⟩
  · exact State.residualInv_notTaken hp h
  · obtain ⟨r, n, range, code, c0, c1, rfl⟩ := State.decodeBit_coderStep hdec
    cases b
    · exact fun _ => ⟨hnb, fun _ => hpred, by simp, by simp, by simp, by simp⟩
    · exact fun _ => ⟨hnb, fun _ => hpred, by simp, by simp, by simp, fun _ => hpred⟩

theorem residualInv_execSign (hd : s.callState = .decoding)
    (hprec : 1 ≤ s.precision ∧ s.precision ≤ 64) (hp : s.residualInv) (h4 : s.phase = 4)
    (h : execSign s = .next t) : t.residualInv := by
  obtain ⟨hnb, hpred, -⟩ := hp hd
  have hpred := hpred (by rw [h4]; decide)
  obtain ⟨hp1, hp64⟩ := hprec
  rcases execSign_next h with h | ⟨b, v, hdec, hb, rfl⟩
  · exact State.residualInv_notTaken hp h
  · obtain ⟨r, n, range, code, c0, c1, rfl⟩ := State.decodeBit_coderStep hdec
    change residualBound s.precision s.call.pred b ≠ 0 at hb
    have hbnd : (BitVec.ofNat 64 (residualBound s.precision s.call.pred b)).toNat =
        residualBound s.precision s.call.pred b :=
      Nat.mod_eq_of_lt ((residualBound_le hpred b).trans_lt (maxEnc_lt hp64))
    have hplane : (BitVec.ofNat 6 (s.precision - 1)).toNat < s.precision :=
      (Nat.mod_le _ _).trans_lt (by omega)
    refine fun _ => ⟨hnb, fun _ => hpred, fun _ => ⟨⟨?_, ?_⟩, hplane, rfl⟩,
      by simp, by simp, by simp⟩
    · exact hbnd.trans (congrArg _ (ofBool_beq_one b).symm)
    · exact (Nat.one_le_iff_ne_zero.2 hb).trans_eq hbnd.symm

theorem residualInv_execSig (hd : s.callState = .decoding) (hp : s.residualInv) (h5 : s.phase = 5)
    (h : execSig s = .next t) : t.residualInv := by
  obtain ⟨hnb, hpred, hsig, -⟩ := hp hd
  have hpred := hpred (by rw [h5]; decide)
  obtain ⟨hbound, hplane, hmag⟩ := hsig h5
  have hpow : (BitVec.ofNat 64 (2 ^ s.call.plane.toNat)).toNat = 2 ^ s.call.plane.toNat :=
    Nat.mod_eq_of_lt (Nat.pow_lt_pow_right (by decide) (by omega))
  have hpos : 1 ≤ (BitVec.ofNat 64 (2 ^ s.call.plane.toNat)).toNat :=
    Nat.one_le_two_pow.trans_eq hpow.symm
  rcases execSig_next h with h | ⟨b, v, hdec, hcases⟩
  · exact State.residualInv_notTaken hp h
  · obtain ⟨r, n, range, code, c0, c1, rfl⟩ := State.decodeBit_coderStep hdec
    rcases hcases with ⟨-, hle, -, rfl⟩ | ⟨-, hle, hk, rfl⟩ | ⟨-, hk, rfl⟩
    · exact fun _ => ⟨hnb, fun _ => hpred, by simp, by simp,
        fun _ => ⟨hbound, hpos, hpow.trans_le hle⟩, by simp⟩
    · have hpred1 := plane_pred hk
      refine fun _ => ⟨hnb, fun _ => hpred, by simp,
        fun _ => ⟨hbound, ?_, hpos, hpow.trans_le hle, ?_⟩, by simp, by simp⟩
      · exact hpred1.trans_lt hplane
      · dsimp only
        rw [hpow, hpred1, Nat.mod_self]
    · have hpred1 := plane_pred hk
      exact fun _ => ⟨hnb, fun _ => hpred,
        fun _ => ⟨hbound, (Nat.lt_of_succ_le hpred1.le).trans hplane, hmag⟩,
        by simp, by simp, by simp⟩

theorem residualInv_execRef (hd : s.callState = .decoding) (hp : s.residualInv) (h6 : s.phase = 6)
    (h : execRef s = .next t) : t.residualInv := by
  obtain ⟨hnb, hpred, -, href, -⟩ := hp hd
  have hpred := hpred (by rw [h6]; decide)
  obtain ⟨hbound, hplane, hpos, -, hmod⟩ := href h6
  rcases execRef_next h with h | ⟨j, b, v, -, hdec, hle, rfl⟩
  · exact State.residualInv_notTaken hp h
  · obtain ⟨r, n, range, code, c0, c1, rfl⟩ := State.decodeBit_coderStep hdec
    let m := s.call.mag.toNat ||| (if b then 2 ^ s.call.plane.toNat else 0)
    have hle : m ≤ s.call.bnd.toNat := hle
    have hm : (BitVec.ofNat 64 m).toNat = m := Nat.mod_eq_of_lt (hle.trans_lt s.call.bnd.isLt)
    have hm1 : 1 ≤ (BitVec.ofNat 64 m).toNat := (hpos.trans Nat.left_le_or).trans_eq hm.symm
    have hmle : (BitVec.ofNat 64 m).toNat ≤ s.call.bnd.toNat := hm.trans_le hle
    split
    · exact fun _ => ⟨hnb, fun _ => hpred, by simp, by simp, fun _ => ⟨hbound, hm1, hmle⟩, by simp⟩
    · rename_i hk
      have hpred1 := plane_pred hk
      have hplane' : (s.call.plane - 1).toNat + 1 < s.precision := by omega
      have hmod' : (BitVec.ofNat 64 m).toNat % 2 ^ ((s.call.plane - 1).toNat + 1) = 0 := by
        rw [hm, hpred1]
        exact refined_mod hmod b
      exact fun _ => ⟨hnb, fun _ => hpred, by simp, fun _ => ⟨hbound, hplane', hm1, hmle, hmod'⟩,
        by simp, by simp⟩

theorem residualInv_execRecon (hd : s.callState = .decoding) (hp64 : s.precision ≤ 64)
    (hp : s.residualInv) (h7 : s.phase = 7) (h : execRecon s = .next t) : t.residualInv := by
  obtain ⟨hnb, hpred, -, -, hrecon, -⟩ := hp hd
  have hpred := hpred (by rw [h7]; decide)
  obtain ⟨⟨hbnd, -⟩, -, hmag⟩ := hrecon h7
  cases h
  exact fun _ => ⟨hnb, fun _ => hpred, by simp, by simp, by simp,
    fun _ => CallRegs.reconstructed_le hp64 hpred hbnd hmag⟩

theorem State.residualInv_emitAdvance (hd : s.callState = .decoding) (hp : s.residualInv)
    (h8 : s.phase = 8) : s.emitAdvance.residualInv := by
  obtain ⟨hnb, -, -, -, -, hu⟩ := hp hd
  refine State.residualInv_of_nb (fun e he => ?_) ?_
  · rw [State.emitAdvance_call, advance_nb] at he
    rcases NbStore.mem_put he with rfl | he
    · exact hu h8
    · exact hnb e he
  · by_cases hend : s.vi + 1 = s.handle.nvox
    · exact .inr (.inr (State.emitAdvance_phase_last hend))
    · exact .inr (.inl (State.emitAdvance_phase_next hend))

theorem residualInv_execEmit (hd : s.callState = .decoding) (hp : s.residualInv) (h8 : s.phase = 8)
    (h : execEmit s = .next t) : t.residualInv := by
  rcases execEmit_next h with rfl | rfl
  · exact hp
  · have hframe := State.storeBytes_frame s s.emitAddr s.emitBytes
    refine State.residualInv_emitAdvance ?_ ?_ ?_ <;> rw [hframe] <;> assumption

theorem residualInv_execFinal (hp : s.residualInv) (h : execFinal s = .next t) : t.residualInv := by
  rcases execFinal_next h with h | ⟨-, rfl⟩
  · exact State.residualInv_notTaken hp h
  · exact State.residualInv_of_not_decoding (by simp)

/-- Every step of a call keeps the residual registers in range. -/
theorem State.residualInv_phase (hs : s.statusInv) (hh : s.handleInv) (hp : s.residualInv)
    (h : exec (decodePhase s.phase) s = .next t) : t.residualInv := by
  have hdec (n : BitVec 4) (hn : n ≠ 0) (hpn : s.phase = n) : s.callState = .decoding :=
    hs.decoding (hpn.trans_ne hn)
  have hprec (hd : s.callState = .decoding) : 1 ≤ s.precision ∧ s.precision ≤ 64 :=
    State.handleInv_precision hh (State.statusInv.hv_of_decoding hs hd)
  rcases exec_decodePhase_next h with ⟨-, rfl⟩ | ⟨hn, h⟩ | ⟨hn, h⟩ | ⟨hn, h⟩ | ⟨hn, h⟩ | ⟨hn, h⟩ |
    ⟨hn, h⟩ | ⟨hn, h⟩ | ⟨hn, h⟩ | ⟨-, h⟩
  · exact hp
  · exact residualInv_execRcInit (hdec 1 (by decide) hn) hp h
  · exact residualInv_execPredict (hdec 2 (by decide) hn) hp h
  · exact residualInv_execZero (hdec 3 (by decide) hn) hp hn h
  · have hd := hdec 4 (by decide) hn
    exact residualInv_execSign hd (hprec hd) hp hn h
  · exact residualInv_execSig (hdec 5 (by decide) hn) hp hn h
  · exact residualInv_execRef (hdec 6 (by decide) hn) hp hn h
  · have hd := hdec 7 (by decide) hn
    exact residualInv_execRecon hd (hprec hd).2 hp hn h
  · exact residualInv_execEmit (hdec 8 (by decide) hn) hp hn h
  · exact residualInv_execFinal hp h

end Sys2Proof.Machine

open Sys2Proof Sys2Proof.Machine

/-- Settles O53, phase by phase; a call starts with no entry in the neighbour store. -/
theorem residualInvariantKept : Obligations.ResidualInvariantKept := fun _ _ hs hh hp h =>
  step_keeps_callInv (J := State.residualInv) (fun _ hd => State.residualInv_of_not_decoding hd)
    (fun _ _ hp hf => by rw [hf]; exact hp)
    (fun _ _ _ => State.residualInv_of_nb (fun _ he => absurd he List.not_mem_nil) (.inl rfl))
    (fun _ _ hs hh hp h => State.residualInv_phase hs hh hp h) hs hh hp h

end

section
/-! SUPPORT. A step of a call commutes with a change of the host's registers: every operation of the
phases reads the call, the handle and memory only (10 R41). Here O57 is settled. -/

namespace Sys2Proof.Machine

variable {α β : Type} {s : State}

/-- The state with other host registers. -/
def State.withRegs (s : State) (r : HostRegs) : State := { s with regs := r }

/-- A result with other host registers in the state it reached. -/
def Res.withRegs (r : HostRegs) : Res α → Res α
  | .ok a s => .ok a (s.withRegs r)
  | .raised e s => .raised e (s.withRegs r)
  | .stuck => .stuck
  | .refused x => .refused x

/-- An outcome with other host registers in the next state. -/
def outcomeWithRegs (r : HostRegs) :
    Host.Outcome State Fault Refusal → Host.Outcome State Fault Refusal
  | .next s => .next (s.withRegs r)
  | .fault f => .fault f
  | .refused x => .refused x

/-- Two operations in a row commute with the change if both do. -/
theorem Res.bind_withRegs {r : HostRegs} {x y : Res α} {f g : α → State → Res β}
    (hx : x = y.withRegs r) (hf : ∀ a t, f a (t.withRegs r) = (g a t).withRegs r) :
    x.bind f = (y.bind g).withRegs r := by
  subst hx
  cases y with
  | ok a t => exact hf a t
  | raised e t => rfl
  | stuck => rfl
  | refused y => rfl

/-- A choice commutes with the change if both branches do. -/
theorem Res.ite_withRegs {c : Prop} [Decidable c] {r : HostRegs} {x y x' y' : Res α}
    (hx : x' = x.withRegs r) (hy : y' = y.withRegs r) :
    (if c then x' else y') = (if c then x else y).withRegs r := by
  split
  · exact hx
  · exact hy

theorem State.commit_withRegs (s : State) (r : HostRegs) (x : Res Unit) :
    (s.withRegs r).commit (x.withRegs r) = outcomeWithRegs r (s.commit x) := by
  cases x <;> rfl

/-! ## The master port -/

theorem State.portRead_withRegs (s : State) (r : HostRegs) (a : DWord) :
    (s.withRegs r).portRead a = (s.portRead a).withRegs r := by
  have hadm : (s.withRegs r).admission a = s.admission a := rfl
  have hbyte : (s.withRegs r).portByte a = s.portByte a := rfl
  unfold State.portRead
  rw [hadm, hbyte]
  cases s.admission a with
  | memory => cases s.portByte a <;> rfl
  | device => rfl
  | absent => rfl

theorem State.fetchByte_withRegs (s : State) (r : HostRegs) :
    (s.withRegs r).fetchByte = s.fetchByte.withRegs r := by
  unfold State.fetchByte
  exact Res.ite_withRegs rfl (Res.bind_withRegs (State.portRead_withRegs ..) fun _ _ => rfl)

theorem State.storeByte_withRegs (s : State) (r : HostRegs) (a : DWord) (b : Byte) :
    (s.withRegs r).storeByte a b = (s.storeByte a b).withRegs r := by
  have hcon : (s.withRegs r).contested a = s.contested a := rfl
  unfold State.storeByte
  rw [hcon]
  cases s.contested a <;> rfl

theorem State.storeBytes_withRegs (s : State) (r : HostRegs) (a : DWord) (bs : List Byte) :
    (s.withRegs r).storeBytes a bs = (s.storeBytes a bs).withRegs r := by
  induction bs generalizing s a with
  | nil => rfl
  | cons b bs ih =>
    unfold State.storeBytes
    rw [State.storeByte_withRegs, ih]

theorem State.admissionRun_withRegs (s : State) (r : HostRegs) (a : DWord) (n : Nat) :
    (s.withRegs r).admissionRun a n = s.admissionRun a n := by
  induction n generalizing a with
  | zero => rfl
  | succ n ih =>
    have hadm : (s.withRegs r).admission a = s.admission a := rfl
    unfold State.admissionRun
    rw [hadm, ih]

theorem State.portWrite_withRegs (s : State) (r : HostRegs) (a : DWord) (bs : List Byte) :
    (s.withRegs r).portWrite a bs = (s.portWrite a bs).withRegs r := by
  unfold State.portWrite
  rw [State.admissionRun_withRegs, State.storeBytes_withRegs]
  cases s.admissionRun a bs.length <;> rfl

/-! ## The coder -/

theorem renormLoop_withRegs (n : Nat) (s : State) (r : HostRegs) :
    renormLoop n (s.withRegs r) = (renormLoop n s).withRegs r := by
  induction n generalizing s with
  | zero =>
    exact Res.ite_withRegs rfl (Res.bind_withRegs (s.fetchByte_withRegs r) fun _ _ => rfl)
  | succ n ih =>
    exact Res.ite_withRegs rfl
      (Res.bind_withRegs (s.fetchByte_withRegs r) fun b t => ih (t.shiftIn b))

theorem State.renormalize_withRegs (s : State) (r : HostRegs) :
    (s.withRegs r).renormalize = s.renormalize.withRegs r :=
  renormLoop_withRegs _ s r

theorem State.decodeBit_withRegs (s : State) (r : HostRegs) (j : Fin Config.nctx) :
    (s.withRegs r).decodeBit j = (s.decodeBit j).withRegs r :=
  let b := s.call.decision j
  Res.bind_withRegs
    (State.renormalize_withRegs { s with call := (s.call.narrow j b).update j b } r) fun _ _ => rfl

theorem fetchCode_withRegs (n code : Nat) (s : State) (r : HostRegs) :
    fetchCode n code (s.withRegs r) = (fetchCode n code s).withRegs r := by
  induction n generalizing code s with
  | zero => rfl
  | succ n ih =>
    exact Res.bind_withRegs (s.fetchByte_withRegs r) fun b t => ih (code * 256 + b.toNat) t

/-! ## The phases -/

theorem State.rcInit_withRegs (s : State) (r : HostRegs) :
    (s.withRegs r).rcInit = s.rcInit.withRegs r :=
  Res.bind_withRegs (fetchCode_withRegs 4 0 s r) fun _ _ => Res.ite_withRegs rfl rfl

theorem State.zero_withRegs (s : State) (r : HostRegs) :
    (s.withRegs r).zero = s.zero.withRegs r :=
  Res.bind_withRegs (s.decodeBit_withRegs r ctxZero) fun _ _ => Res.ite_withRegs rfl rfl

theorem State.sign_withRegs (s : State) (r : HostRegs) :
    (s.withRegs r).sign = s.sign.withRegs r :=
  Res.bind_withRegs (s.decodeBit_withRegs r ctxSign) fun _ _ => Res.ite_withRegs rfl rfl

theorem State.sig_withRegs (s : State) (r : HostRegs) :
    (s.withRegs r).sig = s.sig.withRegs r :=
  Res.bind_withRegs (s.decodeBit_withRegs r (ctxSig s.call.plane)) fun _ _ =>
    Res.ite_withRegs (Res.ite_withRegs rfl (Res.ite_withRegs rfl rfl)) (Res.ite_withRegs rfl rfl)

theorem State.refIn_withRegs (s : State) (r : HostRegs) (j : Fin Config.nctx) :
    (s.withRegs r).refIn j = (s.refIn j).withRegs r :=
  Res.bind_withRegs (s.decodeBit_withRegs r j) fun _ _ =>
    Res.ite_withRegs rfl (Res.ite_withRegs rfl rfl)

theorem State.emit_withRegs (s : State) (r : HostRegs) :
    (s.withRegs r).emit = s.emit.withRegs r :=
  Res.bind_withRegs (s.portWrite_withRegs r s.emitAddr s.emitBytes) fun _ _ => rfl

theorem State.final_withRegs (s : State) (r : HostRegs) :
    (s.withRegs r).final = s.final.withRegs r :=
  Res.ite_withRegs rfl rfl

/-- A phase step commutes with a change of the host's registers. -/
theorem exec_withRegs {i : Instr} (hi : i.format = .phase) (s : State) (r : HostRegs) :
    exec i (s.withRegs r) = outcomeWithRegs r (exec i s) := by
  have hcommit {x y : Res Unit} (h : x = y.withRegs r) :
      (s.withRegs r).commit x = outcomeWithRegs r (s.commit y) := h ▸ s.commit_withRegs r y
  cases i with
  | nop | openStream | decompress | dekompress | reservedLow | reservedHigh => cases hi
  | idle | predict | recon | unusedLow | unusedHigh => rfl
  | rcInit => exact hcommit (s.rcInit_withRegs r)
  | zero => exact hcommit (s.zero_withRegs r)
  | sign => exact hcommit (s.sign_withRegs r)
  | sig => exact hcommit (s.sig_withRegs r)
  | ref =>
    change execRef (s.withRegs r) = outcomeWithRegs r (execRef s)
    have hplane : (s.withRegs r).call.plane = s.call.plane := rfl
    unfold execRef
    rw [hplane]
    cases ctxRef s.call.plane with
    | none => rfl
    | some j => exact hcommit (s.refIn_withRegs r j)
  | emit => exact hcommit (s.emit_withRegs r)
  | final => exact hcommit (s.final_withRegs r)

end Sys2Proof.Machine

open Sys2Proof Sys2Proof.Machine

/-- Settles O57: every operation of a phase commutes with a change of the host's registers. -/
theorem phaseStepsIgnoreHostRegisters : Obligations.PhaseStepsIgnoreHostRegisters := by
  intro i s r hi
  refine (exec_withRegs hi s r).trans ?_
  cases exec i s <;> rfl

end

section
/-! SUPPORT. The register window as the host sees it (10 R20 to R38). Here O40, O41, O42, O43 and
O44 are settled. -/

namespace Sys2Proof.Machine

variable {s : State}

/-! ## Halves and small fields (10 R38) -/

/-- The halves of a 64-bit register make it up again. -/
@[simp] theorem highHalf_append_lowHalf (v : DWord) : highHalf v ++ lowHalf v = v := by
  unfold highHalf lowHalf
  rw [BitVec.extractLsb'_append_extractLsb'_eq_extractLsb' (by decide)]
  simp

/-- Bit 0 of a word, kept as the word. -/
theorem setWidth_one_setWidth (v : Word) : (v.setWidth 1).setWidth 32 = v &&& 1 := by
  apply BitVec.eq_of_toNat_eq
  simp only [BitVec.toNat_setWidth, BitVec.toNat_and]
  change v.toNat % 2 % 2 ^ 32 = v.toNat &&& 1
  rw [Nat.and_one_is_mod]
  omega

theorem toNat_setWidth_of_le {n m : Nat} (h : n ≤ m) (x : BitVec n) :
    (x.setWidth m).toNat = x.toNat := by
  rw [BitVec.toNat_setWidth]
  exact Nat.mod_eq_of_lt (x.isLt.trans_le (Nat.pow_le_pow_right (by decide) h))

/-- CAP_NB of a bounded neighbour store (10 R35). -/
theorem capNb_some_toNat (d : Nat) : (capNb (some d)).toNat = min d (2 ^ 64 - 1) := by
  unfold capNb
  rw [BitVec.toNat_ofNat, Nat.mod_eq_of_lt (by omega)]

/-! ## Accesses -/

/-- A write to an aligned offset other than CTRL's (10 R25, R26), lost in reset (70 R310, R312). -/
theorem State.access_write (s : State) {off : Nat} (v : Word) (h : off < 0x100) (h4 : off % 4 = 0)
    (hc : off ≠ ctrlOffset) :
    s.access (s.plat.mmioBase + BitVec.ofNat 64 off) 4 (.write v) =
      if s.resetApplied then .next s else .next { s with regs := s.regs.write off v } := by
  unfold State.access
  rw [State.regOffset_window s h h4]
  dsimp only
  unfold State.hostWrite
  rw [if_neg hc]

/-- A read of an aligned offset (10 R20). -/
theorem State.access_read (s : State) {off : Nat} (h : off < 0x100) (h4 : off % 4 = 0) :
    s.access (s.plat.mmioBase + BitVec.ofNat 64 off) 4 .read = .next (s.hostRead off) := by
  unfold State.access
  rw [State.regOffset_window s h h4]

/-- An access in the window that is not an aligned 32-bit one (10 R37). -/
theorem State.access_odd (s : State) {off bytes : Nat} (op : BusOp) (h : off < 0x100)
    (hodd : bytes ≠ 4 ∨ off % 4 ≠ 0) :
    s.access (s.plat.mmioBase + BitVec.ofNat 64 off) bytes op = .refused .registerAccess := by
  have hoff : (s.plat.mmioBase + BitVec.ofNat 64 off - s.plat.mmioBase).toNat = off := by
    rw [add_sub_cancel_left, BitVec.toNat_ofNat]
    omega
  have hin : s.inWindow (s.plat.mmioBase + BitVec.ofNat 64 off) = true := by
    unfold State.inWindow inRange
    rw [hoff]
    simpa using h
  unfold State.access State.regOffset
  rw [hin, hoff, if_neg (by decide), if_pos hodd]

/-- An offset that is no host-writable register ignores writes (10 R36). -/
theorem HostRegs.write_readOnly (r : HostRegs) {off : Nat} (v : Word) (h : off ∉ writableOffsets) :
    r.write off v = r := by
  unfold HostRegs.write
  split
  case h_10 => rfl
  all_goals exact absurd (by decide) h

/-- Reserved offsets read 0 (10 R36). -/
theorem State.readReg_reserved (s : State) {off : Nat}
    (h : off = 0x0C ∨ (0x34 ≤ off ∧ off ≤ 0x3C) ∨ 0x80 ≤ off) : s.readReg off = 0 := by
  unfold State.readReg
  split
  case h_28 => rfl
  all_goals omega

/-- The host's registers are read at their own offsets only. -/
theorem State.readReg_withRegs (s : State) (r : HostRegs) {off : Nat} (h : off ∉ writableOffsets) :
    (s.withRegs r).readReg off = s.readReg off := by
  unfold State.readReg
  split
  case h_3 | h_4 | h_5 | h_6 | h_7 | h_8 | h_9 | h_10 | h_11 => exact absurd (by decide) h
  all_goals rfl

/-- What the host's registers read as, by offset (10 R20). -/
def HostRegs.read (r : HostRegs) (off : Nat) : Word :=
  match off with
  | 0x10 => lowHalf r.srcBase
  | 0x14 => highHalf r.srcBase
  | 0x18 => lowHalf r.srcLen
  | 0x1C => highHalf r.srcLen
  | 0x20 => lowHalf r.dstBase
  | 0x24 => highHalf r.dstBase
  | 0x28 => lowHalf r.dstCount
  | 0x2C => highHalf r.dstCount
  | 0x30 => r.dstType.setWidth 32
  | _ => 0

theorem writableOffsets_cases {off : Nat} (h : off ∈ writableOffsets) :
    off = 0x10 ∨ off = 0x14 ∨ off = 0x18 ∨ off = 0x1C ∨ off = 0x20 ∨ off = 0x24 ∨ off = 0x28 ∨
      off = 0x2C ∨ off = 0x30 := by
  simpa [writableOffsets] using h

/-- At the offset of a host register the window shows that register. -/
theorem State.readReg_writable (s : State) {off : Nat} (h : off ∈ writableOffsets) :
    s.readReg off = s.regs.read off := by
  rcases writableOffsets_cases h with rfl | rfl | rfl | rfl | rfl | rfl | rfl | rfl | rfl <;> rfl

/-- A written register reads back; DST_TYPE keeps bit 0 only (10 R25, R26). -/
theorem HostRegs.read_write_same (r : HostRegs) {off : Nat} (v : Word) (h : off ∈ writableOffsets) :
    (r.write off v).read off = if off = 0x30 then v &&& 1 else v := by
  rcases writableOffsets_cases h with rfl | rfl | rfl | rfl | rfl | rfl | rfl | rfl | rfl <;>
    simp [HostRegs.read, HostRegs.write, setWidth_one_setWidth]

/-- A write leaves every other register, the other half of the same 64-bit one among them (10 R38).
-/
theorem HostRegs.read_write_other (r : HostRegs) {off off' : Nat} (v : Word)
    (h : off ∈ writableOffsets) (hne : off' ≠ off) : (r.write off v).read off' = r.read off' := by
  rcases writableOffsets_cases h with rfl | rfl | rfl | rfl | rfl | rfl | rfl | rfl | rfl <;>
    dsimp only [HostRegs.write] <;> unfold HostRegs.read <;> split <;>
    simp_all

/-- A write leaves what every other offset reads (10 R38). -/
theorem State.readReg_write_other (s : State) {off off' : Nat} (v : Word)
    (h : off ∈ writableOffsets) (hne : off' ≠ off) :
    (s.withRegs (s.regs.write off v)).readReg off' = s.readReg off' := by
  by_cases h' : off' ∈ writableOffsets
  · rw [State.readReg_writable _ h', State.readReg_writable s h']
    exact s.regs.read_write_other v h hne
  · exact s.readReg_withRegs _ h'

theorem writableOffsets_aligned {off : Nat} (h : off ∈ writableOffsets) :
    off < 0x100 ∧ off % 4 = 0 ∧ off ≠ ctrlOffset := by
  revert off
  decide

/-! ## STATUS (10 R23, R24) -/

/-- The fields of STATUS wider than one bit, at their places (10 R23). -/
theorem State.statusWord_fields (s : State) :
    s.statusWord.extractLsb' 0 3 = s.callState.code ∧ s.statusWord.extractLsb' 6 2 = 0 ∧
      s.statusWord.extractLsb' 8 4 = s.err ∧ s.statusWord.extractLsb' 12 4 = s.sub ∧
      s.statusWord.extractLsb' 16 4 = s.phase ∧ s.statusWord.extractLsb' 20 12 = 0 := by
  unfold State.statusWord
  refine ⟨BitVec.extractLsb'_append_eq_right, ?_, ?_, ?_, ?_, ?_⟩
  all_goals
    change BitVec.extractLsb' (n := 12 + 4 + 4 + 4 + 2 + 1 + 1 + 1 + 3) _ _ _ = _
    simp only [BitVec.extractLsb'_append_eq_of_le, BitVec.extractLsb'_append_eq_right,
      BitVec.extractLsb'_eq_self, Nat.reduceLeDiff, Nat.reduceSub]

/-- The single bits of STATUS: BUSY, HV and IGN (10 R23). -/
theorem State.statusWord_bits (s : State) :
    s.statusWord.getLsbD 3 = s.busy ∧ s.statusWord.getLsbD 4 = s.hv ∧
      s.statusWord.getLsbD 5 = s.ign := by
  unfold State.statusWord
  refine ⟨?_, ?_, ?_⟩
  all_goals
    change BitVec.getLsbD (w := 12 + 4 + 4 + 4 + 2 + 1 + 1 + 1 + 3) _ _ = _
    simp only [BitVec.getLsbD_append]
    simp

/-- BUSY is 1 exactly while DECODING (10 R23). -/
theorem State.busy_eq_decide (s : State) : s.busy = decide (s.callState = .decoding) :=
  beq_eq_decide s.callState .decoding

/-- Different states have different codes (10 R24). -/
theorem CallState.eq_iff_code (c d : CallState) : c = d ↔ c.code = d.code := by
  cases c <;> cases d <;> decide

end Sys2Proof.Machine

open Sys2Proof Sys2Proof.Machine

/-- Settles O40: each offset is one line of the map, and two halves make up a 64-bit register. -/
theorem registerMapReads : Obligations.RegisterMapReads := by
  intro s
  refine ⟨rfl, rfl, rfl, highHalf_append_lowHalf _, highHalf_append_lowHalf _,
    highHalf_append_lowHalf _, highHalf_append_lowHalf _, toNat_setWidth_of_le (by decide) _,
    toNat_setWidth_of_le (by decide) _, toNat_setWidth_of_le (by decide) _, rfl, rfl, rfl, rfl,
    highHalf_append_lowHalf _, highHalf_append_lowHalf _, highHalf_append_lowHalf _,
    highHalf_append_lowHalf _, ?_⟩
  have hcap : s.readReg 0x7C ++ s.readReg 0x78 = capNb s.plat.nbDepth := highHalf_append_lowHalf _
  rw [hcap]
  cases s.plat.nbDepth with
  | none => rfl
  | some d => exact capNb_some_toNat d

/-- Settles O41: a write falls in the default arm of the host registers, and so does a reserved
read. -/
theorem readOnlyAndReservedIgnoreWrites : Obligations.ReadOnlyAndReservedIgnoreWrites := by
  intro s off v hlt h4
  refine ⟨fun hro hctrl => ?_, s.readReg_reserved, s.access_read hlt h4⟩
  rw [s.access_write v hlt h4 hctrl, HostRegs.write_readOnly _ v hro, ite_self]

/-- Settles O42: the registers after the write are `HostRegs.write`'s, and each is read at its own
offset only. -/
theorem writtenRegisterReadsBack : Obligations.WrittenRegisterReadsBack := by
  intro s off v hoff
  obtain ⟨hlt, h4, hctrl⟩ := writableOffsets_aligned hoff
  rw [s.access_write v hlt h4 hctrl]
  refine ⟨fun hr => ⟨s.regs.write off v, ?_,
    (State.readReg_writable _ hoff).trans (s.regs.read_write_same v hoff),
    fun _ hne => s.readReg_write_other v hoff hne⟩, fun hr => ?_⟩
  · rw [hr]
    rfl
  · rw [hr]
    rfl

/-- Settles O43, by the fields of the word and the code of each state. -/
theorem statusWordFields : Obligations.StatusWordFields := by
  intro s
  obtain ⟨hcode, hzero, herr, hsub, hphase, hhigh⟩ := s.statusWord_fields
  obtain ⟨hbusy, hhv, hign⟩ := s.statusWord_bits
  rw [hcode]
  exact ⟨CallState.eq_iff_code _ .unopened, CallState.eq_iff_code _ .headerParsed,
    CallState.eq_iff_code _ .decoding, CallState.eq_iff_code _ .complete,
    CallState.eq_iff_code _ .failed, hbusy.trans s.busy_eq_decide, hhv, hign, hzero, herr, hsub,
    hphase, hhigh⟩

/-- Settles O44: the access is inside the window and fails the width and alignment check. -/
theorem oddRegisterAccessRefused : Obligations.OddRegisterAccessRefused :=
  fun s _ _ op hlt hodd => s.access_odd op hlt hodd

end

section
/-! SUPPORT. The step that serves the first event, and reset. Here O5, O6, O46, O47 and O59 are
settled. -/

namespace Sys2Proof.Machine

variable {s t : State}

/-! ## Decoding the bytes of a PHASE value and of a CTRL word (30 R110, R120) -/

theorem wordOfBytes_bytesOfWord (v : Word) :
    wordOfBytes (v.extractLsb' 0 8) (v.extractLsb' 8 8) (v.extractLsb' 16 8) (v.extractLsb' 24 8) =
      v := by
  unfold wordOfBytes
  rw [BitVec.extractLsb'_append_extractLsb'_eq_extractLsb' (by decide),
    BitVec.extractLsb'_append_extractLsb'_eq_extractLsb' (by decide),
    BitVec.extractLsb'_append_extractLsb'_eq_extractLsb' (by decide)]
  simp

/-- The bytes of a CTRL word decode to its command. -/
theorem decode_bytesOfWord (v : Word) : decode (bytesOfWord v) = .ok (decodeCtrl v) :=
  congrArg (fun w => Except.ok (decodeCtrl w)) (wordOfBytes_bytesOfWord v)

/-- The byte of a PHASE value decodes to its step. -/
theorem decode_phaseByte (p : BitVec 4) : decode [p.setWidth 8] = .ok (decodePhase p) := by
  have hp : (p.setWidth 8).setWidth 4 = p := by
    revert p
    decide
  exact congrArg (fun q => Except.ok (decodePhase q)) hp

/-! ## The first event -/

theorem step_nil (he : s.events = []) : step s = s.coreStep := by
  unfold step State.advanceOne
  rw [he]

theorem step_cons {e : Event} {rest : List Event} (he : s.events = e :: rest) :
    step s = State.serve { s with events := rest } e := by
  unfold step State.advanceOne
  rw [he]

/-- A block that is not stuck and not held in reset takes the step PHASE selects. -/
theorem State.coreStep_free (hs : s.stuck = false) (hr : s.resetApplied = false) :
    s.coreStep = exec (decodePhase s.phase) s := by
  unfold State.coreStep
  rw [hs, hr]
  rfl

theorem State.coreStep_held (h : s.stuck = true ∨ s.resetApplied = true) :
    s.coreStep = .next s := by
  unfold State.coreStep
  rw [if_pos (by simpa using h)]

/-- A word written to CTRL (10 R22). -/
theorem State.serve_ctrl (s : State) (v : Word) :
    s.serve (.access (s.plat.mmioBase + 4) 4 (.write v)) =
      if s.resetApplied then .next s else s.ctrlWrite v := by
  change s.access (s.plat.mmioBase + BitVec.ofNat 64 4) 4 (.write v) = _
  unfold State.access
  rw [State.regOffset_window s (by decide) (by decide)]
  rfl

/-- A block that is not stuck in an OPEN runs the command. -/
theorem State.ctrlWrite_free (v : Word) (h : s.stuck = false ∨ s.callState = .decoding) :
    s.ctrlWrite v = exec (decodeCtrl v) s := by
  unfold State.ctrlWrite
  rw [s.busy_eq_decide, if_neg]
  rcases h with h | h <;> simp [h]

theorem State.ctrlWrite_stuck (v : Word) (hs : s.stuck = true) (hd : s.callState ≠ .decoding) :
    s.ctrlWrite v = .next s := by
  unfold State.ctrlWrite
  rw [s.busy_eq_decide, if_pos]
  simp [hs, hd]

theorem step_withPhase (s : State) (p : BitVec 4) :
    step (s.withPhase p) =
      exec (decodePhase p) { s with stuck := false, resetApplied := false, phase := p } :=
  (step_cons (s.withPhase_events p)).trans (State.coreStep_free rfl rfl)

theorem step_withCtrlWord (s : State) (v : Word) :
    step (s.withCtrlWord v) =
      exec (decodeCtrl v) { s with stuck := false, resetApplied := false } := by
  let u : State := { s with stuck := false, resetApplied := false }
  calc step (s.withCtrlWord v)
    _ = u.serve (.access (u.plat.mmioBase + 4) 4 (.write v)) := step_cons rfl
    _ = u.ctrlWrite v := u.serve_ctrl v
    _ = exec (decodeCtrl v) u := State.ctrlWrite_free v (.inl rfl)

/-! ## Reset (10 R48, 70 R310) -/

theorem State.hardwareReset_values (s : State) :
    s.hardwareReset.resetValues ∧ s.hardwareReset.resetApplied = true := by
  have hstatus : State.reset.statusWord = 0 := by decide
  exact ⟨⟨hstatus, rfl, rfl, rfl, rfl, rfl, rfl, rfl, rfl, rfl, rfl, rfl⟩, rfl⟩

/-- A host access while the reset input is applied leaves the registers at their reset values. -/
theorem State.resetValues_hostFrame (hr : s.resetApplied = true) (hs : s.resetValues)
    (hf : s.hostFrame t) : t.resetValues ∧ t.resetApplied = true := by
  obtain ⟨hframe, hregs, -⟩ := hf
  have hregs := hregs hr
  rw [hframe] at hregs ⊢
  obtain ⟨hstatus, hcall, hphase, hhv, hign, herr, hsub, hr0, hhandle, hvi, hrptr, -⟩ := hs
  exact ⟨⟨hstatus, hcall, hphase, hhv, hign, herr, hsub, hregs.trans hr0, hhandle, hvi, hrptr, rfl⟩,
    hr⟩

/-- A step while the reset input is applied (70 R310, R311). -/
theorem State.resetValues_step (hr : s.resetApplied = true) (hs : s.resetValues)
    (h : step s = .next t) :
    t.resetValues ∧ (t.resetApplied = true ∨ s.events.head? = some .releaseReset) ∧
      (t.mem = s.mem ∨ ∃ (a : DWord) (b v : Byte), s.events.head? = some (.store a b) ∧
        t.mem = s.mem.write a.toNat v) := by
  cases stepCase_of_step h with
  | phase r hn | command r v _ hn => exact absurd hr (by simp [hn])
  | host hf hm =>
    obtain ⟨hvalues, hr'⟩ := State.resetValues_hostFrame hr hs hf
    exact ⟨hvalues, .inl hr', hm⟩
  | reset r _ => exact ⟨(State.hardwareReset_values _).1, .inl rfl, .inl rfl⟩
  | release r he => exact ⟨hs, .inr he, .inl rfl⟩

end Sys2Proof.Machine

open Sys2Proof Sys2Proof.Machine

/-- Settles O5, by the first event and whether the block is stuck or held in reset. -/
theorem stepRunsDecodedInstruction : Obligations.StepRunsDecodedInstruction := by
  refine ⟨fun s i _ hr => ⟨fun hi hs => ?_, fun v rest hi he hs => ?_⟩,
    fun s => ⟨fun hs => ⟨fun he => ?_, fun rest he => ?_⟩, fun v rest he hs => ?_⟩⟩
  · rw [decode_phaseByte] at hi
    cases hi
    exact ⟨fun he => (step_nil he).trans (State.coreStep_free hs hr),
      fun rest he => (step_cons he).trans (State.coreStep_free hs hr)⟩
  · rw [decode_bytesOfWord] at hi
    cases hi
    rw [step_cons he, State.serve_ctrl { s with events := rest } v, hr]
    exact State.ctrlWrite_free v hs
  · exact (step_nil he).trans (State.coreStep_held hs)
  · exact (step_cons he).trans (State.coreStep_held hs)
  · rw [step_cons he, State.serve_ctrl { s with events := rest } v]
    by_cases hr : s.resetApplied = true
    · exact if_pos hr
    · obtain ⟨hs, hd⟩ := hs.resolve_right hr
      exact (if_neg hr).trans (State.ctrlWrite_stuck v hs hd)

/-- Settles O6: the placed word is the first event, or PHASE with a core step as the first event. -/
theorem placedWordRunsNext : Obligations.PlacedWordRunsNext := by
  intro s nbits w i hi
  unfold decodeTableWord at hi
  unfold State.withFetchWord
  split_ifs at hi ⊢ with hn
  · have hw : (BitVec.ofNat 8 w).setWidth 4 = BitVec.ofNat 4 w :=
      BitVec.setWidth_ofNat_of_le (by decide) w
    change some (decodePhase ((BitVec.ofNat 8 w).setWidth 4)) = some i at hi
    rw [hw] at hi
    cases hi
    exact step_withPhase s _
  · dsimp only at hi
    rw [decode_bytesOfWord] at hi
    cases hi
    exact step_withCtrlWord s _

/-- Settles O46: `hardwareReset` has the reset values, and while reset is applied only host
accesses, which leave the registers, and reset itself are served. -/
theorem resetLeavesSpecValues : Obligations.ResetLeavesSpecValues := by
  refine ⟨fun s rest he => ?_, fun s t hr hs h => State.resetValues_step hr hs h, fun y => ?_⟩
  · let u : State := { s with events := rest }
    obtain ⟨hvalues, hr⟩ := u.hardwareReset_values
    exact ⟨u.hardwareReset, step_cons he, hvalues, hr, rfl, rfl, rfl, rfl, rfl, rfl⟩
  · refine ⟨_, rfl, rfl, List.length_map _, fun s hs => ?_⟩
    obtain ⟨u, -, rfl⟩ := List.mem_map.1 hs
    exact u.hardwareReset_values

/-- Settles O47: after reset no call runs, HV is 0 and the handle is clear. -/
theorem resetMeetsInvariants : Obligations.ResetMeetsInvariants := by
  have hd : State.reset.callState ≠ .decoding := by decide
  have hstatus : State.reset.statusInv :=
    State.endReset_statusInv State.reset.hardwareReset_statusInv
  exact ⟨hstatus, State.handleInv_of_cleared rfl rfl, State.reset_mem_wf, fun h => absurd h hd,
    State.positionInv_of_not_decoding hd, State.residualInv_of_not_decoding hd⟩

/-- Settles O59: both arms are the named stop. -/
theorem unusedPhasesStop : Obligations.UnusedPhasesStop := fun _ _ => ⟨rfl, rfl⟩

end

section
/-! SUPPORT. Memory over a step: which steps write it and which bytes they leave (20 R74, R82). Here
O50 and O56 are settled. -/

namespace Sys2Proof.Machine

variable {s t : State}

/-- No command writes memory (40 R155). -/
theorem State.mem_command {v : Word} (h : s.CommandStep v t) : t.mem = s.mem := by
  cases h <;> rfl

/-- Of the phase steps EMIT alone writes memory (43 R256). -/
theorem State.mem_phaseStep (h : s.PhaseStep t) :
    t.mem = s.mem ∨ (s.phase = 8 ∧ t.mem = (s.storeBytes s.emitAddr s.emitBytes).mem) := by
  cases h with
  | idle _ => exact .inl rfl
  | failed _ h => rcases h with rfl | ⟨e, r, n, -, rfl⟩ <;> exact .inl rfl
  | voxel _ _ h =>
    obtain ⟨r, n, p, c, rfl, -, -, -⟩ := h
    exact .inl rfl
  | emit hp => exact .inr ⟨hp, rfl⟩
  | final _ => exact .inl rfl

/-- What a step can do to memory: nothing, one byte of a host store, or the bytes of an EMIT. -/
theorem mem_step (h : step s = .next t) :
    t.mem = s.mem ∨
      (∃ a b c, s.events.head? = some (.store a b) ∧ t.mem = s.mem.write a.toNat c) ∨
      (s.coreNext ∧ s.phase = 8 ∧ ∃ r : List Event,
        t.mem = (State.storeBytes { s with events := r } s.emitAddr s.emitBytes).mem) := by
  obtain ⟨r, h⟩ := step_next h
  rcases h with ⟨hc, -, -, h⟩ | ⟨-, -, rfl⟩ | ⟨v, -, -, h⟩ | ⟨-, hm⟩ | ⟨-, rfl⟩ | ⟨-, rfl⟩
  · rcases State.mem_phaseStep (phaseStep_of_exec (s := { s with events := r }) h) with
      hm | ⟨hp, hm⟩
    · exact .inl hm
    · exact .inr (.inr ⟨hc, hp, r, hm⟩)
  · exact .inl rfl
  · exact .inl (State.mem_command (s := { s with events := r }) (commandStep_of_exec h))
  · exact hm.imp_right .inl
  · exact .inl rfl
  · exact .inl rfl

/-- A write leaves every other address. -/
theorem Memory.read_write_other {m : Memory} (hm : m.wf = true) {a x : DWord} (b : Byte)
    (h : x ≠ a) : (m.write a.toNat b).read x.toNat = m.read x.toNat := by
  rw [Memory.read_write hm, if_neg fun he => h (BitVec.eq_of_toNat_eq he)]

/-- Bytes written in a row leave every address outside them, whatever is contested. -/
theorem State.storeBytes_read_other {a x : DWord} {bs : List Byte} (hm : s.mem.wf = true)
    (h : ∀ k < bs.length, x ≠ a + BitVec.ofNat 64 k) :
    (s.storeBytes a bs).mem.read x.toNat = s.mem.read x.toNat := by
  induction bs generalizing s a with
  | nil => rfl
  | cons b bs ih =>
    have hhead : x ≠ a := by simpa using h 0 (by simp)
    have htail : ∀ k < bs.length, x ≠ a + 1 + BitVec.ofNat 64 k := fun k hk => by
      rw [← addr_succ]
      exact h (k + 1) (by simpa using hk)
    calc ((s.storeByte a b).storeBytes (a + 1) bs).mem.read x.toNat
      _ = (s.storeByte a b).mem.read x.toNat := ih (s.storeByte_mem_wf a b hm) htail
      _ = s.mem.read x.toNat := by
        rw [State.storeByte_mem, Memory.read_write_other hm _ hhead]

@[simp] theorem State.emitBytes_length (s : State) :
    s.emitBytes.length = elemBytes s.handle.typ := leBytes_length _ _

end Sys2Proof.Machine

open Sys2Proof Sys2Proof.Machine

/-- Settles O50: every byte written, by EMIT or by the host, goes through `Memory.write`. -/
theorem memoryFormKept : Obligations.MemoryFormKept := by
  intro s t hs h
  rcases mem_step h with hm | ⟨a, b, c, -, hm⟩ | ⟨-, -, r, hm⟩ <;> rw [hm]
  · exact hs
  · exact Memory.wf_write a c hs
  · exact State.storeBytes_mem_wf _ _ _ hs

/-- Settles O56, by what a step can do to memory. -/
theorem memoryWrittenOnlyByEmitAndHost : Obligations.MemoryWrittenOnlyByEmitAndHost := by
  intro s t hs h
  rcases mem_step h with hm | ⟨a, b, c, he, hm⟩ | ⟨hc, hp, r, hm⟩
  · exact .inl hm
  · exact .inr (.inl ⟨a, b, he, fun x hx => by rw [hm, Memory.read_write_other hs c hx]⟩)
  · refine .inr (.inr ⟨hc, hp, fun x hx => ?_⟩)
    rw [hm]
    exact State.storeBytes_read_other hs fun k hk => hx k (by simpa using hk)

end

section
/-! SUPPORT. A step with a byte it needs at an address that is no memory: it is not taken, or it is
refused (20 R78, R79). Here O13, O21, O36 and O38 are settled. -/

namespace Sys2Proof.Machine

variable {s : State}

/-- At an address that is not admitted the block is stuck (20 R79). -/
theorem State.commit_stopped_absent (s : State) :
    s.commit (.stopped .absent) = .next { s with stuck := true } := rfl

/-- An access to device registers is refused (20 R78). -/
theorem State.commit_stopped_device (s : State) :
    s.commit (.stopped .device) = .refused .bufferOnDevice := rfl

/-- The context of REF's decision, where it has one (30 R118). -/
theorem ctxRef_of_stepContext {j : Fin 129} (h : stepContext .ref s = some j) :
    ctxRef s.call.plane = some j := h

/-- A decision step that needs a blocked byte (42 R212 to R218). -/
theorem exec_decision_blocked {i : Instr} {j : Fin 129} {m : Nat} {x : Admission}
    (hx : x ≠ .memory) (hj : stepContext i s = some j) (hm : m < s.call.shifts j)
    (h : s.bodyBlocked m x) : exec i s = s.commit (.stopped x) := by
  have hdec : s.decodeBit j = .stopped x := State.decodeBit_blocked hx hm h
  have hstop (f : Bool → State → Res Unit) : s.commit ((s.decodeBit j).bind f) =
      s.commit (.stopped x) := by rw [hdec, Res.bind_stopped]
  cases i with
  | zero | sign | sig =>
    cases hj
    exact hstop _
  | ref =>
    change execRef s = _
    unfold execRef
    rw [ctxRef_of_stepContext hj]
    exact hstop _
  | _ => cases hj

/-- RC_INIT with one of its four bytes blocked (41 R189). -/
theorem exec_rcInit_blocked {m : Nat} {x : Admission} (hx : x ≠ .memory) (hm : m < 4)
    (h : s.bodyBlocked m x) : exec .rcInit s = s.commit (.stopped x) := by
  change s.commit ((fetchCode 4 0 s).bind _) = _
  rw [fetchCode_blocked hx hm h, Res.bind_stopped]

/-- EMIT with a byte of its element blocked (43 R256). -/
theorem exec_emit_blocked {k : Nat} {x : Admission} (hx : x ≠ .memory)
    (hk : k < elemBytes s.handle.typ) (h : s.blockedAt s.emitAddr k x) :
    exec .emit s = s.commit (.stopped x) := by
  change s.commit ((s.portWrite s.emitAddr s.emitBytes).bind _) = _
  rw [State.portWrite_blocked hx (by simpa using hk) h, Res.bind_stopped]

/-- An accepted OPEN with a byte of the header blocked (40 R152). -/
theorem State.openAccepted_blocked {k : Nat} {x : Admission} (hx : x ≠ .memory)
    (hl : Config.hdrLen ≤ s.regs.srcLen.toNat) (hk : k < Config.hdrLen)
    (h : s.blockedAt s.regs.srcBase k x) : s.openAccepted = .stopped x := by
  unfold State.openAccepted
  dsimp only
  rw [if_neg (Nat.not_lt.2 hl),
    State.portReadBytes_blocked (s := { s with vi := 0 }) hx hk h, Res.bind_stopped]

/-- An OPEN outside a call with a byte of the header blocked (40 R152). -/
theorem exec_openStream_blocked {k : Nat} {x : Admission} (hx : x ≠ .memory)
    (hd : s.callState ≠ .decoding) (hl : Config.hdrLen ≤ s.regs.srcLen.toNat)
    (hk : k < Config.hdrLen) (h : s.blockedAt s.regs.srcBase k x) :
    exec .openStream s = s.commit (.stopped x) := by
  have hbusy : ¬ s.busy = true := by simpa [State.busy] using hd
  have hopen : s.accept.openAccepted = .stopped x := State.openAccepted_blocked hx hl hk h
  change execOpen s = _
  unfold execOpen State.command
  rw [if_neg hbusy]
  dsimp only
  rw [hopen]
  cases x <;> rfl

/-- Byte `k` of element VI, by its offset in the destination (20 R71, R74). -/
theorem State.emitAddr_add (s : State) (k : Nat) :
    s.emitAddr + BitVec.ofNat 64 k =
      s.cDstBase + BitVec.ofNat 64 (s.vi.toNat * elemBytes s.handle.typ + k) := by
  rw [BitVec.ofNat_add, ← BitVec.add_assoc]
  rfl

/-- The block's own register window is device registers to it (10 R20, 20 R78). -/
theorem State.admission_inWindow {a : DWord} (h : s.inWindow a = true) :
    s.admission a = .device := by
  simp [State.admission, h]

end Sys2Proof.Machine

open Sys2Proof Sys2Proof.Machine

/-- Settles O13: the header read stops, and OPEN with it. -/
theorem openNotAdmittedIsStuck : Obligations.OpenNotAdmittedIsStuck := by
  intro s k hd hl hk hmem habsent
  rw [exec_openStream_blocked (by decide) hd hl hk ⟨hmem, habsent⟩, State.commit_stopped_absent]

/-- Settles O21: a decision or RC_INIT stops at the byte. -/
theorem decisionNotAdmittedIsStuck : Obligations.DecisionNotAdmittedIsStuck := by
  intro s m hlen hblocked
  refine ⟨fun i j hj _ hm => ?_, fun hm => ?_⟩
  · rw [exec_decision_blocked (by decide) hj hm ⟨hlen, hblocked⟩, State.commit_stopped_absent]
  · rw [exec_rcInit_blocked (by decide) hm ⟨hlen, hblocked⟩, State.commit_stopped_absent]

/-- Settles O36: a write is all or nothing. -/
theorem emitNotAdmittedIsStuck : Obligations.EmitNotAdmittedIsStuck := by
  intro s k hk hmem habsent
  simp only [← State.emitAddr_add] at hmem habsent
  rw [exec_emit_blocked (by decide) hk ⟨hmem, habsent⟩, State.commit_stopped_absent]

/-- Settles O38: every access to device registers stops its step with the refusal, and every
register window is device registers. -/
theorem bufferOnDeviceRefused : Obligations.BufferOnDeviceRefused := by
  refine ⟨fun s m => ⟨fun hlen hblocked => ⟨fun i j hj _ hm => ?_, fun hm => ?_⟩,
    fun hm hblocked => ?_, fun hd hl hm hblocked => ?_⟩,
    fun _ _ h => State.admission_inWindow h,
    fun _ _ _ s _ _ hne hp h => System.view_admission s hne hp h⟩
  · rw [exec_decision_blocked (by decide) hj hm ⟨hlen, hblocked⟩, State.commit_stopped_device]
  · rw [exec_rcInit_blocked (by decide) hm ⟨hlen, hblocked⟩, State.commit_stopped_device]
  · rw [exec_emit_blocked (by decide) hm hblocked, State.commit_stopped_device]
  · rw [exec_openStream_blocked (by decide) hd hl hm hblocked, State.commit_stopped_device]

end

section
/-! SUPPORT. Bytes that other agents race on or share (20 R77, R85 to R87): what the block and the
host read and write there, and how long a race lasts. Here O37 and O39 are settled. -/

namespace Sys2Proof.Machine

variable {s t : State}

/-! ## What is read -/

/-- `v` is a byte another agent may see of a call's destination: memory's, one the call has
overwritten, or one its next step writes (20 R77, R86). -/
abbrev RunningCall.mayShow (c : RunningCall) (m : Memory) (a : DWord) (v : Byte) : Prop :=
  v = m.read a.toNat ∨ (a, v) ∈ c.stale ∨ (a, v) ∈ c.pending

/-- A read in the destination of one running call, at an address nobody raced on. -/
theorem sharedRead_one {l : List RunningCall} {c : RunningCall} {a : DWord} (m : Memory) (n : Nat)
    (hl : l.filter (fun c => regionHas c.dest a) = [c]) (hr : c.raceOn a = false) :
    ∃ v : Byte, c.mayShow m a v ∧ sharedRead l m a n = some v := by
  refine ⟨_, c.pick_cases m a n, ?_⟩
  unfold sharedRead
  rw [hl]
  simp [hr]

/-- The next byte of the body lies in the stream (20 R71). -/
theorem State.inStream_fetch (h : s.rptr.toNat < s.handle.nbytes.toNat) :
    s.inStream (s.handle.srcBase + s.rptr) = true := by
  unfold State.inStream inRange
  rw [add_sub_cancel_left]
  exact decide_eq_true h

/-- A fetch of a byte that other agents share (41 R183). -/
theorem State.fetchByte_shared {v : Byte} (h : s.rptr.toNat < s.handle.nbytes.toNat)
    (ha : s.admission (s.handle.srcBase + s.rptr) = .memory)
    (hv : s.portByte (s.handle.srcBase + s.rptr) = some v) :
    s.fetchByte = .ok v { s with rptr := s.rptr + 1, free := s.free + 1 } := by
  have hread := State.portRead_eq_ok.2 ⟨ha, .inr ⟨hv, rfl⟩⟩
  unfold State.fetchByte
  rw [if_neg (Nat.not_le.2 h), hread, Res.bind_ok]

/-- During a call a raced byte reads as any value to the block (20 R85, R87). -/
theorem State.portByte_raced {a : DWord} (hd : s.callState = .decoding) (hr : s.raceOn a = true) :
    s.portByte a = some (Config.freeByte s.free) := by
  unfold State.portByte
  rw [hr, State.busy_eq_decide, hd]
  rfl

/-- Where nobody raced on the call's own byte, a read sees the other running calls only. -/
theorem State.portByte_unraced {a : DWord} (hr : s.raceOn a = false) :
    s.portByte a = sharedRead s.foreignCalls s.mem a s.free := by
  simp [State.portByte, hr]

/-- A host load of a byte that running calls share (20 R82, R86). -/
theorem State.hostLoad_shared {a : DWord} {v : Byte} (ha : s.admission a = .memory)
    (hv : s.sharedByte a = some v) :
    s.hostLoad a = .next { s with rdata := v.setWidth 32, free := s.free + 1 } := by
  simp [State.hostLoad, ha, hv]

/-- A host load of a byte in no running call's destination (20 R82). -/
theorem State.hostLoad_plain {a : DWord} (ha : s.admission a = .memory)
    (hv : s.sharedByte a = none) :
    s.hostLoad a = .next { s with rdata := (s.mem.read a.toNat).setWidth 32 } := by
  simp [State.hostLoad, ha, hv]

/-! ## What is written -/

/-- The block's store to a contested address leaves a free value (20 R86, R87). -/
theorem State.storeByte_contested {a : DWord} (b : Byte) (h : s.contested a = true) :
    s.storeByte a b = { s with
      stale := noteStale s.stale a (s.mem.read a.toNat)
      mem := s.mem.write a.toNat (Config.freeByte s.free)
      free := s.free + 1 } := if_pos h

/-- A host store in closed form (20 R82, R85, R86). -/
theorem State.hostStore_memory {a : DWord} (b : Byte) (ha : s.admission a = .memory) :
    s.hostStore a b = .next { s with
      raced := if s.callState = .decoding ∧ (s.inStream a = true ∨ s.inDest a = true) then
        addRaced s.raced a else s.raced
      mem := s.mem.write a.toNat (if s.ownedByCall a = true then Config.freeByte s.free else b)
      free := if s.ownedByCall a = true then s.free + 1 else s.free } := by
  have hmark : s.markRaced a = { s with
      raced := if s.callState = .decoding ∧ (s.inStream a = true ∨ s.inDest a = true) then
        addRaced s.raced a else s.raced } := by
    simp only [State.markRaced, State.busy_eq_decide, Bool.and_eq_true, Bool.or_eq_true,
      decide_eq_true_eq]
    split <;> rfl
  unfold State.hostStore
  rw [ha]
  dsimp only
  rw [hmark]
  split <;> rfl

/-- A byte belongs to no running call outside this one's destination and the others' (20 R86). -/
theorem State.ownedByCall_eq_false {a : DWord}
    (h : s.callState ≠ .decoding ∨ s.inDest a = false) (hf : s.inForeign a = false) :
    s.ownedByCall a = false := by
  unfold State.ownedByCall
  rw [State.busy_eq_decide, hf]
  rcases h with h | h <;> simp [h]

/-! ## How long a race lasts -/

/-- The address just added is among the ones raced on. -/
theorem mem_addRaced_self (l : List DWord) (a : DWord) : a ∈ addRaced l a := by
  unfold addRaced
  split
  · rename_i h
    exact List.contains_iff_mem.1 h
  · exact List.mem_cons_self

theorem State.raceOn_of_mem {a : DWord} (h : a ∈ s.raced) : s.raceOn a = true := by
  simp [State.raceOn, h]

/-- An address the host wrote is contested while the call runs (20 R85, R86). -/
theorem State.contested_of_raced {a : DWord} (hd : s.callState = .decoding) (h : a ∈ s.raced) :
    s.contested a = true := by
  simp [State.contested, State.busy_eq_decide, hd, State.raceOn_of_mem h]

/-- No step of a call forgets a race. -/
theorem State.raced_phaseStep (h : s.PhaseStep t) : t.raced = s.raced := by
  cases h with
  | idle _ => rfl
  | failed _ h => rcases h with rfl | ⟨e, r, n, -, rfl⟩ <;> rfl
  | voxel _ _ h =>
    obtain ⟨r, n, p, c, rfl, -, -, -⟩ := h
    rfl
  | emit _ =>
    rw [State.emitAdvance_raced, State.storeBytes_frame s s.emitAddr s.emitBytes]
  | final _ => rfl

/-- No command during a call forgets a race. -/
theorem State.raced_command {v : Word} (hd : s.callState = .decoding) (h : s.CommandStep v t) :
    t.raced = s.raced := by
  cases h with
  | nop | ignored => rfl
  | openStuck hn | openFailed hn | opened hn | rejected hn | started hn => exact absurd hd hn

/-- While a call runs an address raced on stays so. -/
theorem raced_step {a : DWord} (ha : a ∈ s.raced) (hd : s.callState = .decoding)
    (h : step s = .next t) (ht : t.callState = .decoding) : a ∈ t.raced := by
  cases stepCase_of_step h with
  | phase r _ h =>
    rwa [State.raced_phaseStep (phaseStep_of_exec (s := { s with events := r }) h)]
  | command r v _ _ h => rwa [State.raced_command (s := { s with events := r }) hd h]
  | host hf _ =>
    obtain ⟨-, -, hraced⟩ := hf
    exact hraced a ha
  | reset r _ => cases ht
  | release r _ => exact ha

end Sys2Proof.Machine

open Sys2Proof Sys2Proof.Machine

/-- Settles O37: a raced byte, or one of the call's own stream in its own destination, is a free
value; where the call's own byte is not raced on, the one other call decides. -/
theorem contestedAccessIsFree : Obligations.ContestedAccessIsFree := by
  intro s p
  refine ⟨fun hlen ha => ⟨fun hd hp m => ?_, fun c hp hdest hone hr => ?_⟩,
    fun a b h => State.storeByte_contested b h⟩
  · have hrace : s.raceOn p = true := by
      rcases hp with hp | hp
      · exact State.raceOn_of_mem hp
      · simp [State.raceOn, hp, p, State.inStream_fetch hlen]
    exact State.fetchByte_shared (s := { s with mem := m }) hlen ha
      (State.portByte_raced (s := { s with mem := m }) hd hrace)
  · have hrace : s.raceOn p = false := by simp [State.raceOn, hp, hdest]
    obtain ⟨v, hv, hread⟩ := sharedRead_one s.mem s.free hone hr
    exact ⟨v, hv, State.fetchByte_shared hlen ha ((State.portByte_unraced hrace).trans hread)⟩

/-- Settles O39: the closed form of a store, the byte a load shares, and that no step of a call
forgets a race. -/
theorem hostStoreRacesOnlyDuringCall : Obligations.HostStoreRacesOnlyDuringCall := by
  refine ⟨fun s a b ha => ⟨State.hostStore_memory b ha, fun hd hin => ?_, fun hout hf => ?_,
    fun hout => State.hostLoad_plain ha (State.sharedByte_none hout), fun c hone hr => ?_⟩,
    fun s t a hraced hd h ht => ?_⟩
  · have hstore := State.hostStore_memory b ha
    have hrace : s.callState = .decoding ∧ (s.inStream a = true ∨ s.inDest a = true) := ⟨hd, hin⟩
    rw [if_pos hrace] at hstore
    have hmem := mem_addRaced_self s.raced a
    exact ⟨_, hstore, State.contested_of_raced hd hmem, hmem⟩
  · have howned := State.ownedByCall_eq_false (hout.imp_right And.right) hf
    have hrace : ¬ (s.callState = .decoding ∧ (s.inStream a = true ∨ s.inDest a = true)) := by
      rcases hout with hd | ⟨hs, hdest⟩
      · exact fun ⟨hdec, _⟩ => hd hdec
      · simp [hs, hdest]
    rw [State.hostStore_memory b ha, if_neg hrace, howned]
    rfl
  · obtain ⟨v, hv, hread⟩ := sharedRead_one s.mem s.free hone hr
    exact ⟨v, hv, State.hostLoad_shared ha hread⟩
  · have hmem := raced_step hraced hd h ht
    exact ⟨hmem, State.contested_of_raced ht hmem⟩

end

section
/-! SUPPORT. The decoder and the code of an instruction are inverse to each other (30 R110, R120).
Here O1, O2, O3 and O4 are settled. -/

namespace Sys2Proof

/-! ## The rows of the opcode table by their codes -/

/-- Every CTRL code selects a CTRL row that has it (30 R110). -/
theorem decodeCmd_row : ∀ c : BitVec 4,
    (decodeCmd c).format = .ctrl ∧ (decodeCmd c).wf = true ∧ (decodeCmd c).code = c := by
  decide

theorem decodeCmd_reservedLow : ∀ c : BitVec 4,
    (Instr.reservedLow c).wf = true → decodeCmd c = .reservedLow c := by
  decide

theorem decodeCmd_reservedHigh : ∀ c : BitVec 4,
    (Instr.reservedHigh c).wf = true → decodeCmd c = .reservedHigh c := by
  decide

/-- `decodeCmd` inverts `Instr.code` on the CTRL rows of the table (30 R110). -/
theorem decodeCmd_eq_iff {c : BitVec 4} {i : Instr} :
    decodeCmd c = i ↔ i.format = .ctrl ∧ i.wf = true ∧ i.code = c := by
  constructor
  · rintro rfl
    exact decodeCmd_row c
  · rintro ⟨hf, hw, rfl⟩
    cases i with
    | reservedLow c => exact decodeCmd_reservedLow c hw
    | reservedHigh c => exact decodeCmd_reservedHigh c hw
    | nop | openStream | decompress | dekompress => rfl
    | _ => cases hf

/-- Every PHASE value selects a PHASE row that has it (10 R40, 30 R120). -/
theorem decodePhase_row : ∀ p : BitVec 4,
    (decodePhase p).format = .phase ∧ (decodePhase p).wf = true ∧ (decodePhase p).code = p := by
  decide

theorem decodePhase_unusedLow : ∀ p : BitVec 4,
    (Instr.unusedLow p).wf = true → decodePhase p = .unusedLow p := by
  decide

theorem decodePhase_unusedHigh : ∀ p : BitVec 4,
    (Instr.unusedHigh p).wf = true → decodePhase p = .unusedHigh p := by
  decide

/-- `decodePhase` inverts `Instr.code` on the PHASE rows of the table (10 R40, 30 R120). -/
theorem decodePhase_eq_iff {p : BitVec 4} {i : Instr} :
    decodePhase p = i ↔ i.format = .phase ∧ i.wf = true ∧ i.code = p := by
  constructor
  · rintro rfl
    exact decodePhase_row p
  · rintro ⟨hf, hw, rfl⟩
    cases i with
    | unusedLow p => exact decodePhase_unusedLow p hw
    | unusedHigh p => exact decodePhase_unusedHigh p hw
    | idle | rcInit | predict | zero | sign | sig | ref | recon | emit | final => rfl
    | _ => cases hf

/-- A CTRL code is that of a row exactly when it selects the row. -/
theorem code_eq_iff_decodeCmd {c : BitVec 4} (i : Instr) (hf : i.format = .ctrl)
    (hw : i.wf = true) : c = i.code ↔ decodeCmd c = i := by
  rw [decodeCmd_eq_iff]
  exact ⟨fun h => ⟨hf, hw, h.symm⟩, fun ⟨_, _, h⟩ => h.symm⟩

/-- A PHASE value is the code of a row exactly when it selects the row. -/
theorem code_eq_iff_decodePhase {p : BitVec 4} (i : Instr) (hf : i.format = .phase)
    (hw : i.wf = true) : p = i.code ↔ decodePhase p = i := by
  rw [decodePhase_eq_iff]
  exact ⟨fun h => ⟨hf, hw, h.symm⟩, fun ⟨_, _, h⟩ => h.symm⟩

/-! ## The field of a CTRL word (30 R110) -/

/-- A mask inside bits 3:0 of a word is a mask of its low four bits. -/
theorem and_setWidth (v : Word) (m : BitVec 4) :
    v &&& m.setWidth 32 = (v.setWidth 4 &&& m).setWidth 32 := by
  ext i hi
  have hm : m.getLsbD i = true → i < 4 := BitVec.lt_of_getLsbD
  have hv : v.getLsbD i = v[i] := BitVec.getLsbD_eq_getElem hi
  cases h : m.getLsbD i <;> simp_all

theorem and_setWidth_eq_iff (v : Word) (m k : BitVec 4) :
    v &&& m.setWidth 32 = k.setWidth 32 ↔ v.setWidth 4 &&& m = k := by
  rw [and_setWidth]
  refine ⟨fun h => ?_, congrArg _⟩
  have h4 := congrArg (BitVec.setWidth 4) h
  rwa [BitVec.setWidth_setWidth_of_le _ (by decide), BitVec.setWidth_setWidth_of_le _ (by decide),
    BitVec.setWidth_eq, BitVec.setWidth_eq] at h4

/-- The code of a command, placed in a CTRL word, is read back from it. -/
theorem decodeCtrl_setWidth (c : BitVec 4) : decodeCtrl (c.setWidth 32) = decodeCmd c := by
  unfold decodeCtrl
  rw [BitVec.setWidth_setWidth_of_le _ (by decide), BitVec.setWidth_eq]

/-- Bits 31:4 of a CTRL word are ignored. -/
theorem decodeCtrl_and (v : Word) : decodeCtrl (v &&& 0xF) = decodeCtrl v := by
  have h : v &&& 0xF = (v.setWidth 4 &&& 0xF).setWidth 32 := and_setWidth v 0xF
  have hf : v.setWidth 4 &&& 0xF = v.setWidth 4 := BitVec.and_allOnes
  rw [h, hf, decodeCtrl_setWidth]
  rfl

/-- Bits 3:0 of a CTRL word hold the code of a row exactly when the word selects the row. -/
theorem decodeCtrl_eq_iff (v : Word) (i : Instr) (hf : i.format = .ctrl) (hw : i.wf = true) :
    v &&& 0xF = i.code.setWidth 32 ↔ decodeCtrl v = i := by
  have hmask : v &&& 0xF = i.code.setWidth 32 ↔ v.setWidth 4 &&& 0xF = i.code :=
    and_setWidth_eq_iff v 0xF i.code
  have hall : v.setWidth 4 &&& 0xF = v.setWidth 4 := BitVec.and_allOnes
  rw [hmask, hall]
  exact code_eq_iff_decodeCmd i hf hw

/-- The codes 4 to 7 are those whose bits 3:2 are `01`. -/
theorem decodeCmd_reservedLow_iff : ∀ c : BitVec 4,
    c &&& 0xC = 0x4 ↔ ∃ d, decodeCmd c = .reservedLow d := by
  decide

/-- The codes 8 to 15 are those whose bit 3 is 1. -/
theorem decodeCmd_reservedHigh_iff : ∀ c : BitVec 4,
    c &&& 0x8 = 0x8 ↔ ∃ d, decodeCmd c = .reservedHigh d := by
  decide

end Sys2Proof

open Sys2Proof

/-- Settles O1, by the format of the instruction: its bytes hold its code, which `decodeCmd` or
`decodePhase` inverts. -/
theorem decodeOfEncodeIsIdentity : Obligations.DecodeOfEncodeIsIdentity := by
  intro i hw
  unfold encode
  cases hf : i.format with
  | ctrl =>
    have hrow : decodeCmd i.code = i := decodeCmd_eq_iff.2 ⟨hf, hw, rfl⟩
    dsimp only
    rw [Machine.decode_bytesOfWord, decodeCtrl_setWidth, hrow]
  | phase =>
    have hrow : decodePhase i.code = i := decodePhase_eq_iff.2 ⟨hf, hw, rfl⟩
    dsimp only
    rw [Machine.decode_phaseByte, hrow]

/-- Settles O2: a row is decoded from the low four bits, and each mask is a mask of these. -/
theorem ctrlWordSelectsTableRow : Obligations.CtrlWordSelectsTableRow := by
  intro v
  obtain ⟨-, hwf, hcode⟩ := decodeCmd_row (v.setWidth 4)
  exact ⟨Machine.decode_bytesOfWord v, hwf, hcode, (decodeCtrl_and v).symm,
    decodeCtrl_eq_iff v .nop rfl rfl, decodeCtrl_eq_iff v .openStream rfl rfl,
    decodeCtrl_eq_iff v .decompress rfl rfl, decodeCtrl_eq_iff v .dekompress rfl rfl,
    (and_setWidth_eq_iff v 0xC 0x4).trans (decodeCmd_reservedLow_iff _),
    (and_setWidth_eq_iff v 0x8 0x8).trans (decodeCmd_reservedHigh_iff _)⟩

/-- Settles O3: a row with one code is selected by it, and the unused rows by the bits their ranges
share. -/
theorem phaseValueSelectsTableRow : Obligations.PhaseValueSelectsTableRow := by
  intro p
  obtain ⟨-, hwf, hcode⟩ := decodePhase_row p
  have hrow (i : Instr) := code_eq_iff_decodePhase (p := p) i
  have hlow : ∀ q : BitVec 4, q &&& 0xE = 0xA ↔ decodePhase q = .unusedLow q := by decide
  have hhigh : ∀ q : BitVec 4, q &&& 0xC = 0xC ↔ decodePhase q = .unusedHigh q := by decide
  exact ⟨hwf, hcode, hrow .idle rfl rfl, hrow .rcInit rfl rfl, hrow .predict rfl rfl,
    hrow .zero rfl rfl, hrow .sign rfl rfl, hrow .sig rfl rfl, hrow .ref rfl rfl,
    hrow .recon rfl rfl, hrow .emit rfl rfl, hrow .final rfl rfl, hlow p, hhigh p⟩

/-- Settles O4: the decoder runs on the bytes of each sample. -/
theorem sampleWordsDecode : Obligations.SampleWordsDecode :=
  ⟨rfl, rfl, rfl, rfl, rfl, rfl, rfl, rfl⟩

end

section
/-! SUPPORT. A decision whose bytes are plain memory, in closed form, and the residual steps that make
it (41 R184 to R187, 42 R212 to R218). Here O25, O26, O27, O28 and O60 are settled. -/

namespace Sys2Proof.Machine

variable {s : State} {r : CallRegs} {j : Fin Config.nctx}

/-! ## The sub-interval of a decision (41 R184, R187) -/

/-- A legal coder leaves each decision at least `2^24 / 8192` of the interval. -/
theorem CallRegs.le_rangeAfter (h : r.coderOk j) : 2 ^ 11 ≤ r.rangeAfter j := by
  obtain ⟨⟨h0, h1, hsum⟩, hrange, -⟩ := h
  simp only [Config.cntLimit, Config.rcBot] at hsum hrange
  let q := r.range.toNat / (r.c0[j].toNat + r.c1[j].toNat)
  have hq : 2 ^ 11 ≤ q := (Nat.le_div_iff_mul_le (by omega)).2 (by omega)
  have hwhole : q * r.c0[j].toNat + q * r.c1[j].toNat ≤ r.range.toNat := by
    rw [← Nat.mul_add]
    exact Nat.div_mul_le_self _ _
  have hq0 : q ≤ q * r.c0[j].toNat := Nat.le_mul_of_pos_right q h0
  have hq1 : q ≤ q * r.c1[j].toNat := Nat.le_mul_of_pos_right q h1
  change 2 ^ 11 ≤ if r.bit j then r.range.toNat - q * r.c0[j].toNat else q * r.c0[j].toNat
  split <;> omega

/-- A sub-interval is no wider than the interval. -/
theorem CallRegs.rangeAfter_le (r : CallRegs) (j : Fin Config.nctx) :
    r.rangeAfter j ≤ r.range.toNat := by
  have hsplit : r.split j ≤ r.range.toNat :=
    (Nat.mul_le_mul_left _ (Nat.le_add_right _ _)).trans (Nat.div_mul_le_self _ _)
  change (if r.bit j then r.range.toNat - r.split j else r.split j) ≤ _
  split <;> omega

/-- The shifts of a range bring it back to `2^24` and no further, each from below `2^24`
(41 R186, R187). -/
theorem shiftsFor_spec {n : Nat} (hlo : 2 ^ 8 ≤ n) (hhi : n < 2 ^ 32) :
    2 ^ 24 ≤ n * 256 ^ shiftsFor n ∧ n * 256 ^ shiftsFor n < 2 ^ 32 ∧
      ∀ k < shiftsFor n, n * 256 ^ k < 2 ^ 24 := by
  unfold shiftsFor
  split_ifs with h24 h16
  · exact ⟨by omega, by omega, fun k hk => absurd hk (by omega)⟩
  · refine ⟨by omega, by omega, fun k hk => ?_⟩
    obtain rfl : k = 0 := by omega
    omega
  · refine ⟨by omega, by omega, fun k hk => ?_⟩
    obtain rfl | rfl : k = 0 ∨ k = 1 := by omega
    · omega
    · omega

/-- The bytes a legal decision fetches bring its sub-interval back to `2^24` and no further. -/
theorem CallRegs.shifts_spec (h : r.coderOk j) :
    2 ^ 24 ≤ r.rangeAfter j * 256 ^ r.shifts j ∧ r.rangeAfter j * 256 ^ r.shifts j < 2 ^ 32 ∧
      ∀ k < r.shifts j, r.rangeAfter j * 256 ^ k < 2 ^ 24 :=
  shiftsFor_spec (Nat.le_trans (by decide) (CallRegs.le_rangeAfter h))
    ((r.rangeAfter_le j).trans_lt r.range.isLt)

theorem CallRegs.codeAfter_le (r : CallRegs) (j : Fin Config.nctx) :
    r.codeAfter j ≤ r.code.toNat := by
  unfold CallRegs.codeAfter
  split
  · exact Nat.sub_le _ _
  · exact le_rfl

/-- The sub-interval taken and the context updated, before any renormalisation. -/
abbrev CallRegs.narrowed (r : CallRegs) (j : Fin Config.nctx) : CallRegs :=
  { r with
    range := BitVec.ofNat 32 (r.rangeAfter j)
    code := BitVec.ofNat 32 (r.codeAfter j)
    c0 := r.c0.set j.val (countersAfter (r.bit j) r.c0[j] r.c1[j]).1 j.isLt
    c1 := r.c1.set j.val (countersAfter (r.bit j) r.c0[j] r.c1[j]).2 j.isLt }

theorem CallRegs.update_narrow (r : CallRegs) (j : Fin Config.nctx) :
    (r.narrow j (r.decision j)).update j (r.decision j) = r.narrowed j := by
  change (r.narrow j (r.bit j)).update j (r.bit j) = _
  unfold CallRegs.narrowed CallRegs.rangeAfter CallRegs.codeAfter
  cases r.bit j
  · have hcode : BitVec.ofNat 32 r.code.toNat = r.code := by simp
    simp only [Bool.false_eq_true, if_false, hcode]
    rfl
  · rfl

theorem CallRegs.narrowed_range (r : CallRegs) (j : Fin Config.nctx) :
    (r.narrowed j).range.toNat = r.rangeAfter j :=
  Nat.mod_eq_of_lt ((r.rangeAfter_le j).trans_lt r.range.isLt)

theorem CallRegs.narrowed_code (r : CallRegs) (j : Fin Config.nctx) :
    (r.narrowed j).code.toNat = r.codeAfter j :=
  Nat.mod_eq_of_lt ((r.codeAfter_le j).trans_lt r.code.isLt)

/-! ## The decision (41 R184 to R186) -/

/-- Renormalisation ends at a range of `2^24` or more. -/
theorem renormLoop_wide (n : Nat) (h : Config.rcBot ≤ s.call.range.toNat) :
    renormLoop n s = .ok () s := by
  cases n with
  | zero => exact if_pos h
  | succ n => exact if_pos h

/-- A legal decision leaves the range at `2^24` or more (41 R187). -/
theorem State.afterDecision_wide (h : s.call.coderOk j) :
    Config.rcBot ≤ (s.afterDecision j).call.range.toNat := by
  obtain ⟨hwide, hfits, -⟩ := CallRegs.shifts_spec h
  exact hwide.trans_eq (Nat.mod_eq_of_lt hfits).symm

/-- The renormalisation of a decision fetches the bytes of the closed form. -/
theorem State.renormLoop_afterDecision (h : s.decisionReady j) :
    renormLoop (s.handle.nbytes.toNat - s.rptr.toNat) { s with call := s.call.narrowed j } =
      renormLoop (s.handle.nbytes.toNat - s.rptr.toNat - s.call.shifts j) (s.afterDecision j) := by
  obtain ⟨hcoder, hbody⟩ := h
  obtain ⟨-, -, hsmall⟩ := CallRegs.shifts_spec hcoder
  have hbytes := hbody.1
  have hloop := renormLoop_plain (s.call.shifts j) { s with call := s.call.narrowed j }
    (s.handle.nbytes.toNat - s.rptr.toNat) (by omega) hbody
    (by rw [CallRegs.narrowed_range]; exact hsmall)
  rw [CallRegs.narrowed_range, CallRegs.narrowed_code, State.bodyNat_call] at hloop
  exact hloop

/-- `DecodeBit(j)` whose bytes are there and plain. -/
theorem State.decodeBit_ready (h : s.decisionReady j) :
    s.decodeBit j = .ok (s.call.bit j) (s.afterDecision j) := by
  have hwide := State.afterDecision_wide h.1
  unfold State.decodeBit State.renormalize
  dsimp only
  rw [CallRegs.update_narrow, State.renormLoop_afterDecision h, renormLoop_wide _ hwide]
  rfl

/-- A step whose decision completes goes on from the closed form. -/
theorem State.commit_decision (h : s.decisionReady j) (f : Bool → State → Res Unit) :
    s.commit ((s.decodeBit j).bind f) = s.commit (f (s.call.bit j) (s.afterDecision j)) := by
  rw [State.decodeBit_ready h, Res.bind_ok]

theorem State.commit_ok {x : Res Unit} {t : State} (h : x = .ok () t) : s.commit x = .next t := by
  rw [h]
  rfl

/-- A step that raises an error (60 R285). -/
theorem State.commit_raised {x : Res Unit} {t : State} {e : Cause} (h : x = .raised e t) :
    ∃ u, s.commit x = .next u ∧ s.failedAs t.rptr e.err e.sub u := by
  rw [h]
  exact ⟨_, rfl, rfl⟩

/-- A step ends in no named stop. -/
theorem State.commit_ne_fault (s : State) (x : Res Unit) (r : Fault) : s.commit x ≠ .fault r := by
  cases x <;> simp [State.commit]

/-! ## The contexts of SIG and REF (30 R118) -/

theorem ctxSig_eq {k : BitVec 6} {j : Fin 129} (h : j.val = 2 + k.toNat) : ctxSig k = j :=
  Fin.ext h.symm

theorem ctxRef_eq_some {k : BitVec 6} {j : Fin 129} (h : j.val = 66 + k.toNat) :
    ctxRef k = some j := by
  have hk : k.toNat ≤ 62 := by omega
  unfold ctxRef
  rw [dif_pos hk]
  exact congrArg some (Fin.ext h.symm)

/-- Plane 63 alone has no context. -/
theorem ctxRef_eq_none {k : BitVec 6} : ctxRef k = none ↔ k = 63 := by
  have hlt := k.isLt
  have h63 : k = 63 ↔ k.toNat = 63 := BitVec.toNat_inj.symm
  rw [h63]
  unfold ctxRef
  by_cases hk : k.toNat ≤ 62
  · rw [dif_pos hk]
    exact iff_of_false (Option.some_ne_none _) (by omega)
  · rw [dif_neg hk]
    exact iff_of_true rfl (by omega)

/-! ## The end of SIG and REF (42 R216, R218) -/

/-- A magnitude written at plane `k`, and RECON or one plane down. -/
theorem writeMag_nextPlane {d : State} {k : BitVec 6} (m : DWord) (hd : d.call.plane = k) :
    (if k = 0 then Res.ok () { d with call := { d.call with mag := m }, phase := 7 }
      else .ok () { d with call := { d.call with mag := m, plane := k - 1 }, phase := 6 }) =
    Res.ok () { d with
      phase := if k = 0 then 7 else 6
      call := { d.call with mag := m, plane := if k = 0 then 0 else k - 1 } } := by
  by_cases hk : k = 0
  · have hplane : 0 = d.call.plane := (hd.trans hk).symm
    rw [if_pos hk, if_pos hk, if_pos hk, hplane]
  · simp only [if_neg hk]

/-- The magnitude with bit `k` as decoded, as a number. -/
theorem refined_toNat (m : DWord) (k : BitVec 6) (b : Bool) :
    (m ||| (if b = true then BitVec.ofNat 64 (2 ^ k.toNat) else 0)).toNat =
      m.toNat ||| (if b = true then 2 ^ k.toNat else 0) := by
  have hpow : 2 ^ k.toNat < 2 ^ 64 := Nat.pow_lt_pow_right (by decide) k.isLt
  cases b
  · rfl
  · exact (BitVec.toNat_or ..).trans (congrArg (m.toNat ||| ·) (Nat.mod_eq_of_lt hpow))

end Sys2Proof.Machine

open Sys2Proof Sys2Proof.Machine

/-- Settles O25, by the decision in context 0. -/
theorem zeroStepResult : Obligations.ZeroStepResult := by
  intro s h
  have hstep : exec .zero s = _ := State.commit_decision h _
  rw [hstep]
  cases s.call.bit 0 <;> rfl

/-- Settles O26, by whether the bound of the decoded sign is 0. -/
theorem signStepResult : Obligations.SignStepResult := by
  intro s h _ _ _ d b bnd
  have hstep : exec .sign s = _ := State.commit_decision h _
  have hsgn : BitVec.ofBool b = if b = true then 1 else 0 := by cases b <;> rfl
  rw [hstep, ← hsgn]
  exact ⟨fun hb => State.commit_ok (if_neg hb), fun hb => State.commit_raised (if_pos hb)⟩

/-- Settles O27, by the decision in context `2 + k`, then by the bound or by the plane. -/
theorem sigStepResult : Obligations.SigStepResult := by
  intro s j hj h k d b
  obtain rfl := ctxSig_eq hj
  have hstep : exec .sig s = _ := State.commit_decision h _
  rw [hstep]
  refine ⟨fun hb hle => State.commit_ok ?_,
    fun hb hlt => State.commit_raised (t := d) (e := .magOver) ?_,
    fun hb hk => State.commit_ok ?_, fun hb hk => State.commit_raised (t := d) (e := .magZero) ?_⟩
  · exact (if_pos hb).trans ((if_neg hle.not_gt).trans (writeMag_nextPlane _ rfl))
  · exact (if_pos hb).trans (if_pos hlt)
  · exact (if_neg (Bool.eq_false_iff.1 hb)).trans (if_neg hk)
  · exact (if_neg (Bool.eq_false_iff.1 hb)).trans (if_pos hk)

/-- Settles O28, by the decision in context `66 + k`, then by the bound. -/
theorem refStepResult : Obligations.RefStepResult := by
  intro s j hj h k d m2
  have hm2 : m2.toNat = _ := refined_toNat (s.afterDecision j).call.mag k (s.call.bit j)
  have hstep : exec .ref s = s.commit (s.refIn j) := by
    change execRef s = _
    unfold execRef
    rw [ctxRef_eq_some hj]
  have hdec : s.commit (s.refIn j) = _ := State.commit_decision h _
  rw [hstep, hdec]
  dsimp only
  rw [← hm2, BitVec.ofNat_toNat, BitVec.setWidth_eq]
  exact ⟨fun hle => State.commit_ok ((if_neg hle.not_gt).trans (writeMag_nextPlane m2 rfl)),
    fun hlt => State.commit_raised (t := d) (e := .magOver) (if_pos hlt)⟩

/-- Settles O60: a step that makes its decision ends in no stop, and only plane 63 has no context. -/
theorem refStopsOnlyAtPlane63 : Obligations.RefStopsOnlyAtPlane63 := by
  intro s
  rw [← ctxRef_eq_none]
  change execRef s = _ ↔ _
  unfold execRef
  cases ctxRef s.call.plane with
  | none => simp
  | some j => simp [State.commit_ne_fault]

end

section
/-! SUPPORT. The host's `poll` of a register of the window (30 R135). Here O45 is settled. -/

namespace Sys2Proof.Machine

/-- A poll at an aligned offset of the window reads the register there; without a match a step of the
block and the same poll come next. -/
theorem State.poll_window (s : State) {off : Nat} (mask v : Word) (h : off < 0x100)
    (h4 : off % 4 = 0) :
    s.poll (s.plat.mmioBase + BitVec.ofNat 64 off) mask v =
      if s.readReg off &&& mask = v then .next (s.hostRead off)
      else .next { s.hostRead off with
        events := .core :: .poll (s.plat.mmioBase + BitVec.ofNat 64 off) mask v :: s.events } := by
  unfold State.poll
  rw [State.regOffset_window s h h4]

end Sys2Proof.Machine

open Sys2Proof Sys2Proof.Machine

/-- Settles O45: the offset is one of the window, and a read sets only the value the host gets. -/
theorem pollReadsUntilMatch : Obligations.PollReadsUntilMatch :=
  fun s _ mask v h h4 => s.poll_window mask v h h4

end

section
/-! SUPPORT. The commands of CTRL, each in closed form per outcome: the header OPEN reads as a list
of bytes, the checks of OPEN and of DECOMPRESS as the first cause that fails, and the state each
cause leaves (40 R150 to R157, 60 R283). Here O7 to O12 and O14 to O16 are settled. -/

namespace Sys2Proof.Machine

variable {s : State}

/-! ## Acceptance (40 R150) -/

theorem State.command_decoding (hd : s.callState = .decoding)
    (body : State → Host.Outcome State Fault Refusal) : s.command body = .next s.ignore :=
  if_pos (by simpa [State.busy] using hd)

theorem State.command_accepted (hd : s.callState ≠ .decoding)
    (body : State → Host.Outcome State Fault Refusal) : s.command body = body s.accept :=
  if_neg (by simpa [State.busy] using hd)

/-- Every CTRL row but NOP goes through acceptance, so a running call ignores it. -/
theorem exec_decoding {i : Instr} (hi : i.format = .ctrl) (hn : i ≠ .nop)
    (hd : s.callState = .decoding) : exec i s = .next s.ignore := by
  cases i with
  | nop => exact absurd rfl hn
  | openStream => exact show execOpen s = _ from State.command_decoding hd _
  | decompress => exact show execDecompress s = _ from State.command_decoding hd _
  | dekompress | reservedLow | reservedHigh =>
    exact State.command_decoding hd State.reservedAccepted
  | _ => cases hi

/-- An accepted reserved command (40 R157). -/
theorem exec_reserved {i : Instr}
    (hi : i = .dekompress ∨ (∃ c, i = .reservedLow c) ∨ ∃ c, i = .reservedHigh c)
    (hd : s.callState ≠ .decoding) : exec i s = .next (s.accept.raise .reservedOpcode) := by
  rcases hi with rfl | ⟨c, rfl⟩ | ⟨c, rfl⟩
  all_goals exact State.command_accepted hd State.reservedAccepted

/-! ## The first check that fails (60 R283) -/

/-- ERR and SUB of a cause. -/
def Cause.codes (e : Cause) : BitVec 4 × BitVec 4 := (e.err, e.sub)

/-- A list of checks reports the codes of a chain of causes when its first check and the first link
agree, and the rest agrees with the rest wherever that check passes. -/
theorem firstError_cons {p c : Prop} [Decidable p] [Decidable c] (e : Cause) {cs : List Check}
    {x : Option Cause} (hc : p ↔ c) (hrest : ¬ c → firstError cs = x.map Cause.codes) :
    firstError (⟨decide p, e.err, e.sub⟩ :: cs) =
      (if c then some e else x).map Cause.codes := by
  by_cases h : c
  · have hp : decide p = true := decide_eq_true (hc.2 h)
    rw [if_pos h, hp]
    rfl
  · have hp : decide p = false := decide_eq_false (mt hc.1 h)
    rw [if_neg h, ← hrest h, hp]
    rfl

theorem firstError_eq_none {cs : List Check} :
    firstError cs = none ↔ ∀ c ∈ cs, c.fails = false := by
  simp [firstError]

/-! ## The header at SRC_BASE (30 R101, 40 R152) -/

/-- The bytes OPEN reads from plain memory. -/
def State.sourceHeader (s : State) : List Byte := (List.range Config.hdrLen).map s.sourceByte

theorem State.headerByte_source (s : State) {k : Nat} (hk : k < 23) :
    headerByte s.sourceHeader k = s.sourceByte k := by
  simp [headerByte, State.sourceHeader, List.getD, hk]

theorem toNat_append_byte {w : Nat} (x : BitVec w) (b : Byte) :
    (x ++ b).toNat = x.toNat * 2 ^ 8 + b.toNat := by
  rw [BitVec.toNat_append, ← Nat.shiftLeft_add_eq_or_of_lt b.isLt, Nat.shiftLeft_eq]

theorem State.headerWord_source (s : State) {k : Nat} (hk : k + 3 < 23) :
    (headerWord s.sourceHeader k).toNat = s.sourceWord k := by
  unfold headerWord State.sourceWord
  rw [toNat_append_byte, toNat_append_byte, toNat_append_byte, s.headerByte_source hk,
    s.headerByte_source (by omega), s.headerByte_source (by omega), s.headerByte_source (by omega)]
  omega

theorem State.headerWord_source_eq_zero (s : State) {k : Nat} (hk : k + 3 < 23) :
    headerWord s.sourceHeader k = 0 ↔ s.sourceWord k = 0 := by
  rw [← s.headerWord_source hk]
  exact BitVec.toNat_inj.symm

theorem State.headerCount_source (s : State) :
    (headerWord s.sourceHeader 7).toNat * (headerWord s.sourceHeader 11).toNat *
      (headerWord s.sourceHeader 15).toNat * (headerWord s.sourceHeader 19).toNat =
    s.sourceCount := by
  rw [s.headerWord_source (by decide), s.headerWord_source (by decide),
    s.headerWord_source (by decide), s.headerWord_source (by decide)]
  rfl

theorem State.sourceMagic_iff (s : State) :
    s.sourceMagic ↔ s.sourceHeader.take 4 = Config.magic := by
  simp [State.sourceMagic, State.sourceHeader, List.range_succ]

/-- TYPE as a bit, where it is 0 or 1. -/
theorem setWidth_one_toNat {b : Byte} (h : b.toNat ≤ 1) : (b.setWidth 1).toNat = b.toNat := by
  rw [BitVec.toNat_setWidth]
  omega

/-- `Wh` is the element width of the latched type. -/
theorem State.elemWidth_source (h : (s.sourceByte 5).toNat ≤ 1) :
    elemWidth ((s.sourceByte 5).setWidth 1) = s.sourceWidth := by
  have hzero : (s.sourceByte 5).setWidth 1 = 0 ↔ s.sourceByte 5 = 0 := by
    rw [← BitVec.toNat_inj, setWidth_one_toNat h, ← BitVec.toNat_inj]
    rfl
  simp only [elemWidth, State.sourceWidth, hzero]

/-- OPEN's checks and the statement's list of them report the same cause: they agree one by one, the
last because it comes after the check of the type. -/
theorem State.firstError_openChecks (s : State) :
    firstError s.openChecks = (headerError s.sourceHeader).map Cause.codes := by
  have hbyte := @State.headerByte_source s
  have hword := @State.headerWord_source_eq_zero s
  unfold State.openChecks headerError
  refine firstError_cons .headerMagic (not_congr s.sourceMagic_iff) fun _ => ?_
  refine firstError_cons .headerVersion (by rw [hbyte (by decide)]) fun _ => ?_
  refine firstError_cons .headerType (by rw [hbyte (by decide)]) fun htype => ?_
  refine firstError_cons .headerZeroDim (by
    rw [hword (by decide), hword (by decide), hword (by decide), hword (by decide)]) fun _ => ?_
  refine firstError_cons .headerNvoxOverflow (by rw [s.headerCount_source]) fun _ => ?_
  refine firstError_cons .precisionZero (by rw [hbyte (by decide)]) fun _ => ?_
  refine firstError_cons .precisionWide ?_ fun _ => rfl
  rw [hbyte (by decide)] at htype
  rw [hbyte (by decide), hbyte (by decide), State.elemWidth_source (Nat.le_of_not_lt htype)]

/-- The handle of a header with a legal type and no overflow, register by register (10 R27 to
R32). -/
theorem State.headerHandle_source (base len : DWord) (htype : (s.sourceByte 5).toNat ≤ 1)
    (hcount : s.sourceCount < 2 ^ 64) :
    let h := headerHandle s.sourceHeader base len
    h.typ.toNat = (s.sourceByte 5).toNat ∧ h.prec = s.sourceByte 6 ∧
      h.nx.toNat = s.sourceWord 7 ∧ h.ny.toNat = s.sourceWord 11 ∧
      h.nz.toNat = s.sourceWord 15 ∧ h.nf.toNat = s.sourceWord 19 ∧
      h.nvox.toNat = s.sourceCount ∧ h.nbytes = len ∧ h.srcBase = base := by
  unfold headerHandle
  dsimp only
  rw [s.headerCount_source, s.headerByte_source (by decide), s.headerByte_source (by decide)]
  exact ⟨setWidth_one_toNat htype, rfl, s.headerWord_source (by decide),
    s.headerWord_source (by decide), s.headerWord_source (by decide),
    s.headerWord_source (by decide), (BitVec.toNat_ofNat ..).trans (Nat.mod_eq_of_lt hcount), rfl,
    rfl⟩

/-! ## OPEN (40 R152, R153) -/

/-- An accepted OPEN whose header passes its checks. -/
theorem exec_openStream_ok {t : State} (hd : s.callState ≠ .decoding)
    (h : s.accept.openAccepted = .ok () t) : exec .openStream s = .next t := by
  change execOpen s = _
  unfold execOpen
  rw [State.command_accepted hd, h]

/-- An accepted OPEN that fails leaves no handle (40 R153). -/
theorem exec_openStream_raised {e : Cause} {t : State} (hd : s.callState ≠ .decoding)
    (h : s.accept.openAccepted = .raised e t) :
    exec .openStream s = .next (t.raise e).dropHandle := by
  change execOpen s = _
  unfold execOpen
  rw [State.command_accepted hd, h]

/-- OPEN of a stream too short for a header reads nothing. -/
theorem State.openAccepted_short (hl : s.regs.srcLen.toNat < Config.hdrLen) :
    s.openAccepted = .raised .headerShort { s with vi := 0, rptr := 0 } :=
  if_pos hl

/-- OPEN that reads the whole header ends as the checks of the header say. -/
theorem State.openAccepted_read (hl : Config.hdrLen ≤ s.regs.srcLen.toNat)
    (hplain : s.plainRun s.regs.srcBase Config.hdrLen) :
    s.openAccepted =
      (headerError s.sourceHeader).elim
        (.ok () { s with
          vi := 0
          rptr := 23
          handle := headerHandle s.sourceHeader s.regs.srcBase s.regs.srcLen
          hv := true
          callState := .headerParsed })
        (fun e => .raised e { s with vi := 0, rptr := 23 }) := by
  have hread : State.portReadBytes { s with vi := 0 } s.regs.srcBase Config.hdrLen =
    .ok s.sourceHeader { s with vi := 0 } := State.portReadBytes_plain _ _ _ hplain
  unfold State.openAccepted
  dsimp only
  rw [if_neg (Nat.not_lt.2 hl), hread, Res.bind_ok]
  cases headerError s.sourceHeader <;> rfl

/-- An accepted OPEN of a header that fails a check. -/
theorem exec_openStream_error {e : Cause} (h : s.headerReady)
    (he : headerError s.sourceHeader = some e) :
    exec .openStream s =
      .next (State.raise { s.accept with vi := 0, rptr := 23 } e).dropHandle := by
  obtain ⟨hd, hl, hplain⟩ := h
  have hopen := State.openAccepted_read (s := s.accept) hl hplain
  have he' : headerError s.accept.sourceHeader = some e := he
  rw [he'] at hopen
  exact exec_openStream_raised hd hopen

/-- An accepted OPEN of a legal header. -/
theorem exec_openStream_legal (h : s.headerReady) (he : headerError s.sourceHeader = none) :
    exec .openStream s = .next { s.accept with
      vi := 0
      rptr := 23
      handle := headerHandle s.sourceHeader s.regs.srcBase s.regs.srcLen
      hv := true
      callState := .headerParsed } := by
  obtain ⟨hd, hl, hplain⟩ := h
  have hopen := State.openAccepted_read (s := s.accept) hl hplain
  have he' : headerError s.accept.sourceHeader = none := he
  rw [he'] at hopen
  exact exec_openStream_ok hd hopen

/-! ## DECOMPRESS (40 R154, R155) -/

theorem exceedsCapacity_iff (w : Nat) (depth : Option Nat) :
    exceedsCapacity w depth = true ↔ ∃ d ∈ depth, d < w := by
  cases depth <;> simp [exceedsCapacity]

/-- The first check of DECOMPRESS that fails for a valid handle (40 R154). -/
def State.decompressError (s : State) : Option Cause :=
  if s.regs.dstCount ≠ s.handle.nvox then some .bufferSizeMismatch
  else if s.regs.dstType ≠ s.handle.typ then some .typeMismatch
  else if exceedsCapacity s.handleWindow s.plat.nbDepth then some .capacityExceeded
  else none

theorem State.firstError_decompressChecks (s : State) :
    firstError s.decompressChecks = s.decompressError.map Cause.codes := by
  unfold State.decompressChecks State.decompressError
  refine firstError_cons .bufferSizeMismatch Iff.rfl fun _ => ?_
  refine firstError_cons .typeMismatch Iff.rfl fun _ => ?_
  exact firstError_cons .capacityExceeded (exceedsCapacity_iff _ _).symm fun _ => rfl

/-- A choice between outcomes is made by the chain of causes with the same conditions. -/
theorem ite_eq_elim {α β : Type} {c : Prop} [Decidable c] {e : α} {x : Option α} {a y b : β}
    {f : α → β} (ha : a = f e) (hy : y = x.elim b f) :
    (if c then a else y) = (if c then some e else x).elim b f := by
  split
  · exact ha
  · exact hy

/-- DECOMPRESS with a valid handle ends as its checks say. -/
theorem State.decompressAccepted_hv (hv : s.hv = true) :
    s.accept.decompressAccepted =
      s.decompressError.elim s.startCall
        fun e => State.raise { s.accept with vi := 0, rptr := 23 } e :=
  have hv' : ¬ s.accept.hv = false := by simp [hv]
  (if_neg hv').trans (ite_eq_elim rfl (ite_eq_elim rfl (ite_eq_elim rfl rfl)))

/-- DECOMPRESS outside a call (40 R154). -/
theorem exec_decompress_accepted (hd : s.callState ≠ .decoding) :
    exec .decompress s = .next s.accept.decompressAccepted := by
  change execDecompress s = _
  unfold execDecompress
  rw [State.command_accepted hd]

theorem exec_decompress_error {e : Cause} (hd : s.callState ≠ .decoding) (hv : s.hv = true)
    (he : s.decompressError = some e) :
    exec .decompress s = .next (State.raise { s.accept with vi := 0, rptr := 23 } e) := by
  rw [exec_decompress_accepted hd, State.decompressAccepted_hv hv, he, Option.elim_some]

theorem exec_decompress_start (hd : s.callState ≠ .decoding) (hv : s.hv = true)
    (he : s.decompressError = none) : exec .decompress s = .next s.startCall := by
  rw [exec_decompress_accepted hd, State.decompressAccepted_hv hv, he, Option.elim_none]

/-- The state with another memory. -/
def State.withMem (s : State) (m : Memory) : State := { s with mem := m }

/-- A choice that does not read memory commutes with the change if both branches do. -/
theorem ite_withMem {c : Prop} [Decidable c] {m : Memory} {t u t' u' : State}
    (ht : t' = t.withMem m) (hu : u' = u.withMem m) :
    (if c then t' else u') = (if c then t else u).withMem m := by
  split
  · exact ht
  · exact hu

/-- The acceptance of DECOMPRESS reads no memory (40 R155). -/
theorem State.decompressAccepted_withMem (s : State) (m : Memory) :
    (s.withMem m).decompressAccepted = s.decompressAccepted.withMem m :=
  ite_withMem rfl (ite_withMem rfl (ite_withMem rfl (ite_withMem rfl rfl)))

/-- DECOMPRESS answers, and its answer does not depend on memory. -/
theorem exec_decompress_withMem (s : State) :
    ∃ t, exec .decompress s = .next t ∧
      ∀ m, exec .decompress (s.withMem m) = .next (t.withMem m) := by
  by_cases hd : s.callState = .decoding
  · exact ⟨s.ignore, exec_decoding rfl (by decide) hd,
      fun m => exec_decoding (s := s.withMem m) rfl (by decide) hd⟩
  · refine ⟨_, exec_decompress_accepted hd, fun m => ?_⟩
    rw [exec_decompress_accepted (s := s.withMem m) hd, ← State.decompressAccepted_withMem]
    rfl

/-- DECOMPRESS leaves memory and the handle as they are (40 R155, R156). -/
theorem execDecompress_frame {t : State} (h : execDecompress s = .next t) :
    t.mem = s.mem ∧ s.sameHandle t := by
  rcases execDecompress_next h with ⟨-, rfl⟩ | ⟨-, ⟨e, vi, r, rfl⟩ | ⟨-, rfl⟩⟩
  all_goals exact ⟨rfl, rfl, rfl⟩

end Sys2Proof.Machine

open Sys2Proof Sys2Proof.Machine

/-- Settles O10: each check of the list passes, so the header is legal, and the handle holds its
fields. -/
theorem openLatchesLegalHeader : Obligations.OpenLatchesLegalHeader := by
  intro s hready hmagic hversion htype hdim hcount hprec hwide
  have hnone : firstError s.openChecks = none := by
    rw [firstError_eq_none]
    simp only [State.openChecks, List.forall_mem_cons, List.not_mem_nil, decide_eq_false_iff_not]
    exact ⟨not_not.2 hmagic, not_not.2 hversion, htype.not_gt, hdim, hcount.not_ge, hprec,
      hwide.not_gt, fun _ h => h.elim⟩
  rw [s.firstError_openChecks, Option.map_eq_none_iff] at hnone
  exact ⟨headerHandle s.sourceHeader s.regs.srcBase s.regs.srcLen,
    exec_openStream_legal hready hnone, s.headerHandle_source _ _ htype hcount⟩

/-- Settles O12: the first check that fails is the first link of the header's chain of causes. -/
theorem openReportsFirstHeaderError : Obligations.OpenReportsFirstHeaderError := by
  intro s err sub hready hfirst
  rw [s.firstError_openChecks, Option.map_eq_some_iff] at hfirst
  obtain ⟨e, he, hcodes⟩ := hfirst
  cases hcodes
  exact ⟨_, exec_openStream_error hready he, rfl⟩

/-- Settles O15, by HV, then by the first link of the chain of causes. -/
theorem decompressReportsFirstError : Obligations.DecompressReportsFirstError := by
  intro s hd
  refine ⟨fun hv => ?_, fun err sub hv hfirst => ?_⟩
  · have hno : s.accept.decompressAccepted = s.accept.raise .noHandle := if_pos hv
    exact ⟨_, exec_decompress_accepted hd, by rw [hno]; rfl⟩
  · rw [s.firstError_decompressChecks, Option.map_eq_some_iff] at hfirst
    obtain ⟨e, he, hcodes⟩ := hfirst
    cases hcodes
    exact ⟨_, exec_decompress_error hd hv he, rfl⟩

/-- Settles O7: neither has an effect. -/
theorem nopAndIdleChangeNothing : Obligations.NopAndIdleChangeNothing := fun _ => ⟨rfl, rfl⟩

/-- Settles O8: every command but NOP goes through acceptance. -/
theorem commandWhileDecodingSetsIgnOnly : Obligations.CommandWhileDecodingSetsIgnOnly :=
  fun _ _ hi hn hd => exec_decoding hi hn hd

/-- Settles O9, by the error an accepted reserved command raises. -/
theorem reservedCommandFails : Obligations.ReservedCommandFails :=
  fun _ _ hi hd => ⟨_, exec_reserved hi hd, rfl⟩

/-- Settles O11: the length is checked before the read. -/
theorem openShortStreamFails : Obligations.OpenShortStreamFails :=
  fun s hd hl =>
    ⟨_, exec_openStream_raised hd (State.openAccepted_short (s := s.accept) hl), rfl⟩

/-- Settles O14: with no cause to report the call starts. -/
theorem decompressStartsCall : Obligations.DecompressStartsCall := by
  intro s hd hv hfirst
  rw [s.firstError_decompressChecks, Option.map_eq_none_iff] at hfirst
  exact exec_decompress_start hd hv hfirst

/-- Settles O16: a change of memory goes through every check of the acceptance unseen. -/
theorem decompressMakesNoMemoryAccess : Obligations.DecompressMakesNoMemoryAccess := by
  intro s
  obtain ⟨t, ht, hmem⟩ := exec_decompress_withMem s
  obtain ⟨hm, hh, hv⟩ := execDecompress_frame ht
  exact ⟨t, ht, hm, hh, hv, hmem⟩

end

section
/-! SUPPORT. The coder of a running call over a step: the update of a context, the interval of a
legal decision, and the phases that leave both (41 R182 to R188). Here O17, O18 and O51 are
settled. -/

namespace Sys2Proof.Machine

variable {s t v : State} {r : CallRegs} {j : Fin Config.nctx}

/-! ## The update (41 R185) -/

/-- A total within the limit: the counter of the decoded value grows by 16. -/
theorem countersAfter_of_le {b : Bool} {c0 c1 : BitVec 16}
    (h : c0.toNat + (if b then 0 else 16) + (c1.toNat + (if b then 16 else 0)) ≤ 8192) :
    (countersAfter b c0 c1).1.toNat = c0.toNat + (if b then 0 else 16) ∧
      (countersAfter b c0 c1).2.toNat = c1.toNat + (if b then 16 else 0) := by
  simp only [countersAfter, Config.cntInc, Config.cntLimit]
  rw [if_neg h.not_gt, BitVec.toNat_ofNat, BitVec.toNat_ofNat]
  exact ⟨Nat.mod_eq_of_lt (by omega), Nat.mod_eq_of_lt (by omega)⟩

/-- A total past the limit: both counters are halved, rounding up. -/
theorem countersAfter_of_gt {b : Bool} {c0 c1 : BitVec 16} (hc : countersOk c0 c1)
    (h : 8192 < c0.toNat + (if b then 0 else 16) + (c1.toNat + (if b then 16 else 0))) :
    (countersAfter b c0 c1).1.toNat = (c0.toNat + (if b then 0 else 16) + 1) / 2 ∧
      (countersAfter b c0 c1).2.toNat = (c1.toNat + (if b then 16 else 0) + 1) / 2 := by
  obtain ⟨-, -, hsum⟩ := hc
  simp only [Config.cntLimit] at hsum
  simp only [countersAfter, Config.cntInc, Config.cntLimit]
  rw [if_pos h, BitVec.toNat_ofNat, BitVec.toNat_ofNat]
  exact ⟨Nat.mod_eq_of_lt (by split <;> omega), Nat.mod_eq_of_lt (by split <;> omega)⟩

theorem CallRegs.update_same (r : CallRegs) (j : Fin Config.nctx) (b : Bool) :
    ((r.update j b).c0[j], (r.update j b).c1[j]) = countersAfter b r.c0[j] r.c1[j] := by
  simp [CallRegs.update]

theorem CallRegs.update_other (r : CallRegs) {i j : Fin Config.nctx} (b : Bool) (h : i ≠ j) :
    ((r.update j b).c0[i], (r.update j b).c1[i]) = (r.c0[i], r.c1[i]) := by
  have hne : j.val ≠ i.val := fun he => h (Fin.ext he.symm)
  simp [CallRegs.update, Vector.getElem_set_ne, hne]

/-! ## The interval of a legal decision (41 R187, R188) -/

/-- `r` of a legal decision: `2^24 / 8192` or more. -/
theorem CallRegs.le_quotient (h : r.coderOk j) :
    2048 ≤ r.range.toNat / (r.c0[j].toNat + r.c1[j].toNat) := by
  obtain ⟨⟨h0, -, hsum⟩, hrange, -⟩ := h
  simp only [Config.cntLimit, Config.rcBot] at hsum hrange
  exact (Nat.le_div_iff_mul_le (by omega)).2 (by omega)

theorem CallRegs.le_split (h : r.coderOk j) : 2048 ≤ r.split j := by
  have hq := CallRegs.le_quotient h
  obtain ⟨⟨h0, -, -⟩, -, -⟩ := h
  exact hq.trans (Nat.le_mul_of_pos_right _ h0)

/-- The sub-interval of a 1 holds the `C1` parts of the interval that are not in the one of a 0. -/
theorem CallRegs.le_range_sub_split (h : r.coderOk j) : 2048 ≤ r.range.toNat - r.split j := by
  have hq := CallRegs.le_quotient h
  obtain ⟨⟨-, h1, -⟩, -, -⟩ := h
  let q := r.range.toNat / (r.c0[j].toNat + r.c1[j].toNat)
  have hparts : q * r.c0[j].toNat + q * r.c1[j].toNat ≤ r.range.toNat := by
    rw [← Nat.mul_add]
    exact Nat.div_mul_le_self _ _
  calc 2048 ≤ q := hq
    _ ≤ q * r.c1[j].toNat := Nat.le_mul_of_pos_right q h1
    _ ≤ r.range.toNat - q * r.c0[j].toNat := Nat.le_sub_of_add_le' hparts

theorem CallRegs.codeAfter_lt (h : r.coderOk j) : r.codeAfter j < r.rangeAfter j := by
  have hlt : ((r.narrow j (r.decision j)).update j (r.decision j)).code.toNat <
      ((r.narrow j (r.decision j)).update j (r.decision j)).range.toNat :=
    CallRegs.narrow_code_lt h
  rwa [CallRegs.update_narrow, CallRegs.narrowed_code, CallRegs.narrowed_range] at hlt

theorem shiftsFor_le (n : Nat) : shiftsFor n ≤ 2 := by
  unfold shiftsFor
  split_ifs <;> decide

/-! ## The coder over a phase step -/

/-- The coder of a call after RC_INIT: legal counters, a wide interval that holds CODE, and RPTR
inside the stream. -/
def State.coderLegal (s : State) : Prop :=
  (∀ j : Fin Config.nctx, countersOk s.call.c0[j] s.call.c1[j]) ∧
    Config.rcBot ≤ s.call.range.toNat ∧ s.call.code.toNat < s.call.range.toNat ∧
    Config.hdrLen ≤ s.rptr.toNat ∧ s.rptr.toNat ≤ s.handle.nbytes.toNat

theorem State.coderLegal.coderInv (h : s.coderLegal) : s.coderInv := by
  obtain ⟨hcount, hwide, hcode, hlo, hhi⟩ := h
  exact fun _ => ⟨hcount, fun _ => ⟨hwide, hcode⟩, hlo, hhi⟩

theorem State.coderInv.coderLegal (h : s.coderInv) (hd : s.callState = .decoding)
    (h1 : s.phase ≠ 1) : s.coderLegal := by
  obtain ⟨hcount, hinterval, hlo, hhi⟩ := h hd
  obtain ⟨hwide, hcode⟩ := hinterval h1
  exact ⟨hcount, hwide, hcode, hlo, hhi⟩

theorem State.coderInv_of_not_decoding (hd : s.callState ≠ .decoding) : s.coderInv :=
  fun h => absurd h hd

theorem State.coderInv_notTaken (hc : s.coderInv) (h : s.notTaken t) : t.coderInv := by
  rcases h with rfl | herr
  · exact hc
  · exact State.coderInv_of_not_decoding (by rw [State.callState_errorStep herr]; decide)

/-- A decision keeps the coder legal (41 R182, R187, R188). -/
theorem State.coderLegal_decodeBit {b : Bool} (hc : s.coderLegal) (h : s.decodeBit j = .ok b v) :
    v.coderLegal := by
  obtain ⟨hcount, hwide, hcode, hlo, hhi⟩ := hc
  obtain ⟨-, hframe, hwide', hmono, hstream⟩ := State.decodeBit_ok h
  have hcode' := State.decodeBit_code_lt h ⟨hcount j, hwide, hcode⟩
  have hcounters : v.call.c0 = (s.call.update j b).c0 ∧ v.call.c1 = (s.call.update j b).c1 ∧
      v.handle = s.handle := by
    rw [hframe]
    exact ⟨rfl, rfl, rfl⟩
  obtain ⟨h0, h1, hhandle⟩ := hcounters
  refine ⟨fun i => ?_, hwide', hcode', hlo.trans hmono, by rw [hhandle]; exact hstream hhi⟩
  rw [h0, h1]
  exact CallRegs.update_ok j b hcount i

theorem coderInv_execRcInit (hd : s.callState = .decoding) (hc : s.coderInv)
    (h : execRcInit s = .next t) : t.coderInv := by
  obtain ⟨hcount, -, hlo, hhi⟩ := hc hd
  rcases execRcInit_next h with h | ⟨rptr, n, code, hcode, hrptr, hstream, rfl⟩
  · exact State.coderInv_notTaken hc h
  · have hwide : Config.rcBot ≤ (0xFFFFFFFF : Word).toNat := by decide
    have hcode' : (BitVec.ofNat 32 code).toNat < (0xFFFFFFFF : Word).toNat :=
      (Nat.mod_le _ _).trans_lt hcode
    have hlo' : Config.hdrLen ≤ rptr.toNat := by omega
    exact fun _ => ⟨hcount, fun _ => ⟨hwide, hcode'⟩, hlo', hstream hhi⟩

theorem coderInv_execZero (hc : s.coderLegal) (h : execZero s = .next t) : t.coderInv := by
  rcases execZero_next h with h | ⟨b, v, hdec, rfl⟩
  · exact State.coderInv_notTaken hc.coderInv h
  · have hv := State.coderLegal_decodeBit hc hdec
    cases b
    · exact State.coderLegal.coderInv hv
    · exact State.coderLegal.coderInv hv

theorem coderInv_execSign (hc : s.coderLegal) (h : execSign s = .next t) : t.coderInv := by
  rcases execSign_next h with h | ⟨b, v, hdec, -, rfl⟩
  · exact State.coderInv_notTaken hc.coderInv h
  · have hv := State.coderLegal_decodeBit hc hdec
    exact State.coderLegal.coderInv hv

theorem coderInv_execSig (hc : s.coderLegal) (h : execSig s = .next t) : t.coderInv := by
  rcases execSig_next h with h | ⟨b, v, hdec, hcases⟩
  · exact State.coderInv_notTaken hc.coderInv h
  · have hv := State.coderLegal_decodeBit hc hdec
    rcases hcases with ⟨-, -, -, rfl⟩ | ⟨-, -, -, rfl⟩ | ⟨-, -, rfl⟩
    all_goals exact State.coderLegal.coderInv hv

theorem coderInv_execRef (hc : s.coderLegal) (h : execRef s = .next t) : t.coderInv := by
  rcases execRef_next h with h | ⟨j, b, v, -, hdec, -, rfl⟩
  · exact State.coderInv_notTaken hc.coderInv h
  · have hv := State.coderLegal_decodeBit hc hdec
    split
    · exact State.coderLegal.coderInv hv
    · exact State.coderLegal.coderInv hv

/-- EMIT's registers are none of the coder's (43 R256). -/
theorem State.coderLegal_emitAdvance (hc : s.coderLegal) : s.emitAdvance.coderLegal := by
  unfold State.coderLegal
  rw [State.emitAdvance_call, advance_frame]
  exact hc

theorem coderInv_execEmit (hc : s.coderLegal) (h : execEmit s = .next t) : t.coderInv := by
  rcases execEmit_next h with rfl | rfl
  · exact hc.coderInv
  · refine (State.coderLegal_emitAdvance ?_).coderInv
    rw [State.storeBytes_frame s s.emitAddr s.emitBytes]
    exact hc

theorem coderInv_execFinal (hc : s.coderInv) (h : execFinal s = .next t) : t.coderInv := by
  rcases execFinal_next h with h | ⟨-, rfl⟩
  · exact State.coderInv_notTaken hc h
  · exact State.coderInv_of_not_decoding (by simp)

/-- Every step of a call keeps the coder's invariant. -/
theorem State.coderInv_phase (hs : s.statusInv) (hc : s.coderInv)
    (h : exec (decodePhase s.phase) s = .next t) : t.coderInv := by
  have hlegal (n : BitVec 4) (hn : n ≠ 0) (h1 : n ≠ 1) (hp : s.phase = n) : s.coderLegal :=
    hc.coderLegal (hs.decoding (hp.trans_ne hn)) (hp.trans_ne h1)
  rcases exec_decodePhase_next h with ⟨-, rfl⟩ | ⟨hp, h⟩ | ⟨hp, h⟩ | ⟨hp, h⟩ | ⟨hp, h⟩ | ⟨hp, h⟩ |
    ⟨hp, h⟩ | ⟨hp, h⟩ | ⟨hp, h⟩ | ⟨-, h⟩
  · exact hc
  · exact coderInv_execRcInit (hs.decoding (hp.trans_ne (by decide))) hc h
  · cases h
    exact State.coderLegal.coderInv (hlegal 2 (by decide) (by decide) hp)
  · exact coderInv_execZero (hlegal 3 (by decide) (by decide) hp) h
  · exact coderInv_execSign (hlegal 4 (by decide) (by decide) hp) h
  · exact coderInv_execSig (hlegal 5 (by decide) (by decide) hp) h
  · exact coderInv_execRef (hlegal 6 (by decide) (by decide) hp) h
  · cases h
    exact State.coderLegal.coderInv (hlegal 7 (by decide) (by decide) hp)
  · exact coderInv_execEmit (hlegal 8 (by decide) (by decide) hp) h
  · exact coderInv_execFinal hc h

/-- The stream of a valid handle holds its header (40 R152). -/
theorem State.handleInv.nbytes (hh : s.handleInv) (hv : s.hv = true) :
    Config.hdrLen ≤ s.handle.nbytes.toNat := by
  unfold State.handleInv at hh
  rw [if_pos hv] at hh
  obtain ⟨-, -, -, -, -, -, -, hlen⟩ := hh
  exact hlen

/-- A call starts with every counter 1 and RPTR at the body (40 R154). -/
theorem State.coderInv_startCall (hh : s.handleInv) (hv : s.hv = true) :
    s.startCall.coderInv := by
  refine fun _ => ⟨fun j => ?_, fun h1 => absurd rfl h1, le_rfl, hh.nbytes hv⟩
  simp [State.startCall, CallRegs.start, Config.cntLimit]

end Sys2Proof.Machine

open Sys2Proof Sys2Proof.Machine

/-- Settles O51, phase by phase: a decision keeps the coder legal by the update of its context and
by its interval; RC_INIT starts the interval, and DECOMPRESS the counters and RPTR. -/
theorem coderInvariantKept : Obligations.CoderInvariantKept := fun _ _ hs hh hc h =>
  step_keeps_callInv (J := State.coderInv) (fun _ hd => State.coderInv_of_not_decoding hd)
    (fun _ _ hc hf => by rw [hf]; exact hc)
    (fun _ hh hv => State.coderInv_startCall hh hv)
    (fun _ _ hs _ hc h => State.coderInv_phase hs hc h) hs hh hc h

/-- Settles O17, by whether the total passes the limit, and by whether the context is the updated
one. -/
theorem updateKeepsCountersLegal : Obligations.UpdateKeepsCountersLegal := by
  refine ⟨fun b c0 c1 hc => ⟨countersAfter_ok b hc, countersAfter_of_le, countersAfter_of_gt hc⟩,
    fun r i j b => ?_⟩
  by_cases hij : i = j
  · subst hij
    exact (r.update_same i b).trans (if_pos rfl).symm
  · exact (r.update_other b hij).trans (if_neg hij).symm

/-- Settles O18: `r` is at least `2^24 / 8192`, and each sub-interval holds at least one `r`. -/
theorem decisionKeepsIntervalWide : Obligations.DecisionKeepsIntervalWide := by
  intro r j h
  obtain ⟨hwide, hfits, -⟩ := CallRegs.shifts_spec h
  exact ⟨CallRegs.le_quotient h, CallRegs.le_split h, CallRegs.le_range_sub_split h,
    CallRegs.le_rangeAfter h, CallRegs.codeAfter_lt h, shiftsFor_le _, hwide, hfits⟩

end

section
/-! SUPPORT. The fetches of the range decoder from a body that is plain memory, as far as it goes: a
decision and RC_INIT whose bytes are there, and those that meet the end of the body (41 R183, R184,
R189, R192). Here O19, O20, O22, O23 and O24 are settled. -/

namespace Sys2Proof.Machine

variable {s : State} {j : Fin Config.nctx}

/-! ## The end of the body (41 R183) -/

/-- The next `n` bytes of the body are plain, and they are its last. -/
abbrev State.bodyEnds (s : State) (n : Nat) : Prop :=
  s.rptr.toNat + n = s.handle.nbytes.toNat ∧ s.plainRun (s.handle.srcBase + s.rptr) n

theorem State.bodyEnds.bodyReady {n : Nat} (h : s.bodyEnds n) : s.bodyReady n := ⟨h.1.le, h.2⟩

/-- RPTR once the body's last bytes are fetched. -/
theorem State.bodyEnds.rptr_eq {n : Nat} (h : s.bodyEnds n) :
    s.rptr + BitVec.ofNat 64 n = s.handle.nbytes :=
  BitVec.eq_of_toNat_eq ((rptr_add h.1.le).trans h.1)

/-- A fetch at the end of the body. -/
theorem State.fetchByte_starved (h : s.rptr = s.handle.nbytes) :
    s.fetchByte = .raised .starved s :=
  State.fetchByte_eq_raised.2 ⟨by rw [h], rfl, rfl⟩

/-- A step starved of a byte leaves BYTES_USED at H_NBYTES (60 R283, R285). -/
theorem State.commit_starved {x : Res Unit} {t : State} (h : x = .raised .starved t)
    (ht : t.rptr = s.handle.nbytes) :
    ∃ u, s.commit x = .next u ∧ s.failedAs s.handle.nbytes 5 1 u :=
  ht ▸ State.commit_raised h

/-! ## A starved decision (41 R184, R186) -/

/-- A renormalisation that needs a byte past the body. -/
theorem State.renormalize_starved {n : Nat} (h : s.bodyEnds n)
    (hr : ∀ k ≤ n, s.call.range.toNat * 256 ^ k < Config.rcBot) :
    ∃ t, s.renormalize = .raised .starved t ∧ t.rptr = s.handle.nbytes := by
  have hleft : s.handle.nbytes.toNat - s.rptr.toNat = n := by have := h.1; omega
  have hlow : ¬ Config.rcBot ≤ (BitVec.ofNat 32 (s.call.range.toNat * 256 ^ n)).toNat :=
    ((Nat.mod_le _ _).trans_lt (hr n le_rfl)).not_ge
  unfold State.renormalize
  rw [hleft, renormLoop_plain n s n le_rfl h.bodyReady fun k hk => hr k hk.le, Nat.sub_self]
  unfold renormLoop
  rw [if_neg hlow, State.fetchByte_starved h.rptr_eq, Res.bind_raised]
  exact ⟨_, rfl, h.rptr_eq⟩

/-- A legal decision that needs a byte past the body. -/
theorem State.decodeBit_starved {n : Nat} (hc : s.call.coderOk j) (hn : n < s.call.shifts j)
    (h : s.bodyEnds n) : ∃ t, s.decodeBit j = .raised .starved t ∧ t.rptr = s.handle.nbytes := by
  obtain ⟨-, -, hsmall⟩ := CallRegs.shifts_spec hc
  obtain ⟨t, ht, hrptr⟩ :=
    State.renormalize_starved (s := { s with call := s.call.narrowed j }) h fun k hk => by
      rw [CallRegs.narrowed_range]
      exact hsmall k (hk.trans_lt hn)
  refine ⟨t, ?_, hrptr⟩
  unfold State.decodeBit
  dsimp only
  rw [CallRegs.update_narrow, ht, Res.bind_raised]

/-- The four decision steps begin with `DecodeBit` in their context (42 R212 to R218). -/
theorem exec_decision {i : Instr} (h : stepContext i s = some j) :
    ∃ f, exec i s = s.commit ((s.decodeBit j).bind f) := by
  cases i with
  | zero | sign | sig =>
    cases h
    exact ⟨_, rfl⟩
  | ref =>
    change ∃ f, execRef s = _
    unfold execRef
    rw [ctxRef_of_stepContext h]
    exact ⟨_, rfl⟩
  | _ => cases h

/-! ## RC_INIT (41 R189) -/

/-- One byte more of CODE. -/
theorem fetchCode_succ (n c : Nat) (s : State) :
    fetchCode (n + 1) c s = s.fetchByte.bind fun b t => fetchCode n (c * 256 + b.toNat) t := rfl

/-- The fetches of RC_INIT over plain memory, most significant byte first. -/
theorem fetchCode_plain (n l c : Nat) (h : s.bodyReady n) :
    fetchCode (n + l) c s =
      fetchCode l (c * 256 ^ n + s.bodyNat n) { s with rptr := s.rptr + BitVec.ofNat 64 n } := by
  induction n generalizing l with
  | zero => simp [State.bodyNat]
  | succ n ih =>
    obtain ⟨hlen, hplain⟩ := h
    have hrptr : (s.rptr + BitVec.ofNat 64 n).toNat = s.rptr.toNat + n := rptr_add (by omega)
    have hnext := hplain n n.lt_succ_self
    rw [BitVec.add_assoc] at hnext
    have hfetch := State.fetchByte_stream (s := { s with rptr := s.rptr + BitVec.ofNat 64 n })
      (by dsimp only; omega) hnext
    have hadd : s.rptr + BitVec.ofNat 64 n + 1 = s.rptr + BitVec.ofNat 64 (n + 1) := by
      rw [BitVec.ofNat_add, BitVec.add_assoc]
      rfl
    have hcode : (c * 256 ^ n + s.bodyNat n) * 256 + (s.streamByte (s.rptr.toNat + n)).toNat =
        c * 256 ^ (n + 1) + s.bodyNat (n + 1) := by
      rw [pow_succ, State.bodyNat]
      ring
    rw [Nat.add_right_comm, Nat.add_assoc,
      ih (l + 1) ⟨by omega, fun k hk => hplain k (hk.trans n.lt_succ_self)⟩,
      fetchCode_succ, hfetch, Res.bind_ok]
    dsimp only
    rw [hadd, hrptr, ← hcode]
    rfl

/-- RC_INIT whose four bytes are there. -/
theorem fetchCode_ready (h : s.bodyReady 4) :
    fetchCode 4 0 s = .ok (s.bodyNat 4) { s with rptr := s.rptr + 4 } := by
  rw [fetchCode_plain 4 0 0 h, Nat.zero_mul, Nat.zero_add]
  rfl

/-- RC_INIT that needs a byte past the body. -/
theorem fetchCode_starved {n : Nat} (hn : n < 4) (h : s.bodyEnds n) :
    ∃ t, fetchCode 4 0 s = .raised .starved t ∧ t.rptr = s.handle.nbytes := by
  obtain ⟨l, hl⟩ : ∃ l, 4 = n + (l + 1) := ⟨3 - n, by omega⟩
  rw [hl, fetchCode_plain n (l + 1) 0 h.bodyReady, fetchCode_succ,
    State.fetchByte_starved h.rptr_eq, Res.bind_raised]
  exact ⟨_, rfl, h.rptr_eq⟩

/-- RC_INIT that has its four bytes ends as they say. -/
theorem State.rcInit_ready (h : s.bodyReady 4) :
    s.rcInit =
      if initRange ≤ s.bodyNat 4 then .raised .codeRange { s with rptr := s.rptr + 4 }
      else .ok () { s with
        rptr := s.rptr + 4
        phase := 2
        call := { s.call with range := 0xFFFFFFFF, code := BitVec.ofNat 32 (s.bodyNat 4) } } := by
  unfold State.rcInit
  rw [fetchCode_ready h]
  rfl

theorem State.rcInit_starved {n : Nat} (hn : n < 4) (h : s.bodyEnds n) :
    ∃ t, s.rcInit = .raised .starved t ∧ t.rptr = s.handle.nbytes := by
  obtain ⟨t, ht, hrptr⟩ := fetchCode_starved hn h
  refine ⟨t, ?_, hrptr⟩
  unfold State.rcInit
  rw [ht, Res.bind_raised]

end Sys2Proof.Machine

open Sys2Proof Sys2Proof.Machine

/-- Settles O19: the renormalisation takes exactly the bytes that bring the sub-interval back to
`2^24`. -/
theorem decodeBitClosedForm : Obligations.DecodeBitClosedForm := fun _ _ h =>
  State.decodeBit_ready h

/-- Settles O20: each of these steps decides before its own checks, and its renormalisation meets the
end of the body. -/
theorem starvedDecisionFails : Obligations.StarvedDecisionFails := by
  intro s i j m hj hc hm hlen hplain
  obtain ⟨f, hstep⟩ := exec_decision hj
  obtain ⟨t, ht, hrptr⟩ := State.decodeBit_starved hc hm ⟨hlen, hplain⟩
  rw [hstep]
  exact State.commit_starved (by rw [ht, Res.bind_raised]) hrptr

/-- Settles O22: four fetches, then the check of CODE passes. -/
theorem rcInitLoadsCode : Obligations.RcInitLoadsCode := fun _ h hcode =>
  State.commit_ok ((State.rcInit_ready h).trans (if_neg hcode.not_ge))

/-- Settles O23: four fetches and the check of CODE fails, or a fetch meets the end of the body. -/
theorem rcInitRejectsBadStart : Obligations.RcInitRejectsBadStart := by
  refine fun s => ⟨fun h hcode => ?_, fun m hm hlen hplain => ?_⟩
  · exact State.commit_raised (t := { s with rptr := s.rptr + 4 }) (e := .codeRange)
      ((State.rcInit_ready h).trans (if_pos hcode.ge))
  · obtain ⟨t, ht, hrptr⟩ := State.rcInit_starved hm ⟨hlen, hplain⟩
    exact State.commit_starved ht hrptr

/-- Settles O24, by whether RPTR has reached the end of the body. -/
theorem finalCompletesExactBody : Obligations.FinalCompletesExactBody := by
  refine fun s => ⟨fun h => ?_, fun h => ?_⟩
  · exact ⟨_, State.commit_ok (x := s.final) (if_neg (not_not.2 h)), rfl⟩
  · exact State.commit_raised (x := s.final) (e := .trailing) (if_pos h)

end

section
/-! SUPPORT. RECON's sum and difference as numbers (42 R219, R220). Here O29 is settled. -/

namespace Sys2Proof.Machine

variable {r : CallRegs} {p : Nat}

/-- A residual with sign 0 stays below the top of the encoded domain, so the sum does not wrap. -/
theorem CallRegs.reconstructed_toNat_add (hp : p ≤ 64) (hpred : r.pred.toNat ≤ maxEnc p)
    (hbnd : r.bnd.toNat = residualBound p r.pred (r.sgn == 1)) (hmag : r.mag.toNat ≤ r.bnd.toNat)
    (hs : r.sgn = 0) : r.reconstructed.toNat = r.pred.toNat + r.mag.toNat := by
  have hmax := maxEnc_lt hp
  have hroom : r.bnd.toNat = maxEnc p - r.pred.toNat := by rw [hbnd, hs]; rfl
  rw [CallRegs.reconstructed, if_pos hs, BitVec.toNat_add_of_lt (by omega)]

/-- A residual with sign 1 is at most the prediction, so the difference does not wrap. -/
theorem CallRegs.reconstructed_toNat_sub
    (hbnd : r.bnd.toNat = residualBound p r.pred (r.sgn == 1)) (hmag : r.mag.toNat ≤ r.bnd.toNat)
    (hs : r.sgn = 1) : r.reconstructed.toNat + r.mag.toNat = r.pred.toNat := by
  have hroom : r.bnd.toNat = r.pred.toNat := by rw [hbnd, hs]; rfl
  have hle : r.mag.toNat ≤ r.pred.toNat := hmag.trans_eq hroom
  rw [CallRegs.reconstructed, if_neg (by rw [hs]; decide),
    BitVec.toNat_sub_of_le (BitVec.le_def.2 hle), Nat.sub_add_cancel hle]

end Sys2Proof.Machine

open Sys2Proof Sys2Proof.Machine

/-- Settles O29: U is `CallRegs.reconstructed`, and BND is the room that PRED leaves on the side of
the sign. -/
theorem reconStepResult : Obligations.ReconStepResult := by
  refine fun s => ⟨rfl, fun _ hp hpred ⟨hbnd, _⟩ hmag => ⟨fun hs => ?_, fun hs => ?_, ?_⟩⟩
  · exact CallRegs.reconstructed_toNat_add hp hpred hbnd hmag hs
  · exact CallRegs.reconstructed_toNat_sub hbnd hmag hs
  · exact CallRegs.reconstructed_le hp hpred hbnd hmag

end

section
/-! SUPPORT. The linear index as a mixed-radix number (43 R241): a neighbour's offset is one, the
window is one, and a position is in the volume when its index is. Here O32 and O33 are settled. -/

namespace Sys2Proof.Machine

variable {nx ny nz nf x y z f : Nat}

/-! ## The linear index -/

theorem linearIndex_mono {x' y' z' f' : Nat} (hx : x ≤ x') (hy : y ≤ y') (hz : z ≤ z')
    (hf : f ≤ f') : linearIndex nx ny nz x y z f ≤ linearIndex nx ny nz x' y' z' f' := by
  unfold linearIndex
  gcongr

/-- A digit below its radix and a number below `m` make a number below the radix times `m`. -/
theorem add_mul_lt_mul {d n k m : Nat} (hd : d < n) (hk : k < m) : d + n * k < n * m :=
  calc d + n * k
    _ < n * (k + 1) := by rw [Nat.mul_succ]; omega
    _ ≤ n * m := Nat.mul_le_mul_left n hk

/-- The index of a voxel is below the number of voxels (43 R241). -/
theorem linearIndex_lt (hx : x < nx) (hy : y < ny) (hz : z < nz) (hf : f < nf) :
    linearIndex nx ny nz x y z f < nx * ny * nz * nf :=
  calc linearIndex nx ny nz x y z f
    _ < nx * (ny * (nz * nf)) := add_mul_lt_mul hx (add_mul_lt_mul hy (add_mul_lt_mul hz hf))
    _ = nx * ny * nz * nf := by ring

/-- Where no dimension is empty, every coordinate counts at least once in the index. -/
theorem add_le_linearIndex (hx : 1 ≤ nx) (hy : 1 ≤ ny) (hz : 1 ≤ nz) :
    x + y + z + f ≤ linearIndex nx ny nz x y z f := by
  have hzf : f ≤ nz * f := Nat.le_mul_of_pos_left f hz
  have hyzf : z + nz * f ≤ ny * (z + nz * f) := Nat.le_mul_of_pos_left _ hy
  have hxyzf : y + ny * (z + nz * f) ≤ nx * (y + ny * (z + nz * f)) :=
    Nat.le_mul_of_pos_left _ hx
  unfold linearIndex
  omega

/-! ## Neighbours and the window -/

/-- A neighbour's offset is the index of its displacement (43 R242). -/
theorem Neighbour.offset_eq_linearIndex (d : Neighbour) (nx ny nz : Nat) :
    d.offset nx ny nz = linearIndex nx ny nz d.dx d.dy d.dz d.df := by
  unfold Neighbour.offset linearIndex
  ring

/-- A neighbour is at most one voxel away in each dimension, and is not the voxel itself. -/
theorem neighbours_near {d : Neighbour} (hd : d ∈ neighbours) :
    (d.dx ≤ 1 ∧ d.dy ≤ 1 ∧ d.dz ≤ 1 ∧ d.df ≤ 1) ∧ 1 ≤ d.dx + d.dy + d.dz + d.df := by
  revert d
  decide

/-- How far back a neighbour can lie along a dimension of `n` voxels. -/
def reach (n : Nat) : Nat := if n > 1 then 1 else 0

theorem reach_lt {n i : Nat} (hi : i < n) : reach n < n := by
  unfold reach
  split <;> omega

theorem le_reach {n i d : Nat} (hi : i < n) (hd : d ≤ 1) (hle : d ≤ i) : d ≤ reach n := by
  unfold reach
  split <;> omega

/-- The window is the index of the farthest displacement (43 R244). -/
theorem window_eq_linearIndex (nx ny nz nf : Nat) :
    window nx ny nz nf = linearIndex nx ny nz (reach nx) (reach ny) (reach nz) (reach nf) := by
  have hmul (n m : Nat) : (if n > 1 then m else 0) = m * reach n := by
    unfold reach
    split <;> simp
  unfold window linearIndex
  rw [hmul nx, hmul ny, hmul nz, hmul nf]
  ring

/-! ## `Advance()` past the last voxel -/

/-- `Advance()` stays in the volume or leaves it past the last voxel (43 R257). -/
theorem advance_inVolume_or_past {h : Handle} {r : CallRegs} (hr : r.inVolume h) :
    (advance h r).inVolume h ∨
      ((advance h r).vx = 0 ∧ (advance h r).vy = 0 ∧ (advance h r).vz = 0 ∧
        (advance h r).vf = h.nf) := by
  obtain ⟨hx, hy, hz, hf⟩ := hr
  have hf1 := toNat_add_one hf h.nf.isLt
  unfold advance CallRegs.inVolume
  split_ifs with hx' hy' hz'
  · exact .inl ⟨by rwa [toNat_add_one hx h.nx.isLt], hy, hz, hf⟩
  · exact .inl ⟨Nat.zero_lt_of_lt hx, by rwa [toNat_add_one hy h.ny.isLt], hz, hf⟩
  · exact .inl ⟨Nat.zero_lt_of_lt hx, Nat.zero_lt_of_lt hy,
      by rwa [toNat_add_one hz h.nz.isLt], hf⟩
  · rcases Nat.lt_or_ge (r.vf + 1).toNat h.nf.toNat with hlt | hge
    · exact .inl ⟨Nat.zero_lt_of_lt hx, Nat.zero_lt_of_lt hy, Nat.zero_lt_of_lt hz, hlt⟩
    · have hend : (r.vf + 1).toNat = h.nf.toNat := by omega
      exact .inr ⟨rfl, rfl, rfl, BitVec.eq_of_toNat_eq hend⟩

/-- From the last voxel `Advance()` goes to `VF = nf` (43 R257). -/
theorem advance_past {h : Handle} {r : CallRegs} (hr : r.inVolume h)
    (hlast : h.nx.toNat * h.ny.toNat * h.nz.toNat * h.nf.toNat ≤ r.index h + 1) :
    (advance h r).vx = 0 ∧ (advance h r).vy = 0 ∧ (advance h r).vz = 0 ∧
      (advance h r).vf = h.nf := by
  refine (advance_inVolume_or_past hr).resolve_left fun ⟨hx, hy, hz, hf⟩ => ?_
  rw [← advance_index hr] at hlast
  exact absurd (linearIndex_lt hx hy hz hf) (Nat.not_lt.2 hlast)

end Sys2Proof.Machine

open Sys2Proof Sys2Proof.Machine

/-- Settles O32: offsets, the window and the position are all linear indices, compared digit by
digit. -/
theorem windowCoversNeighbours : Obligations.WindowCoversNeighbours := by
  intro nx ny nz nf x y z f hx hy hz hf
  refine ⟨?_, fun d hd hin => ?_⟩
  · rw [window_eq_linearIndex]
    exact linearIndex_lt (reach_lt hx) (reach_lt hy) (reach_lt hz) (reach_lt hf)
  · obtain ⟨⟨hdx, hdy, hdz, hdf⟩, hpos⟩ := neighbours_near hd
    obtain ⟨hx', hy', hz', hf'⟩ := of_decide_eq_true hin
    rw [Neighbour.offset_eq_linearIndex, window_eq_linearIndex]
    refine ⟨hpos.trans (add_le_linearIndex (by omega) (by omega) (by omega)), ?_,
      linearIndex_mono hx' hy' hz' hf'⟩
    exact linearIndex_mono (le_reach hx hdx hx') (le_reach hy hdy hy') (le_reach hz hdz hz')
      (le_reach hf hdf hf')

/-- Settles O33, by the linear index: `Advance()` adds one to it, and an index of the whole volume or
more is no voxel's. -/
theorem advanceVisitsNextIndex : Obligations.AdvanceVisitsNextIndex := by
  intro h r hx hy hz hf
  have hr : r.inVolume h := ⟨hx, hy, hz, hf⟩
  exact ⟨advance_index hr, advance_frame h r, advance_inVolume hr, advance_past hr⟩

end

section
/-! SUPPORT. The Lorenzo sum as a sum over the table of neighbours, each with its written value (43
R242, R243, R246). Here O30 and O31 are settled. -/

namespace Sys2Proof.Machine

variable {s : State}

/-! ## The value of a neighbour -/

/-- A value found in the neighbour store is one of its entries. -/
theorem NbStore.mem_of_find {m : NbStore} {j : Nat} {v : DWord} (h : m.find j = some v) :
    (j, v) ∈ m := by
  induction m with
  | nil => cases h
  | cons c m ih =>
    obtain ⟨k, w⟩ := c
    unfold NbStore.find at h
    split at h
    · rename_i hk
      cases h
      rw [hk]
      exact List.mem_cons_self
    · exact List.mem_cons_of_mem _ (ih h)

/-- `N(d)` of a neighbour, by its displacement (43 R243). -/
def State.valueOf (s : State) (d : Neighbour) : Int := s.neighbourValue d.dx d.dy d.dz d.df

/-- The entry of a neighbour in bounds is read; outside it is 0 (43 R243). -/
theorem State.valueOf_eq (hw : s.neighboursWritten) {d : Neighbour} (hd : d ∈ neighbours) :
    (d.inBounds s.call.vx.toNat s.call.vy.toNat s.call.vz.toNat s.call.vf.toNat = true ∧
      ∃ e ∈ s.call.nb, s.valueOf d = e.2.toNat ∧
        s.nbAt (d.offset s.handle.nx.toNat s.handle.ny.toNat s.handle.nz.toNat) = e.2) ∨
    (d.inBounds s.call.vx.toNat s.call.vy.toNat s.call.vz.toNat s.call.vf.toNat = false ∧
      s.valueOf d = 0) := by
  cases hin : d.inBounds s.call.vx.toNat s.call.vy.toNat s.call.vz.toNat s.call.vf.toNat with
  | false => exact .inr ⟨rfl, if_neg (of_decide_eq_false hin)⟩
  | true =>
    obtain ⟨hle, hsome⟩ := hw d hd hin
    obtain ⟨v, hv⟩ := Option.isSome_iff_exists.1 hsome
    refine .inl ⟨rfl, _, NbStore.mem_of_find hv, ?_, ?_⟩
    · unfold Neighbour.offset at hv
      unfold State.valueOf State.neighbourValue
      rw [if_pos (of_decide_eq_true hin), hv]
    · unfold State.nbAt
      rw [if_pos hle, hv]

/-- `c(d) * N(d)` over written entries (43 R242, R243). -/
theorem State.term_eq (hw : s.neighboursWritten) {d : Neighbour} (hd : d ∈ neighbours) :
    s.term d = d.coeff * s.valueOf d := by
  unfold State.term
  rcases State.valueOf_eq hw hd with ⟨hin, e, -, hval, hnb⟩ | ⟨hin, hval⟩
  · rw [if_pos hin, hnb, hval]
  · rw [if_neg (by rw [hin]; decide), hval, mul_zero]

/-! ## The sum -/

/-- The table of 43 R242 lists the cell without the voxel itself, each with the sign of the
inclusion-exclusion. -/
theorem State.cellSum_eq (s : State) :
    s.cellSum = (neighbours.map fun d => d.coeff * s.valueOf d).sum := by
  unfold State.cellSum
  simp only [Finset.sum_range_succ, Finset.sum_range_zero, neighbours, Neighbour.coeff,
    State.valueOf, List.map_cons, List.map_nil, List.sum_cons, List.sum_nil]
  norm_num
  ring

theorem State.lorenzoSum_eq (hw : s.neighboursWritten) :
    s.lorenzoSum = (neighbours.map fun d => d.coeff * s.valueOf d).sum :=
  congrArg List.sum (List.map_congr_left fun _ hd => State.term_eq hw hd)

/-- Values in `[0, m]` with a sign `c` of -1 or 1 (43 R246). -/
theorem signed_mem_Icc {c v m : Int} (hc : c = 1 ∨ c = -1) (h0 : 0 ≤ v) (hm : v ≤ m) :
    min c 0 * m ≤ c * v ∧ c * v ≤ max c 0 * m := by
  rcases hc with rfl | rfl <;> norm_num <;> omega

theorem Neighbour.coeff_eq (d : Neighbour) : d.coeff = 1 ∨ d.coeff = -1 := by
  unfold Neighbour.coeff
  split <;> simp

/-- Seven coefficients of the table are -1 and eight are 1 (43 R246). -/
theorem neighbours_coeff_sums :
    (neighbours.map fun d => min d.coeff 0).sum = -7 ∧
      (neighbours.map fun d => max d.coeff 0).sum = 8 := by
  decide

/-- The sum of values of at most `m` (43 R246). -/
theorem State.lorenzoSum_mem_Icc (hw : s.neighboursWritten) {m : Int} (hm0 : 0 ≤ m)
    (hm : ∀ e ∈ s.call.nb, (e.2.toNat : Int) ≤ m) :
    -7 * m ≤ s.lorenzoSum ∧ s.lorenzoSum ≤ 8 * m := by
  obtain ⟨hneg, hpos⟩ := neighbours_coeff_sums
  have hterm (d : Neighbour) (hd : d ∈ neighbours) :
      min d.coeff 0 * m ≤ d.coeff * s.valueOf d ∧ d.coeff * s.valueOf d ≤ max d.coeff 0 * m := by
    rcases State.valueOf_eq hw hd with ⟨-, e, he, hval, -⟩ | ⟨-, hval⟩
    · exact signed_mem_Icc d.coeff_eq (by omega) (hval.trans_le (hm e he))
    · exact signed_mem_Icc d.coeff_eq hval.ge (hval.trans_le hm0)
  rw [State.lorenzoSum_eq hw, ← hneg, ← hpos, ← List.sum_map_mul_right, ← List.sum_map_mul_right]
  exact ⟨List.sum_le_sum fun d hd => (hterm d hd).1, List.sum_le_sum fun d hd => (hterm d hd).2⟩

/-! ## The clamp -/

theorem maxEnc_cast (p : Nat) : (maxEnc p : Int) = 2 ^ p - 1 := by
  unfold maxEnc
  rw [Nat.cast_sub Nat.one_le_two_pow]
  norm_num

/-- The clamped value as an integer (43 R247). -/
theorem clampEnc_cast (p : Nat) (acc : Int) :
    (clampEnc p acc : Int) = min (max acc 0) (2 ^ p - 1) := by
  rw [clampEnc, Int.toNat_of_nonneg (by omega), maxEnc_cast]

end Sys2Proof.Machine

open Sys2Proof Sys2Proof.Machine

/-- Settles O30: the clamped value fits its 64-bit register, and over written entries the model's table
gives the sum over the cell. -/
theorem predictClampsCellSum : Obligations.PredictClampsCellSum := by
  refine fun s => ⟨BitVec.ofNat 64 (clampEnc s.precision s.lorenzoSum), rfl, fun hp hw => ?_⟩
  have hfits := (clampEnc_le s.precision s.lorenzoSum).trans_lt (maxEnc_lt hp)
  rw [BitVec.toNat_ofNat, Nat.mod_eq_of_lt hfits, clampEnc_cast, State.lorenzoSum_eq hw,
    State.cellSum_eq]

/-- Settles O31: eight coefficients are 1 and seven are -1, and an entry is at most `2^P - 1`. -/
theorem lorenzoSumFitsAccumulator : Obligations.LorenzoSumFitsAccumulator := by
  intro s hw hle
  rw [← maxEnc_cast]
  exact State.lorenzoSum_mem_Icc hw (by omega) fun e he => by exact_mod_cast hle e he

end

section
/-! SUPPORT. The value map and its inverse on each half of the encoded domain (43 R251, R252). Here
O34 is settled. -/

namespace Sys2Proof.Machine

variable {w p t u raw : Nat}

/-! ## The top bit of a `P`-bit value -/

/-- The top bit is clear exactly in the lower half. -/
theorem testBit_top (hp : 1 ≤ p) (ht : t < 2 ^ p) :
    t.testBit (p - 1) = decide (2 ^ (p - 1) ≤ t) := by
  have hdouble := Nat.two_pow_pred_mul_two hp
  rcases Nat.lt_or_ge t (2 ^ (p - 1)) with hlt | hge
  · rw [Nat.testBit_lt_two_pow hlt, decide_eq_false (Nat.not_le.2 hlt)]
  · rw [decide_eq_true hge]
    exact Nat.testBit_of_two_pow_le_and_two_pow_add_one_gt hge (by
      rw [Nat.sub_add_cancel hp]; exact ht)

/-- Setting the clear top bit adds its weight. -/
theorem or_top (ht : t < 2 ^ (p - 1)) : t ||| 2 ^ (p - 1) = t + 2 ^ (p - 1) := by
  rw [Nat.or_comm, Nat.add_comm]
  simpa using (Nat.two_pow_add_eq_or_of_lt ht 1).symm

/-! ## The two maps, half by half -/

/-- The map of a negative value reverses the order (43 R251). -/
theorem fwdMap_upper (hp : 1 ≤ p) (ht : raw / 2 ^ (w - p) < 2 ^ p)
    (h : 2 ^ (p - 1) ≤ raw / 2 ^ (w - p)) :
    fwdMap w p raw = 2 ^ p - 1 - raw / 2 ^ (w - p) := by
  unfold fwdMap
  dsimp only
  rw [testBit_top hp ht, if_pos (decide_eq_true h)]
  rfl

/-- The map of a non-negative value moves it to the upper half (43 R251). -/
theorem fwdMap_lower (hp : 1 ≤ p) (h : raw / 2 ^ (w - p) < 2 ^ (p - 1)) :
    fwdMap w p raw = raw / 2 ^ (w - p) + 2 ^ (p - 1) := by
  have hdouble := Nat.two_pow_pred_mul_two hp
  unfold fwdMap
  dsimp only
  rw [testBit_top hp (by omega), if_neg (by simpa using h), or_top h]

theorem invMap_upper (hp : 1 ≤ p) (hu : u < 2 ^ p) (h : 2 ^ (p - 1) ≤ u) :
    invMap w p u = (u - 2 ^ (p - 1)) * 2 ^ (w - p) := by
  unfold invMap
  dsimp only
  rw [testBit_top hp hu, if_pos (decide_eq_true h)]

theorem invMap_lower (hp : 1 ≤ p) (h : u < 2 ^ (p - 1)) :
    invMap w p u = (2 ^ p - 1 - u) * 2 ^ (w - p) := by
  have hdouble := Nat.two_pow_pred_mul_two hp
  unfold invMap
  dsimp only
  rw [testBit_top hp (by omega), if_neg (by simpa using h)]
  rfl

/-! ## Round trips -/

/-- The top `P` bits of a `W`-bit value. -/
theorem top_lt (hw : p ≤ w) (hraw : raw < 2 ^ w) : raw / 2 ^ (w - p) < 2 ^ p := by
  rw [← pow_mul_pow_sub 2 hw] at hraw
  exact Nat.div_lt_of_lt_mul (by rwa [Nat.mul_comm])

theorem fwdMap_lt (hp : 1 ≤ p) (hw : p ≤ w) (hraw : raw < 2 ^ w) : fwdMap w p raw < 2 ^ p := by
  have ht := top_lt hw hraw
  have hdouble := Nat.two_pow_pred_mul_two hp
  rcases Nat.lt_or_ge (raw / 2 ^ (w - p)) (2 ^ (p - 1)) with h | h
  · rw [fwdMap_lower hp h]
    omega
  · rw [fwdMap_upper hp ht h]
    omega

/-- The inverse map gives back the top bits, with the low bits clear (43 R252, R253). -/
theorem invMap_fwdMap (hp : 1 ≤ p) (hw : p ≤ w) (hraw : raw < 2 ^ w) :
    invMap w p (fwdMap w p raw) = raw / 2 ^ (w - p) * 2 ^ (w - p) := by
  have ht := top_lt hw hraw
  have hdouble := Nat.two_pow_pred_mul_two hp
  rcases Nat.lt_or_ge (raw / 2 ^ (w - p)) (2 ^ (p - 1)) with h | h
  · rw [fwdMap_lower hp h, invMap_upper hp (by omega) (Nat.le_add_left _ _), Nat.add_sub_cancel]
  · rw [fwdMap_upper hp ht h, invMap_lower hp (by omega), Nat.sub_sub_self (by omega)]

/-- The top bits of a complement are the complement of the top bits. -/
theorem complement_div (hw : p ≤ w) (hraw : raw < 2 ^ w) :
    (2 ^ w - 1 - raw) / 2 ^ (w - p) = 2 ^ p - 1 - raw / 2 ^ (w - p) := by
  rw [← pow_mul_pow_sub 2 hw, Nat.mul_comm] at hraw ⊢
  rw [Nat.sub_sub, Nat.sub_sub, Nat.add_comm 1, Nat.add_comm 1]
  exact Nat.mul_sub_div raw _ _ hraw

/-- The `P`-bit value is the top of the full-width one (43 R253). -/
theorem fwdMap_eq_top (hp : 1 ≤ p) (hw : p ≤ w) (hraw : raw < 2 ^ w) :
    fwdMap w p raw = fwdMap w w raw / 2 ^ (w - p) := by
  have ht := top_lt hw hraw
  have hd : 0 < 2 ^ (w - p) := Nat.two_pow_pos _
  have hhalf : 2 ^ (w - 1) = 2 ^ (p - 1) * 2 ^ (w - p) := by
    rw [← pow_add]
    congr 1
    omega
  have hfull : raw / 2 ^ (w - w) = raw := by simp
  rcases Nat.lt_or_ge (raw / 2 ^ (w - p)) (2 ^ (p - 1)) with h | h
  · have h' : raw < 2 ^ (w - 1) := by rwa [hhalf, ← Nat.div_lt_iff_lt_mul hd]
    rw [fwdMap_lower hp h, fwdMap_lower (hp.trans hw) (by rwa [hfull]), hfull, hhalf,
      Nat.add_mul_div_right _ _ hd]
  · have h' : 2 ^ (w - 1) ≤ raw := by rwa [hhalf, ← Nat.le_div_iff_mul_le hd]
    rw [fwdMap_upper hp ht h, fwdMap_upper (hp.trans hw) (by rwa [hfull]) (by rwa [hfull]), hfull,
      complement_div hw hraw]

/-- A value of the encoded domain comes back whole (43 R253). -/
theorem fwdMap_invMap (hp : 1 ≤ p) (hu : u < 2 ^ p) : fwdMap w p (invMap w p u) = u := by
  have hd : 0 < 2 ^ (w - p) := Nat.two_pow_pos _
  have hdouble := Nat.two_pow_pred_mul_two hp
  rcases Nat.lt_or_ge u (2 ^ (p - 1)) with h | h
  · have htop : invMap w p u / 2 ^ (w - p) = 2 ^ p - 1 - u := by
      rw [invMap_lower hp h, Nat.mul_div_cancel _ hd]
    have hlt : invMap w p u / 2 ^ (w - p) < 2 ^ p := by omega
    have hge : 2 ^ (p - 1) ≤ invMap w p u / 2 ^ (w - p) := by omega
    rw [fwdMap_upper hp hlt hge, htop]
    omega
  · have htop : invMap w p u / 2 ^ (w - p) = u - 2 ^ (p - 1) := by
      rw [invMap_upper hp hu h, Nat.mul_div_cancel _ hd]
    have hlt : invMap w p u / 2 ^ (w - p) < 2 ^ (p - 1) := by omega
    rw [fwdMap_lower hp hlt, htop]
    omega

theorem invMap_lt (hp : 1 ≤ p) (hw : p ≤ w) (hu : u < 2 ^ p) : invMap w p u < 2 ^ w := by
  have hd : 0 < 2 ^ (w - p) := Nat.two_pow_pos _
  rw [← pow_mul_pow_sub 2 hw]
  rcases Nat.lt_or_ge u (2 ^ (p - 1)) with h | h
  · rw [invMap_lower hp h]
    exact Nat.mul_lt_mul_of_pos_right (by omega) hd
  · rw [invMap_upper hp hu h]
    exact Nat.mul_lt_mul_of_pos_right ((Nat.sub_le _ _).trans_lt hu) hd

/-! ## The two zeros -/

theorem fwdMap_zero (hp : 1 ≤ p) : fwdMap w p 0 = 2 ^ (p - 1) := by
  have hzero : 0 / 2 ^ (w - p) = 0 := Nat.zero_div _
  rw [fwdMap_lower hp (by rw [hzero]; exact Nat.two_pow_pos _), hzero, Nat.zero_add]

/-- The negative zero, whose sign bit alone is set (43 R253). -/
theorem fwdMap_signBit (hp : 1 ≤ p) (hw : p ≤ w) :
    fwdMap w p (2 ^ (w - 1)) = 2 ^ (p - 1) - 1 := by
  have hdouble := Nat.two_pow_pred_mul_two hp
  have hpos := Nat.two_pow_pos (p - 1)
  have htop : 2 ^ (w - 1) / 2 ^ (w - p) = 2 ^ (p - 1) := by
    rw [Nat.pow_div (by omega) (by decide)]
    congr 1
    omega
  rw [fwdMap_upper hp (by omega) htop.ge, htop]
  omega

end Sys2Proof.Machine

open Sys2Proof Sys2Proof.Machine

/-- Settles O34, half by half of the encoded domain. -/
theorem valueMapRoundTrips : Obligations.ValueMapRoundTrips := fun _ _ hp hw =>
  ⟨fun _ hu => ⟨invMap_lt hp hw hu, fwdMap_invMap hp hu⟩,
    fun _ hraw => ⟨fwdMap_lt hp hw hraw, invMap_fwdMap hp hw hraw, fwdMap_eq_top hp hw hraw⟩,
    fwdMap_zero hp, fwdMap_signBit hp hw⟩

end

section
/-! SUPPORT. EMIT with its element in plain memory (43 R256). Here O35 is settled. -/

namespace Sys2Proof.Machine

variable {s : State}

/-- EMIT whose bytes are all in memory writes its element and moves on (43 R256). -/
theorem exec_emit_memory (h : s.admissionRun s.emitAddr s.emitBytes.length = .memory) :
    exec .emit s = .next (s.storeBytes s.emitAddr s.emitBytes).emitAdvance := by
  change s.commit s.emit = _
  refine State.commit_ok ?_
  rw [State.emit, State.portWrite_eq_ok.2 ⟨h, rfl⟩, Res.bind_ok]

/-- Byte `k` of the element EMIT writes (20 R74). -/
theorem State.emitBytes_getElem (s : State) {k : Nat} (hk : k < s.emitBytes.length) :
    s.emitBytes[k] =
      BitVec.ofNat 8 (invMap (elemWidth s.handle.typ) s.precision s.call.u.toNat / 256 ^ k) :=
  leBytes_getElem _ _ k hk

theorem elemBytes_le (typ : BitVec 1) : elemBytes typ ≤ 8 :=
  Nat.div_le_div_right (elemWidth_le typ)

end Sys2Proof.Machine

open Sys2Proof Sys2Proof.Machine

/-- Settles O35: all of the element is admitted, so EMIT is taken, and none of it is contested, so every
byte is stored as it is. -/
theorem emitWritesElement : Obligations.EmitWritesElement := by
  intro s E a hw hplain
  have hlen : s.emitBytes.length = E := s.emitBytes_length
  have hE : E ≤ 8 := elemBytes_le s.handle.typ
  have hmem : s.admissionRun a s.emitBytes.length = .memory := by
    rw [hlen]
    exact State.admissionRun_memory fun k hk => (hplain k hk).1
  obtain ⟨m, old, hstore, hread, hother⟩ := s.storeBytes_plain a s.emitBytes (by omega) hw
    fun k hk => (hplain k (hlen ▸ hk)).2
  refine ⟨m, old, ?_, fun k hk => ?_, fun x hx => hother x fun k hk => hx k (hlen ▸ hk)⟩
  · refine (exec_emit_memory hmem).trans ?_
    change Host.Outcome.next (s.storeBytes a s.emitBytes).emitAdvance = _
    rw [hstore]
    rfl
  · have hk' : k < s.emitBytes.length := hlen.symm ▸ hk
    exact (hread k hk').trans (s.emitBytes_getElem hk')

end

section
/-! SUPPORT. The count of the steps a call can still take: every phase step lowers it (43 R259, 70
R331). Here O54 is settled. -/

namespace Sys2Proof.Machine

variable {s t : State}

/-! ## The count, phase by phase -/

/-- The most steps the voxels after this one can take: `P + 5` each (43 R259). -/
def State.stepsLater (s : State) : Nat :=
  (s.precision + 5) * (s.handle.nvox.toNat - s.vi.toNat - 1)

/-- The voxel being decoded is one of the volume. -/
abbrev State.voxelLeft (s : State) : Prop := s.vi.toNat < s.handle.nvox.toNat

/-- The steps of this voxel and of those after it. -/
theorem State.steps_from_voxel (hv : s.voxelLeft) :
    (s.precision + 5) * (s.handle.nvox.toNat - s.vi.toNat) = s.stepsLater + s.precision + 5 := by
  obtain ⟨n, hn⟩ : ∃ n, s.handle.nvox.toNat - s.vi.toNat = n + 1 :=
    ⟨s.handle.nvox.toNat - s.vi.toNat - 1, by omega⟩
  unfold State.stepsLater
  rw [hn, Nat.add_sub_cancel]
  ring

/-- A call starts at voxel 0, so the whole volume is ahead of it. -/
theorem State.stepsLeft_rcInit (hp : s.phase = 1) (h0 : s.vi = 0) (hv : s.voxelLeft) :
    s.stepsLeft = s.stepsLater + s.precision + 7 := by
  have h := State.steps_from_voxel hv
  rw [h0] at h
  simpa [State.stepsLeft, hp] using h

theorem State.stepsLeft_predict (hp : s.phase = 2) (hv : s.voxelLeft) :
    s.stepsLeft = s.stepsLater + s.precision + 6 := by
  have h := State.steps_from_voxel hv
  simpa [State.stepsLeft, hp] using h

theorem State.stepsLeft_zero (hp : s.phase = 3) (hv : s.voxelLeft) :
    s.stepsLeft = s.stepsLater + s.precision + 5 := by
  have h := State.steps_from_voxel hv
  simpa [State.stepsLeft, hp] using h

theorem State.stepsLeft_sign (hp : s.phase = 4) :
    s.stepsLeft = s.stepsLater + s.precision + 4 := by
  simp [State.stepsLeft, State.stepsLater, hp]

theorem State.stepsLeft_plane (hp : s.phase = 5 ∨ s.phase = 6) :
    s.stepsLeft = s.stepsLater + 4 + s.call.plane.toNat := by
  rcases hp with hp | hp <;> simp [State.stepsLeft, State.stepsLater, hp]

theorem State.stepsLeft_recon (hp : s.phase = 7) : s.stepsLeft = s.stepsLater + 3 := by
  simp [State.stepsLeft, State.stepsLater, hp]

theorem State.stepsLeft_emit (hp : s.phase = 8) : s.stepsLeft = s.stepsLater + 2 := by
  simp [State.stepsLeft, State.stepsLater, hp]

theorem State.stepsLeft_final (hp : s.phase = 9) : s.stepsLeft = 1 := by
  simp [State.stepsLeft, hp]

/-! ## What the invariant says of a running call -/

/-- Before FINAL there is a voxel to decode. -/
theorem State.positionInv.voxelLeft (hp : s.positionInv) (hd : s.callState = .decoding)
    (h9 : s.phase ≠ 9) : s.voxelLeft := by
  obtain ⟨-, -, hpos⟩ := hp hd
  rw [if_neg h9] at hpos
  exact hpos.1

/-- In SIG and in REF the plane is below the precision (42 R215). -/
theorem State.residualInv.plane_lt (hr : s.residualInv) (hd : s.callState = .decoding)
    (hp : s.phase = 5 ∨ s.phase = 6) : s.call.plane.toNat < s.precision := by
  obtain ⟨-, -, hsig, href, -⟩ := hr hd
  rcases hp with h5 | h6
  · obtain ⟨-, hplane, -⟩ := hsig h5
    exact hplane
  · obtain ⟨-, hplane, -⟩ := href h6
    exact Nat.lt_of_succ_lt hplane

/-- The phases of a running call (10 R40). -/
theorem State.statusInv.phase_cases (hs : s.statusInv) (hd : s.callState = .decoding) :
    s.phase = 1 ∨ s.phase = 2 ∨ s.phase = 3 ∨ s.phase = 4 ∨ (s.phase = 5 ∨ s.phase = 6) ∨
      s.phase = 7 ∨ s.phase = 8 ∨ s.phase = 9 := by
  obtain ⟨hidle, hle, -⟩ := hs
  have hne : s.phase ≠ 0 := fun h0 => hidle.1 h0 hd
  generalize s.phase = p at hne hle ⊢
  revert p
  decide

/-- The count is at most the steps of a whole call (43 R259). -/
theorem State.stepsLeft_le (hi : s.Inv) (hd : s.callState = .decoding) :
    s.stepsLeft ≤ 2 + (s.precision + 5) * s.handle.nvox.toNat := by
  obtain ⟨hs, -, -, -, hp, hr⟩ := hi
  by_cases h9 : s.phase = 9
  · rw [State.stepsLeft_final h9]
    omega
  · have hv := hp.voxelLeft hd h9
    have hsteps := State.steps_from_voxel hv
    have hmul : (s.precision + 5) * (s.handle.nvox.toNat - s.vi.toNat) ≤
        (s.precision + 5) * s.handle.nvox.toNat := Nat.mul_le_mul_left _ (Nat.sub_le _ _)
    rcases hs.phase_cases hd with h | h | h | h | h | h | h | h
    · rw [State.stepsLeft_rcInit h ((hp hd).1 h) hv]; omega
    · rw [State.stepsLeft_predict h hv]; omega
    · rw [State.stepsLeft_zero h hv]; omega
    · rw [State.stepsLeft_sign h]; omega
    · have hplane := hr.plane_lt hd h
      rw [State.stepsLeft_plane h]; omega
    · rw [State.stepsLeft_recon h]; omega
    · rw [State.stepsLeft_emit h]; omega
    · exact absurd h h9

/-! ## Every phase step lowers the count -/

/-- `t` ends the call of `s`, is stuck, or has fewer steps left (43 R259). -/
abbrev State.progressTo (s t : State) : Prop :=
  t.callState ≠ .decoding ∨ t.stuck = true ∨ t.stepsLeft < s.stepsLeft

theorem State.progressTo_notTaken (h : s.notTaken t) : s.progressTo t := by
  rcases h with rfl | herr
  · exact .inr (.inl rfl)
  · exact .inl (by rw [State.callState_errorStep herr]; decide)

/-- A refined magnitude goes on to RECON (42 R216, R218). -/
theorem State.progressTo_recon (hp : s.phase = 5 ∨ s.phase = 6) (ht : t.phase = 7)
    (hlater : t.stepsLater = s.stepsLater) : s.progressTo t := by
  refine .inr (.inr ?_)
  rw [State.stepsLeft_plane hp, State.stepsLeft_recon ht]
  omega

/-- SIG and REF go on to the next lower plane (42 R216, R218). -/
theorem State.progressTo_nextPlane (hp : s.phase = 5 ∨ s.phase = 6) (ht : t.phase = 5 ∨ t.phase = 6)
    (hlater : t.stepsLater = s.stepsLater)
    (hplane : t.call.plane.toNat + 1 = s.call.plane.toNat) : s.progressTo t := by
  refine .inr (.inr ?_)
  rw [State.stepsLeft_plane hp, State.stepsLeft_plane ht]
  omega

theorem progressTo_execRcInit (hp : s.phase = 1) (h0 : s.vi = 0) (hv : s.voxelLeft)
    (h : execRcInit s = .next t) : s.progressTo t := by
  rcases execRcInit_next h with h | ⟨r, n, code, -, -, -, rfl⟩
  · exact State.progressTo_notTaken h
  · refine .inr (.inr ?_)
    rw [State.stepsLeft_rcInit hp h0 hv]
    exact lt_of_eq_of_lt (State.stepsLeft_predict rfl hv) (Nat.lt_succ_self _)

theorem progressTo_execPredict (hp : s.phase = 2) (hv : s.voxelLeft)
    (h : execPredict s = .next t) : s.progressTo t := by
  cases h
  refine .inr (.inr ?_)
  rw [State.stepsLeft_predict hp hv]
  exact lt_of_eq_of_lt (State.stepsLeft_zero rfl hv) (Nat.lt_succ_self _)

theorem progressTo_execZero (hp : s.phase = 3) (hv : s.voxelLeft) (h : execZero s = .next t) :
    s.progressTo t := by
  rcases execZero_next h with h | ⟨b, v, hdec, rfl⟩
  · exact State.progressTo_notTaken h
  · obtain ⟨r, n, range, code, c0, c1, rfl⟩ := State.decodeBit_coderStep hdec
    refine .inr (.inr ?_)
    rw [State.stepsLeft_zero hp hv]
    cases b
    · exact (State.stepsLeft_sign rfl).trans_lt (Nat.lt_succ_self _)
    · refine (State.stepsLeft_emit rfl).trans_lt ?_
      change s.stepsLater + 2 < _
      omega

theorem progressTo_execSign (hprec : 1 ≤ s.precision) (hp : s.phase = 4)
    (h : execSign s = .next t) : s.progressTo t := by
  rcases execSign_next h with h | ⟨b, v, hdec, -, rfl⟩
  · exact State.progressTo_notTaken h
  · obtain ⟨r, n, range, code, c0, c1, rfl⟩ := State.decodeBit_coderStep hdec
    have hplane : (BitVec.ofNat 6 (s.precision - 1)).toNat < s.precision :=
      (Nat.mod_le _ _).trans_lt (by omega)
    refine .inr (.inr ?_)
    rw [State.stepsLeft_sign hp]
    refine (State.stepsLeft_plane (.inl rfl)).trans_lt ?_
    change s.stepsLater + 4 + (BitVec.ofNat 6 (s.precision - 1)).toNat < _
    omega

theorem progressTo_execSig (hp : s.phase = 5) (h : execSig s = .next t) : s.progressTo t := by
  rcases execSig_next h with h | ⟨b, v, hdec, hcases⟩
  · exact State.progressTo_notTaken h
  · obtain ⟨r, n, range, code, c0, c1, rfl⟩ := State.decodeBit_coderStep hdec
    rcases hcases with ⟨-, -, -, rfl⟩ | ⟨-, -, hk, rfl⟩ | ⟨-, hk, rfl⟩
    · exact State.progressTo_recon (.inl hp) rfl rfl
    · exact State.progressTo_nextPlane (.inl hp) (.inr rfl) rfl (plane_pred hk)
    · exact State.progressTo_nextPlane (.inl hp) (.inl rfl) rfl (plane_pred hk)

theorem progressTo_execRef (hp : s.phase = 6) (h : execRef s = .next t) : s.progressTo t := by
  rcases execRef_next h with h | ⟨j, b, v, -, hdec, -, rfl⟩
  · exact State.progressTo_notTaken h
  · obtain ⟨r, n, range, code, c0, c1, rfl⟩ := State.decodeBit_coderStep hdec
    split
    · exact State.progressTo_recon (.inr hp) rfl rfl
    · rename_i hk
      exact State.progressTo_nextPlane (.inr hp) (.inr rfl) rfl (plane_pred hk)

theorem progressTo_execRecon (hp : s.phase = 7) (h : execRecon s = .next t) : s.progressTo t := by
  cases h
  refine .inr (.inr ?_)
  rw [State.stepsLeft_recon hp]
  exact (State.stepsLeft_emit rfl).trans_lt (Nat.lt_succ_self _)

/-- After EMIT the rest of the count is the next voxel's and FINAL's (43 R256). -/
theorem State.stepsLeft_emitAdvance (hv : s.voxelLeft) :
    s.emitAdvance.stepsLeft = s.stepsLater + 1 := by
  have hvi : (s.vi + 1).toNat = s.vi.toNat + 1 := toNat_add_one hv s.handle.nvox.isLt
  by_cases hend : s.vi + 1 = s.handle.nvox
  · have hlast : s.handle.nvox.toNat - s.vi.toNat - 1 = 0 := by
      rw [← hend, hvi]
      omega
    rw [State.stepsLeft_final (State.emitAdvance_phase_last hend), State.stepsLater, hlast,
      Nat.mul_zero]
  · have hne : (s.vi + 1).toNat ≠ s.handle.nvox.toNat := fun h => hend (BitVec.eq_of_toNat_eq h)
    have hleft : s.emitAdvance.voxelLeft := by
      change (s.vi + 1).toNat < s.handle.nvox.toNat
      omega
    have hsteps := State.steps_from_voxel hleft
    have hcount : s.stepsLater =
        (s.precision + 5) * (s.handle.nvox.toNat - (s.vi + 1).toNat) := by
      rw [State.stepsLater, hvi, Nat.sub_sub]
    rw [State.stepsLeft_predict (State.emitAdvance_phase_next hend) hleft, hcount]
    exact congrArg (· + 1) hsteps.symm

theorem progressTo_execEmit (hp : s.phase = 8) (hv : s.voxelLeft) (h : execEmit s = .next t) :
    s.progressTo t := by
  rcases execEmit_next h with rfl | rfl
  · exact .inr (.inl rfl)
  · refine .inr (.inr ?_)
    rw [State.stepsLeft_emit hp, State.storeBytes_frame s s.emitAddr s.emitBytes]
    exact (State.stepsLeft_emitAdvance hv).trans_lt (Nat.lt_succ_self _)

theorem progressTo_execFinal (h : execFinal s = .next t) : s.progressTo t := by
  rcases execFinal_next h with h | ⟨-, rfl⟩
  · exact State.progressTo_notTaken h
  · exact .inl (by simp)

/-- Every step of a running call lowers the count, ends the call, or is stuck (43 R259). -/
theorem progressTo_phase (hi : s.Inv) (hd : s.callState = .decoding)
    (h : exec (decodePhase s.phase) s = .next t) : s.progressTo t := by
  obtain ⟨hs, hh, -, -, hp, -⟩ := hi
  have hv (n : BitVec 4) (hn : n ≠ 9) (hpn : s.phase = n) : s.voxelLeft :=
    hp.voxelLeft hd (hpn.trans_ne hn)
  rcases exec_decodePhase_next h with ⟨hn, -⟩ | ⟨hn, h⟩ | ⟨hn, h⟩ | ⟨hn, h⟩ | ⟨hn, h⟩ | ⟨hn, h⟩ |
    ⟨hn, h⟩ | ⟨hn, h⟩ | ⟨hn, h⟩ | ⟨-, h⟩
  · exact absurd hd (hs.1.1 hn)
  · exact progressTo_execRcInit hn ((hp hd).1 hn) (hv 1 (by decide) hn) h
  · exact progressTo_execPredict hn (hv 2 (by decide) hn) h
  · exact progressTo_execZero hn (hv 3 (by decide) hn) h
  · exact progressTo_execSign (State.handleInv_precision hh (hs.hv_of_decoding hd)).1 hn h
  · exact progressTo_execSig hn h
  · exact progressTo_execRef hn h
  · exact progressTo_execRecon hn h
  · exact progressTo_execEmit hn (hv 8 (by decide) hn) h
  · exact progressTo_execFinal h

/-! ## The block's own step -/

/-- A running block that is not stuck takes the step PHASE selects (10 R40, 70 R330). -/
theorem step_coreNext (hn : s.coreNext) (hs : s.stuck = false) (hr : s.resetApplied = false) :
    ∃ r : List Event, step s = exec (decodePhase s.phase) { s with events := r } := by
  rcases hn with he | he
  · exact ⟨s.events, (step_nil he).trans (State.coreStep_free hs hr)⟩
  · obtain ⟨rest, he⟩ := List.head?_eq_some_iff.1 he
    exact ⟨rest, (step_cons he).trans (State.coreStep_free hs hr)⟩

/-- Reset is not applied during a call (70 R310). -/
theorem State.statusInv.resetApplied_of_decoding (hs : s.statusInv) (hd : s.callState = .decoding) :
    s.resetApplied = false := by
  obtain ⟨-, -, -, -, -, hreset⟩ := hs
  refine Bool.eq_false_iff.2 fun hr => ?_
  rw [hreset hr] at hd
  cases hd

end Sys2Proof.Machine

open Sys2Proof Sys2Proof.Machine

/-- Settles O54: the count is a sum of the steps of this voxel and of the later ones, and each phase
takes one of them. -/
theorem callStepsAreBounded : Obligations.CallStepsAreBounded := by
  intro s t hi hd hs hn
  refine ⟨State.stepsLeft_le hi hd, fun h => ?_⟩
  obtain ⟨r, hstep⟩ := step_coreNext hn hs (hi.1.resetApplied_of_decoding hd)
  rw [hstep] at h
  exact progressTo_phase (s := { s with events := r }) hi hd h

end

section
/-! Noninterference of the instances (60 R298): what a turn of one leaves of the others, and what the
running calls note of each other at its end. -/

namespace Sys2Proof.Machine

variable {y z : System} {s t u v : State}

/-- The other instances as a turn's event leaves them: at most the addresses raced on differ, and
only by the address of a host store (20 R85, R86). -/
theorem System.seen_instance {m : Nat} (e : Option Event) (hs : y.insts[m]? = some s) :
    ∃ raced : List DWord, (y.seen e)[m]? = some { s with raced := raced } ∧
      (raced = s.raced ∨ ∃ a b, raced = addRaced s.raced a ∧ e = some (.store a b)) := by
  rcases y.getElem?_seen e m with h | ⟨a, b, he, h⟩
  · exact ⟨s.raced, h.trans hs, .inl rfl⟩
  · rw [hs, Option.map_some] at h
    rcases s.markRaced_eq a with hmark | hmark <;> rw [hmark] at h
    · exact ⟨s.raced, h, .inl rfl⟩
    · exact ⟨addRaced s.raced a, h, .inr ⟨a, b, rfl, he⟩⟩

/-- After a turn an instance other than the one whose turn it was is as the event left it, with the
destinations of the other calls noted. -/
theorem System.getElem?_afterTurn_ne {n m : Nat} (hm : m ≠ n)
    (hu : (y.seen s.events.head?)[m]? = some u) :
    ∃ others : List Region, (y.afterTurn n s t).insts[m]? = some (u.noteClash others) := by
  have hafter := getElem?_noteClashes ((y.seen s.events.head?).set n t.park) m
  rw [List.getElem?_set_ne hm.symm, hu, Option.map_some] at hafter
  exact ⟨_, hafter⟩

/-- The destination of a running call is among the regions that the others note (20 R87). -/
theorem mem_othersDest {l : List State} {i j : Nat} (hij : i ≠ j) (hv : l[j]? = some v)
    (hbusy : v.busy = true) : v.asCall.dest ∈ (l.eraseIdx i).flatMap State.runningDest := by
  have hmem : v ∈ l.eraseIdx i := List.mem_eraseIdx_iff_getElem?.2 ⟨j, hij.symm, hv⟩
  have hdest : v.asCall.dest ∈ v.runningDest := by
    rw [State.runningDest, if_pos hbusy]
    exact List.mem_singleton_self _
  exact List.mem_flatMap.2 ⟨v, hmem, hdest⟩

/-- Once all have noted each other, a running call lists the destination of every other one. -/
theorem dest_mem_clash_of_noteClashes {l : List State} {i j : Nat} (hij : i ≠ j)
    (hu : (noteClashes l)[i]? = some u) (hv : (noteClashes l)[j]? = some v)
    (hubusy : u.busy = true) (hvbusy : v.busy = true) : v.asCall.dest ∈ u.clash := by
  rw [getElem?_noteClashes] at hu hv
  obtain ⟨p, -, rfl⟩ := Option.map_eq_some_iff.1 hu
  obtain ⟨q, hq, rfl⟩ := Option.map_eq_some_iff.1 hv
  rw [State.noteClash_busy] at hubusy hvbusy
  rw [State.noteClash_runningDest]
  obtain ⟨c, hnote, -, -, hothers⟩ := p.noteClash_eq ((l.eraseIdx i).flatMap State.runningDest)
  rw [hnote]
  exact hothers hubusy _ (mem_othersDest hij hq hvbusy)

/-- A step of one instance leaves another as it was, except `raced` and `clash` (60 R298). -/
theorem System.step_other {n m : Nat} (h : y.step n = .next z) (hm : m ≠ n)
    (hs : y.insts[m]? = some s) :
    ∃ (raced : List DWord) (clash : List Region),
      z.insts[m]? = some { s with raced := raced, clash := clash } ∧
      (raced = s.raced ∨ ∃ a b, raced = addRaced s.raced a ∧
        (y.insts[n]?.bind fun i => i.events.head?) = some (.store a b)) ∧
      (s.callState ≠ .decoding → clash = s.clash) ∧ ∀ r ∈ s.clash, r ∈ clash := by
  rcases System.step_next h with ⟨-, rfl⟩ | ⟨p, t, hp, -, rfl⟩
  · exact ⟨s.raced, s.clash, hs, .inl rfl, fun _ => rfl, fun _ hr => hr⟩
  · obtain ⟨raced, hseen, hraced⟩ := System.seen_instance p.events.head? hs
    obtain ⟨others, hother⟩ := System.getElem?_afterTurn_ne (t := t) hm hseen
    obtain ⟨clash, hnote, hidle, hkept, -⟩ := State.noteClash_eq { s with raced := raced } others
    rw [hnote] at hother
    refine ⟨raced, clash, hother, ?_, fun hd => hidle (beq_false_of_ne hd), hkept⟩
    rwa [hp, Option.bind_some]

/-- After a step of an instance every running call has noted the destinations of the others. -/
theorem System.step_dest_mem_clash {n i j : Nat} (h : y.step n = .next z) (hn : n < y.insts.length)
    (hij : i ≠ j) (hu : z.insts[i]? = some u) (hv : z.insts[j]? = some v)
    (hud : u.callState = .decoding) (hvd : v.callState = .decoding) :
    v.asCall.dest ∈ u.clash := by
  rcases System.step_next h with ⟨hnone, -⟩ | ⟨p, t, -, -, rfl⟩
  · exact absurd (List.getElem?_eq_none_iff.1 hnone) (Nat.not_le.2 hn)
  · exact dest_mem_clash_of_noteClashes hij hu hv (beq_iff_eq.2 hud) (beq_iff_eq.2 hvd)

end Sys2Proof.Machine

open Sys2Proof Sys2Proof.Machine

/-- Settles O58: a turn replaces its own instance only; of the others the event may add to `raced`, and
noting the calls that run at once adds to `clash`. -/
theorem instancesShareOnlyMemory : Obligations.InstancesShareOnlyMemory :=
  ⟨fun _ _ _ _ _ h hm hs => System.step_other h hm hs,
    fun _ _ _ _ _ _ _ h hn hij hu hv hud hvd => System.step_dest_mem_clash h hn hij hu hv hud hvd⟩

end
